-- ==== Sys2Proof/Word.lean ====
section
/-!
DEFINITION. The word of the hardware and its base (00_scope.md R4, R5, R6).
-/

namespace Sys2Proof

/-- A word: 32 bits (R4, the parameter `W`), never read as signed (R5). -/
abbrev Word := BitVec 32

/-- A host address: 16 bits, one word per address (R4, R50). -/
abbrev Addr := BitVec 16

/-- A register number: 0 to 15 (R20, R81). The parameter `NREG` of R4 is 16. -/
abbrev RegId := Fin 16

/-- The word base `B = 2^32` (R4). -/
abbrev B : Nat := 4294967296

end Sys2Proof
end

