-- ==== Sys2Proof/Syntax.lean ====
section
/-!
DEFINITION. The sixteen commands (30_encoding.md R83, R84), one constructor per row of the opcode
table, and the four pseudo-commands (R89). The fields stand in the order of the assembler syntax
(R88): destinations first, then sources, the modulus last.
-/

namespace Sys2Proof

/-- The commands of MWAU command set 1.0 (R84). `d` and `e` are the fields `D` and `E`, `a` and `b`
the fields `A` and `B`; where `E` names the modulus it is called `m` (R83). -/
inductive Instr where
  /-- ADD xd, xa, xb (R105). -/
  | add (d a b : RegId)
  /-- SUB xd, xa, xb (R106). -/
  | sub (d a b : RegId)
  /-- NEG xd, xa (R107). -/
  | neg (d a : RegId)
  /-- ABS xd, xa (R108). -/
  | abs (d a : RegId)
  /-- CMPM xa, xb (R109). -/
  | cmpm (a b : RegId)
  /-- CMP xa, xb (R110). -/
  | cmp (a b : RegId)
  /-- MUL xd, xa, xb (R131). -/
  | mul (d a b : RegId)
  /-- DIVREM xq, xr, xa, xb: quotient to `D = q`, remainder to `E = r` (R151). -/
  | divrem (d e a b : RegId)
  /-- DIV xd, xa, xb (R152). -/
  | div (d a b : RegId)
  /-- REM xd, xa, xb (R153). -/
  | rem (d a b : RegId)
  /-- MOD xd, xa, xb (R154). -/
  | mod (d a b : RegId)
  /-- MONTMUL xd, xa, xb, xm (R175). -/
  | montmul (d a b m : RegId)
  /-- MONTRED xd, xa, xm (R176). -/
  | montred (d a m : RegId)
  /-- MONTIN xd, xa, xm (R177). -/
  | montin (d a m : RegId)
  /-- MODPOW xd, xa, xb, xm: base `A`, exponent `B`, modulus `E` (R194). -/
  | modpow (d a b m : RegId)
  /-- MODINV xd, xa, xm (R191). -/
  | modinv (d a m : RegId)
  deriving DecidableEq, Repr

/-- The source registers of a command, in the order `A`, `B`, `E` in which R91 step 2 checks them
(R83). -/
def Instr.sources : Instr → List RegId
  | .add _ a b => [a, b]
  | .sub _ a b => [a, b]
  | .neg _ a => [a]
  | .abs _ a => [a]
  | .cmpm a b => [a, b]
  | .cmp a b => [a, b]
  | .mul _ a b => [a, b]
  | .divrem _ _ a b => [a, b]
  | .div _ a b => [a, b]
  | .rem _ a b => [a, b]
  | .mod _ a b => [a, b]
  | .montmul _ a b m => [a, b, m]
  | .montred _ a m => [a, m]
  | .montin _ a m => [a, m]
  | .modpow _ a b m => [a, b, m]
  | .modinv _ a m => [a, m]

/-- The destination registers of a command (R83). -/
def Instr.dests : Instr → List RegId
  | .add d _ _ => [d]
  | .sub d _ _ => [d]
  | .neg d _ => [d]
  | .abs d _ => [d]
  | .cmpm _ _ => []
  | .cmp _ _ => []
  | .mul d _ _ => [d]
  | .divrem d e _ _ => [d, e]
  | .div d _ _ => [d]
  | .rem d _ _ => [d]
  | .mod d _ _ => [d]
  | .montmul d _ _ _ => [d]
  | .montred d _ _ => [d]
  | .montin d _ _ => [d]
  | .modpow d _ _ _ => [d]
  | .modinv d _ _ => [d]

/-- The commands that write the compare flags (R31): CMPM and CMP. -/
def Instr.writesFlags : Instr → Bool
  | .add _ _ _ => false
  | .sub _ _ _ => false
  | .neg _ _ => false
  | .abs _ _ => false
  | .cmpm _ _ => true
  | .cmp _ _ => true
  | .mul _ _ _ => false
  | .divrem _ _ _ _ => false
  | .div _ _ _ => false
  | .rem _ _ _ => false
  | .mod _ _ _ => false
  | .montmul _ _ _ _ => false
  | .montred _ _ _ => false
  | .montin _ _ _ => false
  | .modpow _ _ _ _ => false
  | .modinv _ _ _ => false

/-- Pseudo-command `SQR xd, xa` (R89). -/
def Instr.sqr (d a : RegId) : Instr := .mul d a a

/-- Pseudo-command `DBL xd, xa` (R89). -/
def Instr.dbl (d a : RegId) : Instr := .add d a a

/-- Pseudo-command `MONTSQR xd, xa, xm` (R89). -/
def Instr.montsqr (d a m : RegId) : Instr := .montmul d a a m

/-- Pseudo-command `MONTOUT xd, xa, xm` (R89). -/
def Instr.montout (d a m : RegId) : Instr := .montred d a m

end Sys2Proof
end

