-- ==== Sys2Proof/WellFormed.lean ====
section
/-!
DEFINITION. Which terms of `Instr` are commands. A register number is a `Fin 16`, so that every field
value is legal (30_encoding.md R81); the one check left is DIVREM's (R85 (d), 70_reset_and_hazards.md
R256): its two destinations differ.
-/

namespace Sys2Proof

/-- The command is legal: DIVREM with `D = E` is not, everything else is (R85, R256). -/
def Instr.wf : Instr → Bool
  | .divrem d e _ _ => decide (d ≠ e)
  | .add _ _ _ => true
  | .sub _ _ _ => true
  | .neg _ _ => true
  | .abs _ _ => true
  | .cmpm _ _ => true
  | .cmp _ _ => true
  | .mul _ _ _ => true
  | .div _ _ _ => true
  | .rem _ _ _ => true
  | .mod _ _ _ => true
  | .montmul _ _ _ _ => true
  | .montred _ _ _ => true
  | .montin _ _ _ => true
  | .modpow _ _ _ _ => true
  | .modinv _ _ _ => true

end Sys2Proof
end

