-- ==== Sys2Proof/Decode.lean ====
section
/-!
DEFINITION. Encoding and decoding of command words (30_encoding.md R80 to R86, R88).
-/

namespace Sys2Proof

/-- `v[hi:lo]` as an unsigned integer (00_scope.md R5). -/
def slice {n : Nat} (hi lo : Nat) (v : BitVec n) : Nat := v.toNat / 2 ^ lo % 2 ^ (hi + 1 - lo)

/-- The register a four-bit field names (R81). -/
def regOf (n : Nat) : RegId := Fin.ofNat 16 n

/-- A row of the opcode map R84 with the field use of R83. -/
structure OpRow where
  /-- The mnemonic. -/
  mnemonic : String
  /-- The value of the field `OP`. -/
  op : Nat
  /-- The match word of R84. -/
  matchWord : Word
  /-- The mask word of R84. -/
  maskWord : Word
  /-- Whether the command uses the fields `D`, `E`, `A`, `B` (R83). -/
  usesD : Bool
  /-- See `usesD`. -/
  usesE : Bool
  /-- See `usesD`. -/
  usesA : Bool
  /-- See `usesD`. -/
  usesB : Bool
  /-- The command with the fields `D`, `E`, `A`, `B`; unused fields are dropped. -/
  build : RegId → RegId → RegId → RegId → Instr

/-- The adder's rows of R84. -/
def rowsAdder : List OpRow := [
  ⟨"ADD",  0x10, 0x10000000, 0xFF0F00FF, true,  false, true, true,  fun d _ a b => .add d a b⟩,
  ⟨"SUB",  0x11, 0x11000000, 0xFF0F00FF, true,  false, true, true,  fun d _ a b => .sub d a b⟩,
  ⟨"NEG",  0x12, 0x12000000, 0xFF0F0FFF, true,  false, true, false, fun d _ a _ => .neg d a⟩,
  ⟨"ABS",  0x13, 0x13000000, 0xFF0F0FFF, true,  false, true, false, fun d _ a _ => .abs d a⟩,
  ⟨"CMPM", 0x14, 0x14000000, 0xFFFF00FF, false, false, true, true,  fun _ _ a b => .cmpm a b⟩,
  ⟨"CMP",  0x15, 0x15000000, 0xFFFF00FF, false, false, true, true,  fun _ _ a b => .cmp a b⟩]

/-- The multiplier's and the divider's rows of R84. -/
def rowsMulDiv : List OpRow := [
  ⟨"MUL",    0x20, 0x20000000, 0xFF0F00FF, true, false, true, true, fun d _ a b => .mul d a b⟩,
  ⟨"DIVREM", 0x30, 0x30000000, 0xFF0000FF, true, true,  true, true, fun d e a b => .divrem d e a b⟩,
  ⟨"DIV",    0x31, 0x31000000, 0xFF0F00FF, true, false, true, true, fun d _ a b => .div d a b⟩,
  ⟨"REM",    0x32, 0x32000000, 0xFF0F00FF, true, false, true, true, fun d _ a b => .rem d a b⟩,
  ⟨"MOD",    0x33, 0x33000000, 0xFF0F00FF, true, false, true, true, fun d _ a b => .mod d a b⟩]

/-- The Montgomery pipeline's and the modular-exponentiation sequencer's rows of R84. -/
def rowsModular : List OpRow := [
  ⟨"MONTMUL", 0x40, 0x40000000, 0xFF0000FF, true, true, true, true,  fun d e a b => .montmul d a b e⟩,
  ⟨"MONTRED", 0x41, 0x41000000, 0xFF000FFF, true, true, true, false, fun d e a _ => .montred d a e⟩,
  ⟨"MONTIN",  0x42, 0x42000000, 0xFF000FFF, true, true, true, false, fun d e a _ => .montin d a e⟩,
  ⟨"MODPOW",  0x50, 0x50000000, 0xFF0000FF, true, true, true, true,  fun d e a b => .modpow d a b e⟩,
  ⟨"MODINV",  0x51, 0x51000000, 0xFF000FFF, true, true, true, false, fun d e a _ => .modinv d a e⟩]

/-- The opcode map R84: sixteen rows; there are no others. -/
def opRows : List OpRow := rowsAdder ++ rowsMulDiv ++ rowsModular

/-- `(c AND mask) = match` (R84). -/
def OpRow.matches (r : OpRow) (c : Word) : Bool := decide (c &&& r.maskWord = r.matchWord)

/-- The command words of a row (R84): the word matches and, for DIVREM, `D` differs from `E`. -/
def OpRow.accepts (r : OpRow) (c : Word) : Bool :=
  r.matches c && (r.op != 0x30 || slice 23 20 c != slice 19 16 c)

/-- Why a command word is illegal (R85). -/
inductive DecodeError where
  /-- (a) `OP` is not one of the sixteen values. -/
  | unknownOpcode
  /-- (b) the field `Z` is not zero. -/
  | nonzeroZ
  /-- (c) the field `D` is unused and not zero. -/
  | unusedD
  /-- (c) the field `E` is unused and not zero. -/
  | unusedE
  /-- (c) the field `A` is unused and not zero. -/
  | unusedA
  /-- (c) the field `B` is unused and not zero. -/
  | unusedB
  /-- (d) DIVREM with `D = E`. -/
  | sameDestinations
  deriving DecidableEq, Repr

/-- The row of an opcode number (R84). -/
def rowOf? (op : Nat) : Option OpRow := opRows.find? fun r => r.op == op

/-- Reads the fields of `c` under a row (R80, R83), refusing by R85 (b), (c), (d). -/
def OpRow.read (r : OpRow) (c : Word) : Except DecodeError Instr :=
  if slice 7 0 c ≠ 0 then .error .nonzeroZ
  else if r.usesD = false ∧ slice 23 20 c ≠ 0 then .error .unusedD
  else if r.usesE = false ∧ slice 19 16 c ≠ 0 then .error .unusedE
  else if r.usesA = false ∧ slice 15 12 c ≠ 0 then .error .unusedA
  else if r.usesB = false ∧ slice 11 8 c ≠ 0 then .error .unusedB
  else
    let i := r.build (regOf (slice 23 20 c)) (regOf (slice 19 16 c)) (regOf (slice 15 12 c))
      (regOf (slice 11 8 c))
    if i.wf then .ok i else .error .sameDestinations

/-- The decoder: total on every 32-bit word (R85). -/
def decode (c : Word) : Except DecodeError Instr :=
  match rowOf? (slice 31 24 c) with
  | none => .error .unknownOpcode
  | some r => r.read c

/-- The command word of R88: `OP * 2^24 + D * 2^20 + E * 2^16 + A * 2^12 + B * 2^8`. -/
def packWord (op : Nat) (d e a b : RegId) : Word :=
  BitVec.ofNat 32 (op * 2 ^ 24 + d.val * 2 ^ 20 + e.val * 2 ^ 16 + a.val * 2 ^ 12 + b.val * 2 ^ 8)

/-- The encoder (R83, R84, R88): unused fields are zero. -/
def encode : Instr → Word
  | .add d a b => packWord 0x10 d 0 a b
  | .sub d a b => packWord 0x11 d 0 a b
  | .neg d a => packWord 0x12 d 0 a 0
  | .abs d a => packWord 0x13 d 0 a 0
  | .cmpm a b => packWord 0x14 0 0 a b
  | .cmp a b => packWord 0x15 0 0 a b
  | .mul d a b => packWord 0x20 d 0 a b
  | .divrem d e a b => packWord 0x30 d e a b
  | .div d a b => packWord 0x31 d 0 a b
  | .rem d a b => packWord 0x32 d 0 a b
  | .mod d a b => packWord 0x33 d 0 a b
  | .montmul d a b m => packWord 0x40 d m a b
  | .montred d a m => packWord 0x41 d m a 0
  | .montin d a m => packWord 0x42 d m a 0
  | .modpow d a b m => packWord 0x50 d m a b
  | .modinv d a m => packWord 0x51 d m a 0

/-- What the decoder reads from the word whose bits are `w`, bit 0 least significant, the bits from
`nbits` on being 0. A command is one 32-bit word with no byte order (R54, R80; log 15). -/
def decodeTableWord (nbits w : Nat) : Option Instr :=
  if w % 2 ^ nbits < 2 ^ 32 then (decode (BitVec.ofNat 32 (w % 2 ^ nbits))).toOption else none

/-- The assembler name of a register (10_state.md R21). -/
def regName (r : RegId) : String := "x" ++ toString r.val

/-- Used register fields, comma separated (R88). -/
def asmFields (rs : List RegId) : String := String.intercalate ", " (rs.map regName)

/-- A command in the assembler syntax of R88: the mnemonic in capitals, destinations first, then the
sources, the modulus last. -/
def Instr.asm : Instr → String
  | .add d a b => "ADD " ++ asmFields [d, a, b]
  | .sub d a b => "SUB " ++ asmFields [d, a, b]
  | .neg d a => "NEG " ++ asmFields [d, a]
  | .abs d a => "ABS " ++ asmFields [d, a]
  | .cmpm a b => "CMPM " ++ asmFields [a, b]
  | .cmp a b => "CMP " ++ asmFields [a, b]
  | .mul d a b => "MUL " ++ asmFields [d, a, b]
  | .divrem d e a b => "DIVREM " ++ asmFields [d, e, a, b]
  | .div d a b => "DIV " ++ asmFields [d, a, b]
  | .rem d a b => "REM " ++ asmFields [d, a, b]
  | .mod d a b => "MOD " ++ asmFields [d, a, b]
  | .montmul d a b m => "MONTMUL " ++ asmFields [d, a, b, m]
  | .montred d a m => "MONTRED " ++ asmFields [d, a, m]
  | .montin d a m => "MONTIN " ++ asmFields [d, a, m]
  | .modpow d a b m => "MODPOW " ++ asmFields [d, a, b, m]
  | .modinv d a m => "MODINV " ++ asmFields [d, a, m]

end Sys2Proof
end

