-- ==== Sys2Proof/Config.lean ====
section
/-!
DEFINITION. What an implementation fixes (the parameter `MAXW`, 00_scope.md R4) and the free value of
the unspecified words (20_memory.md R56, U2, U3).
-/

namespace Sys2Proof

/-- The implementation's parameters. `MAXW`, the words of storage per operand register, is OPEN in the
spec: an integer from 1 to 2047 (R4, U1). -/
structure Config where
  /-- `MAXW`. -/
  maxw : Nat
  /-- R4: `1 <= MAXW`. -/
  maxw_pos : 1 ≤ maxw
  /-- R4: `MAXW <= 2047`. -/
  maxw_le : maxw ≤ 2047
  deriving DecidableEq, Repr

/-- The configuration of `State.reset`. DESIGN CHOICE (log 1): `MAXW = 8`, the value the spec's own
vectors start from (95_test_vectors.md); the spec leaves the parameter open. -/
def Config.default : Config := ⟨8, by decide, by decide⟩

/-- The unspecified words of R56: the `n`-th draw. No body: nothing can be proved of its value
(log 4). -/
opaque Config.freeWord : Nat → Word

end Sys2Proof
end

