-- ==== Sys2Proof/Machine/State.lean ====
section
/-!
DEFINITION. The architectural state (10_state.md), the port events that change it (20_memory.md R51,
70_reset_and_hazards.md R250) and its reset value (R35).
-/

namespace Sys2Proof.Machine

/-- A sign: -1, 0 or +1 (R7, R20). It is also what a three-way comparison returns (40_addsub.md R103). -/
inductive Sign where
  /-- -1, less. -/
  | neg
  /-- 0, equal. -/
  | zero
  /-- +1, greater. -/
  | pos
  deriving DecidableEq, Repr

/-- A value: a sign and a magnitude, least-significant word first (R6, R7). -/
structure Value where
  /-- The sign. -/
  sign : Sign
  /-- The magnitude's words. -/
  mag : List Word
  deriving DecidableEq, Repr

/-- The word storage `w[0..MAXW-1]` of one operand register (R20): the defined words with their
indexes, strictly rising; an index not listed is undefined (R25; log 6). -/
abbrev Memory := List (Nat × Word)

/-- An operand register: the record of R20. -/
structure OperandReg where
  /-- 1: the register holds a value (R22). -/
  valid : Bool
  /-- The value's sign; meaningful only when `valid`. -/
  sign : Sign
  /-- The words of the canonical magnitude; meaningful only when `valid`. -/
  len : Nat
  /-- The word storage. -/
  w : Memory
  deriving DecidableEq, Repr

/-- The nine faults (60_exceptions.md R220 to R229): what `raise F(info)` latches in `STATUS.ERR`. A
fault of the hardware is a next state of the model, never a stop. -/
inductive FaultCode where
  /-- Code 1: an illegal command word (R221). -/
  | illegal
  /-- Code 2: a source without a value, or a seal over an undefined word (R222). -/
  | absent
  /-- Code 3: a malformed header word in a seal (R223). -/
  | format
  /-- Code 4: DIVREM, DIV or REM by zero (R224). -/
  | divZero
  /-- Code 5: a modulus that is zero or negative (R225). -/
  | modulus
  /-- Code 6: an operand without an inverse (R226). -/
  | noInverse
  /-- Code 7: a result of more than `MAXW` words (R227). -/
  | capacity
  /-- Code 8: an even modulus, or an operand out of range, in a Montgomery command (R228). -/
  | range
  /-- Code 9: an access that selects nothing (R229). -/
  | bus
  deriving DecidableEq, Repr

/-- What arrives at the hardware from outside: the host's two transactions (R51) and the reset input
(R250). -/
inductive PortEvent where
  /-- Reset asserted and released (R250). -/
  | reset
  /-- `MemRead(addr, 4)`. -/
  | read (addr : Addr)
  /-- `MemWrite(addr, 4, data)`. -/
  | write (addr : Addr) (data : Word)
  deriving DecidableEq, Repr

/-- The state of the machine, the configuration it runs with, and the host's side of the port. -/
structure State where
  /-- The parameters of the implementation (R4); no state (R10), and no step changes it (log 1). -/
  cfg : Config
  /-- The operand registers `x[0]` to `x[15]` (R20). -/
  x : Vector OperandReg 16
  /-- `STATUS.ERR` (R27): `none` is 0, no fault latched. -/
  err : Option FaultCode
  /-- `STATUS.CMP` (R27): the last comparison result. -/
  cmp : Sign
  /-- `STATUS.CMPV` (R27): `cmp` holds the result of a comparison made since reset. -/
  cmpv : Bool
  /-- FINFO (R28). -/
  finfo : Word
  /-- The model's own: the host's transactions still to be performed, oldest first (R9, R90; log 2). -/
  port : List PortEvent
  /-- The model's own: the word the last transaction returned to the host, if it was a read
  (R51, R56; log 3). -/
  answer : Option Word
  /-- The model's own: how many unspecified words have been drawn (R56; log 4). -/
  draws : Nat
  deriving DecidableEq, Repr

/-- Why a step stops with a fault. There is no such reason: every command terminates and the hardware
cannot hang (70_reset_and_hazards.md R260), every command word has a defined behaviour (R85, U10), and
a fault of the hardware is latched in STATUS and the machine goes on (R230; log 13). Safe. -/
inductive Fault where
  deriving DecidableEq, Repr

/-- Why a step has no meaning in this model. -/
inductive Refusal where
  /-- A command whose meaning is not written. Raised by no arm of `exec`: every command has its
  meaning (log 13). Safe. -/
  | notModelled (mnemonic : String)
  deriving DecidableEq, Repr

/-- An operand register after reset (R35): no value, every word undefined. `sign` and `len` are
unspecified and not observable there (R35, U5); 0 and 1 are a DESIGN CHOICE (log 5). -/
def OperandReg.reset : OperandReg := { valid := false, sign := .zero, len := 1, w := [] }

/-- The state after reset (R35) of the machine with the configuration `cfg`, with no transaction
pending. -/
def State.resetWith (cfg : Config) : State where
  cfg := cfg
  x := Vector.replicate 16 OperandReg.reset
  err := none
  cmp := .zero
  cmpv := false
  finfo := 0
  port := []
  answer := none
  draws := 0

/-- The machine right after reset (R35), for `MAXW = 8` (log 1). -/
def State.reset : State := State.resetWith Config.default

end Sys2Proof.Machine
end

