-- ==== Sys2Proof/Machine/Ops.lean ====
section
/-!
DEFINITION. The named operations over magnitudes, word storage and registers (00_scope.md R6 to R8,
10_state.md R20 to R26), taking a fault (60_exceptions.md R230) and leaving the faulted state (R235).
-/

namespace Sys2Proof.Machine

/-! ### Magnitudes (R6, R8) -/

/-- `val(m)`: the sum of `m[i] * B^i` (R6). -/
def val : List Word → Nat
  | [] => 0
  | w :: ws => w.toNat + B * val ws

/-- Removes every most-significant zero word, word 0 included. -/
def dropHighZeros : List Word → List Word
  | [] => []
  | w :: ws => if dropHighZeros ws = [] ∧ w = 0 then [] else w :: dropHighZeros ws

/-- `trim(m)`: removes most-significant zero words until the magnitude is canonical; never word 0
(R6). -/
def trim : List Word → List Word
  | [] => []
  | w :: ws => w :: dropHighZeros ws

/-- A magnitude is canonical when it has one word or its top word is not zero; it has at least one
word (R6). -/
def canonical (m : List Word) : Bool :=
  decide (m ≠ []) && (decide (m.length = 1) || decide (m.getLastD 0 ≠ 0))

/-- The low `n` words of `k`, least significant first. -/
def wordsN : Nat → Nat → List Word
  | 0, _ => []
  | n + 1, k => BitVec.ofNat 32 k :: wordsN n (k / B)

/-- The length of the canonical magnitude of `k`. -/
def wordLen (k : Nat) : Nat := k.log2 / 32 + 1

/-- `words(k)`: the canonical magnitude of value `k`; `words(0)` is one zero word (R6). -/
def words (k : Nat) : List Word := wordsN (wordLen k) k

/-- Word `i` of a magnitude as a number, 0 at and above its length (the reading of R101, R102). -/
def digit (m : List Word) (i : Nat) : Nat := (m.getD i 0).toNat

/-- `bitlen(k)` (R8): 0 for 0, else the position of the highest set bit plus 1. -/
def bitlen (k : Nat) : Nat := if k = 0 then 0 else k.log2 + 1

/-- `clz32(w)` for `w != 0` (R8). -/
def clz32 (w : Word) : Nat := 32 - bitlen w.toNat

/-- `shl(m, s, n)` (R8): the low `n` words of `val(m) * 2^s`. -/
def shl (m : List Word) (s n : Nat) : List Word := wordsN n (val m * 2 ^ s)

/-- `shr(m, s)` (R8). -/
def shr (m : List Word) (s : Nat) : List Word := words (val m / 2 ^ s)

/-- Counts trailing zero bits among the low `n` bits. -/
def tzWithin : Nat → Nat → Nat
  | 0, _ => 0
  | n + 1, k => if k % 2 = 1 then 0 else 1 + tzWithin n (k / 2)

/-- `tz(k)` for `k > 0` (R8): the index of the lowest set bit. -/
def tz (k : Nat) : Nat := tzWithin (bitlen k) k

/-! ### Signs and values (R7) -/

/-- The integer of a sign. -/
def Sign.toInt : Sign → Int
  | .neg => -1
  | .zero => 0
  | .pos => 1

/-- `sgn(z)` (R5). -/
def sgn (z : Int) : Sign := if z < 0 then .neg else if z = 0 then .zero else .pos

/-- The other sign. -/
def Sign.flip : Sign → Sign
  | .neg => .pos
  | .zero => .zero
  | .pos => .neg

/-- The product of two signs (90_conflicts.md C1). -/
def Sign.times : Sign → Sign → Sign
  | .zero, _ => .zero
  | .pos, s => s
  | .neg, s => s.flip

/-- `int(v)` (R7). -/
def Value.int (v : Value) : Int := v.sign.toInt * (val v.mag : Int)

/-- `mk(z)` (R7). -/
def mkValue (z : Int) : Value := { sign := sgn z, mag := words z.natAbs }

/-- A pair of a sign and a magnitude is a value (R7): the magnitude is canonical, and the sign is 0
exactly for zero. -/
def Value.wf (v : Value) : Bool :=
  canonical v.mag && (decide (v.sign = .zero) == decide (val v.mag = 0))

/-! ### Word storage (R20, R25) -/

/-- What index `k` holds: a word, or `none` where it is undefined. -/
def Memory.read : Memory → Nat → Option Word
  | [], _ => none
  | (i, v) :: m, k => if i = k then some v else Memory.read m k

/-- Defines the word at index `k`, keeping the canonical form. -/
def Memory.write : Memory → Nat → Word → Memory
  | [], k, v => [(k, v)]
  | (i, u) :: m, k, v =>
    if k < i then (k, v) :: (i, u) :: m
    else if k = i then (k, v) :: m
    else (i, u) :: Memory.write m k v

/-- The storage that holds the given words from index `k` on and is undefined elsewhere. -/
def Memory.ofWords : Nat → List Word → Memory
  | _, [] => []
  | k, v :: ws => (k, v) :: Memory.ofWords (k + 1) ws

/-- The `n` words from index `k` on, if every one of them is defined. -/
def Memory.collect (m : Memory) : Nat → Nat → Option (List Word)
  | _, 0 => some []
  | k, n + 1 =>
    match Memory.read m k, Memory.collect m (k + 1) n with
    | some v, some ws => some (v :: ws)
    | _, _ => none

/-- The canonical form from index `lo` on: indexes strictly rising and below the limit. -/
def Memory.wfFrom (limit : Nat) : Nat → Memory → Bool
  | _, [] => true
  | lo, (i, _) :: m => decide (lo ≤ i) && decide (i < limit) && Memory.wfFrom limit (i + 1) m

/-- The canonical form of a register's storage of `limit` words (log 6). -/
def Memory.wf (limit : Nat) (m : Memory) : Bool := Memory.wfFrom limit 0 m

/-! ### Registers (R20 to R26, R8) -/

/-- `x[i]` (R8). -/
def State.reg (s : State) (i : RegId) : OperandReg := s.x[i.val]

/-- The state with register `i` replaced. -/
def State.setReg (s : State) (i : RegId) (r : OperandReg) : State :=
  { s with x := s.x.set i.val r }

/-- The value a register holds, if any: its sign and its words below `len` (R20, R36). A valid
register with an undefined word below `len`, which no run reaches (R36), is read as holding none
(log 10). -/
def OperandReg.value (r : OperandReg) : Option Value :=
  if r.valid then (Memory.collect r.w 0 r.len).map fun m => { sign := r.sign, mag := m } else none

/-- `rd(i)` (R8): the integer register `i` holds; `none` where R8 raises `Absent`. -/
def State.rd (s : State) (i : RegId) : Option Int := (s.reg i).value.map Value.int

/-- `|z| < B^MAXW`: the integer fits a register (R8, R227). -/
def State.fits (s : State) (z : Int) : Bool := decide (z.natAbs < B ^ s.cfg.maxw)

/-- The register that a command leaves as a destination for the integer `z` (R8, R25): valid, with
`mk(z)`, every word at or above `len` undefined. -/
def OperandReg.ofInt (z : Int) : OperandReg where
  valid := true
  sign := sgn z
  len := wordLen z.natAbs
  w := Memory.ofWords 0 (words z.natAbs)

/-- The write of `x[i] <- mk(z)` for an integer that fits (R8). -/
def State.put (s : State) (i : RegId) (z : Int) : State := s.setReg i (OperandReg.ofInt z)

/-! ### Taking a fault and leaving the faulted state -/

/-- The number of a fault code (R221 to R229). -/
def FaultCode.code : FaultCode → Nat
  | .illegal => 1
  | .absent => 2
  | .format => 3
  | .divZero => 4
  | .modulus => 5
  | .noInverse => 6
  | .capacity => 7
  | .range => 8
  | .bus => 9

/-- `raise F(info)`: fault entry (R230). Only where no fault is latched, `ERR` receives the code and
FINFO the information word; nothing else is written. -/
def State.raise (s : State) (f : FaultCode) (info : Word) : State :=
  match s.err with
  | none => { s with err := some f, finfo := info }
  | some _ => s

/-- Clearing (R235): `ERR <- 0`, `FINFO <- 0`, in the faulted state or not; nothing else changes. -/
def State.clearFault (s : State) : State := { s with err := none, finfo := 0 }

/-- Reset (R250, R35): every piece of architectural state takes its reset value. The host's pending
transactions and the draw counter are the model's own and stay (log 7). -/
def State.resetHardware (s : State) : State :=
  { State.resetWith s.cfg with port := s.port, draws := s.draws }

/-- An unspecified word (R56): the next free draw is the answer, and the counter advances (log 4). -/
def State.answerUnspecified (s : State) : State :=
  { s with answer := some (Config.freeWord s.draws), draws := s.draws + 1 }

/-- The word a read returns. -/
def State.answerWord (s : State) (v : Word) : State := { s with answer := some v }

end Sys2Proof.Machine
end

