-- ==== Sys2Proof/Machine/Flags.lean ====
section
/-!
DEFINITION. The sign code (10_state.md R23), the compare flags (R27, R31) and the words that software
reads: STATUS (R27), CFG (R29) and the header word (20_memory.md R68).
-/

namespace Sys2Proof.Machine

/-- The two-bit code of a sign (R23): 0b00, 0b01, 0b11. -/
def Sign.code : Sign → Nat
  | .zero => 0
  | .pos => 1
  | .neg => 3

/-- The sign of a two-bit code; 0b10 is illegal (R23). -/
def signOfCode (n : Nat) : Option Sign :=
  if n = 0 then some .zero else if n = 1 then some .pos else if n = 3 then some .neg else none

/-- `STATUS.CMP <- code(c)`, `STATUS.CMPV <- 1` (40_addsub.md R109, R110). -/
def State.setCompare (s : State) (c : Sign) : State := { s with cmp := c, cmpv := true }

/-- `STATUS.ERR` as a number (R27). -/
def State.errCode (s : State) : Nat :=
  match s.err with
  | none => 0
  | some f => f.code

/-- STATUS as it reads (R27, R56): `ERR` in bits 3:0, `CMP` in 5:4, `CMPV` in 6, the rest 0. -/
def State.statusWord (s : State) : Word :=
  BitVec.ofNat 32 (s.errCode + 2 ^ 4 * s.cmp.code + 2 ^ 6 * s.cmpv.toNat)

/-- CFG as it reads (R29): `MAXW` in bits 11:0, `NREG = 16` in 20:16, `W = 32` in 31:24. -/
def State.cfgWord (s : State) : Word := BitVec.ofNat 32 (s.cfg.maxw + 2 ^ 16 * 16 + 2 ^ 24 * 32)

/-- The header word of a register as it reads (R68): `SIGN` in bits 1:0, `LEN` in 27:16, `VALID` in
31; zero for a register without a value. -/
def OperandReg.header (r : OperandReg) : Word :=
  if r.valid then BitVec.ofNat 32 (r.sign.code + 2 ^ 16 * r.len + 2 ^ 31) else 0

end Sys2Proof.Machine
end

