-- ==== Sys2Proof/Machine/Operands.lean ====
section
/-!
DEFINITION. Fetching the source operands and finishing a command: the six steps of 30_encoding.md R91,
shared by every command.
-/

namespace Sys2Proof.Machine

/-- What a command writes when none of its checks fails (R91 step 6). -/
inductive Effect where
  /-- `x[D] <- mk(z)`. -/
  | value (d : RegId) (z : Int)
  /-- `x[D] <- mk(q)` and `x[E] <- mk(r)`, both or neither (R64). -/
  | pair (d : RegId) (q : Int) (e : RegId) (r : Int)
  /-- `STATUS.CMP <- code(c)` and `STATUS.CMPV <- 1`. -/
  | compare (c : Sign)
  deriving DecidableEq, Repr

/-- The outcome of R91 steps 2 to 4: what the command is to write, or the fault it raises. -/
abbrev Computed := Except FaultCode Effect

/-- R91 step 2 for a command with the source `A`. -/
def withOne (s : State) (a : RegId) (k : Int → Computed) : Computed :=
  match s.rd a with
  | none => .error .absent
  | some x => k x

/-- R91 step 2 for a command with the two sources `A`, `B` (or `A`, `E`), checked in that order. -/
def withTwo (s : State) (a b : RegId) (k : Int → Int → Computed) : Computed :=
  withOne s a fun x => withOne s b fun y => k x y

/-- R91 step 2 for a command with the three sources `A`, `B`, `E`, checked in that order. -/
def withThree (s : State) (a b m : RegId) (k : Int → Int → Int → Computed) : Computed :=
  withOne s a fun x => withOne s b fun y => withOne s m fun z => k x y z

/-- R91 steps 5 and 6: `Capacity` if a result does not fit, otherwise every destination is written. -/
def State.commit (s : State) : Effect → Except FaultCode State
  | .value d z => if s.fits z then .ok (s.put d z) else .error .capacity
  | .pair d q e r => if s.fits q && s.fits r then .ok ((s.put d q).put e r) else .error .capacity
  | .compare c => .ok (s.setCompare c)

/-- The fault or the next state of R91 steps 2 to 6. -/
def State.attempt (s : State) (k : Computed) : Except FaultCode State :=
  match k with
  | .error f => .error f
  | .ok e => s.commit e

/-- A command from its step 1 on (R91): `Illegal` for a term that is no command (log 12), otherwise
its steps 2 to 6; a fault ends it with no register and no flag written. The information word of a
command's fault is the command word (R231), which `encode` gives back (log 8). -/
def command (i : Instr) (s : State) (k : Computed) : Host.Outcome State Fault Refusal :=
  if i.wf then
    match s.attempt k with
    | .error f => .next (s.raise f (encode i))
    | .ok t => .next t
  else .next (s.raise .illegal (encode i))

end Sys2Proof.Machine
end

