-- ==== Sys2Proof/Machine/AddSub.lean ====
section
/-!
DEFINITION. The adder/subtractor unit (40_addsub.md): the meanings of ADD, SUB, NEG, ABS, CMPM and CMP
by their contracts over the integers, and the unit's reference datapaths (R101 to R104), which the
contracts do not use (00_scope.md R12; log 11).
-/

namespace Sys2Proof.Machine

/-! ### Commands -/

/-- ADD (R105). -/
def execAdd (d a b : RegId) (s : State) : Host.Outcome State Fault Refusal :=
  command (.add d a b) s (withTwo s a b fun x y => .ok (.value d (x + y)))

/-- SUB (R106). -/
def execSub (d a b : RegId) (s : State) : Host.Outcome State Fault Refusal :=
  command (.sub d a b) s (withTwo s a b fun x y => .ok (.value d (x - y)))

/-- NEG (R107). -/
def execNeg (d a : RegId) (s : State) : Host.Outcome State Fault Refusal :=
  command (.neg d a) s (withOne s a fun x => .ok (.value d (-x)))

/-- ABS (R108). -/
def execAbs (d a : RegId) (s : State) : Host.Outcome State Fault Refusal :=
  command (.abs d a) s (withOne s a fun x => .ok (.value d (x.natAbs : Int)))

/-- CMPM (R109): the order of the absolute values. -/
def execCmpm (a b : RegId) (s : State) : Host.Outcome State Fault Refusal :=
  command (.cmpm a b) s (withTwo s a b fun x y =>
    .ok (.compare (sgn ((x.natAbs : Int) - (y.natAbs : Int)))))

/-- CMP (R110): the signed order. -/
def execCmp (a b : RegId) (s : State) : Host.Outcome State Fault Refusal :=
  command (.cmp a b) s (withTwo s a b fun x y => .ok (.compare (sgn (x - y))))

/-! ### Reference datapaths -/

/-- The loop of R101 over `n` word positions from `i` on, with carry `c`. -/
def addLoop (a b : List Word) : Nat → Nat → Nat → List Word
  | 0, _, c => if c = 1 then [1] else []
  | n + 1, i, c =>
    let t := digit a i + digit b i + c
    BitVec.ofNat 32 (t % B) :: addLoop a b n (i + 1) (t / B)

/-- `addmag(a, b)` (R101). -/
def addmag (a b : List Word) : List Word := addLoop a b (max a.length b.length) 0 0

/-- The loop of R102 over `n` word positions from `i` on, with borrow `bw`. -/
def subLoop (a b : List Word) : Nat → Nat → Nat → List Word
  | 0, _, _ => []
  | n + 1, i, bw =>
    let t : Int := (digit a i : Int) - digit b i - bw
    BitVec.ofInt 32 t :: subLoop a b n (i + 1) (if t < 0 then 1 else 0)

/-- `submag(a, b)` for `val(a) >= val(b)` (R102). -/
def submag (a b : List Word) : List Word := trim (subLoop a b a.length 0 0)

/-- The comparison of the words below index `n`, from the most significant down (R103). -/
def cmpLoop (a b : List Word) : Nat → Sign
  | 0 => .zero
  | n + 1 =>
    if digit a n > digit b n then .pos
    else if digit a n < digit b n then .neg
    else cmpLoop a b n

/-- `cmpmag(a, b)` (R103): lengths first, then words from the most significant down. -/
def cmpmag (a b : List Word) : Sign :=
  if a.length > b.length then .pos
  else if a.length < b.length then .neg
  else cmpLoop a b a.length

/-- `add_sm(u, v)` (R104). -/
def addSm (u v : Value) : Value :=
  if u.sign = v.sign then
    if u.sign = .zero then { sign := .zero, mag := [0] }
    else { sign := u.sign, mag := addmag u.mag v.mag }
  else
    match cmpmag u.mag v.mag with
    | .zero => { sign := .zero, mag := [0] }
    | .pos => { sign := u.sign, mag := submag u.mag v.mag }
    | .neg => { sign := v.sign, mag := submag v.mag u.mag }

/-- The subtractor (R106): `add_sm` with the second operand's sign flipped. -/
def subSm (u v : Value) : Value := addSm u { v with sign := v.sign.flip }

/-- The signed comparator of R110: signs first, then the magnitudes, reversed for two negatives. -/
def cmpSm (u v : Value) : Sign :=
  match u.sign, v.sign with
  | .pos, .pos => cmpmag u.mag v.mag
  | .neg, .neg => (cmpmag u.mag v.mag).flip
  | .zero, .zero => .zero
  | .pos, _ => .pos
  | .zero, .neg => .pos
  | .zero, .pos => .neg
  | .neg, _ => .neg

end Sys2Proof.Machine
end

