-- ==== Sys2Proof/Machine/Divide.lean ====
section
/-!
DEFINITION. The long-division engine (42_divide.md): the contracts R140 and R150, the meanings of
DIVREM, DIV, REM and MOD, and the reference datapath R141 to R149 (00_scope.md R12; log 11).
-/

namespace Sys2Proof.Machine

/-! ### Contracts -/

/-- `divrem(a, d)` for `d != 0` (R140): the quotient rounded toward zero, and the remainder, which has
the dividend's sign or is zero. -/
def divrem (a d : Int) : Int × Int := (a.tdiv d, a.tmod d)

/-- `mod(a, m)` for `m > 0` (R150): the truncating remainder, plus `m` if it came out negative. -/
def modulo (a m : Int) : Int :=
  if (divrem a m).2 < 0 then (divrem a m).2 + m else (divrem a m).2

/-! ### Commands -/

/-- DIVREM (R151). -/
def execDivrem (d e a b : RegId) (s : State) : Host.Outcome State Fault Refusal :=
  command (.divrem d e a b) s (withTwo s a b fun x y =>
    if y = 0 then .error .divZero else .ok (.pair d (divrem x y).1 e (divrem x y).2))

/-- DIV (R152). -/
def execDiv (d a b : RegId) (s : State) : Host.Outcome State Fault Refusal :=
  command (.div d a b) s (withTwo s a b fun x y =>
    if y = 0 then .error .divZero else .ok (.value d (divrem x y).1))

/-- REM (R153). -/
def execRem (d a b : RegId) (s : State) : Host.Outcome State Fault Refusal :=
  command (.rem d a b) s (withTwo s a b fun x y =>
    if y = 0 then .error .divZero else .ok (.value d (divrem x y).2))

/-- MOD (R154). A zero modulus raises `Modulus`, not `DivZero`. -/
def execMod (d a b : RegId) (s : State) : Host.Outcome State Fault Refusal :=
  command (.mod d a b) s (withTwo s a b fun x m =>
    if m ≤ 0 then .error .modulus else .ok (.value d (modulo x m)))

/-! ### Reference datapath -/

/-- The loop of R143 over the words below index `n`, from the most significant down, with the running
remainder `rem`; gives the quotient words and the remainder. -/
def divwordLoop (u : List Word) (d : Nat) : Nat → Nat → List Word × Nat
  | 0, rem => ([], rem)
  | n + 1, rem =>
    let num := rem * B + digit u n
    let low := divwordLoop u d n (num % d)
    (low.1 ++ [BitVec.ofNat 32 (num / d)], low.2)

/-- `divword(u, d)` for a word `d != 0` (R143): quotient and remainder magnitudes. -/
def divword (u : List Word) (d : Word) : List Word × List Word :=
  let qr := divwordLoop u d.toNat u.length 0
  (trim qr.1, [BitVec.ofNat 32 qr.2])

/-- The correction loop of R146 on the trial digit `qhat` with `rhat`, where `v1`, `v2` are the
divisor's top two words and `u0` the third word of the window. The body runs at most `n` times; two
suffice for a normalized divisor, because `rhat` then has grown to `B` (R146). -/
def correctDigit (v1 v2 u0 : Nat) : Nat → Nat → Nat → Nat
  | 0, qhat, _ => qhat
  | n + 1, qhat, rhat =>
    if qhat ≥ B ∨ qhat * v2 > rhat * B + u0 then
      if rhat + v1 ≥ B then qhat - 1 else correctDigit v1 v2 u0 n (qhat - 1) (rhat + v1)
    else qhat

/-- The trial digit of R145, corrected by R146, for the window of `un` at `j`. -/
def trialDigit (un vn : List Word) (j : Nat) : Nat :=
  let lv := vn.length
  let num := digit un (j + lv) * B + digit un (j + lv - 1)
  let v1 := digit vn (lv - 1)
  correctDigit v1 (digit vn (lv - 2)) (digit un (j + lv - 2)) 2 (num / v1) (num % v1)

/-- The loop of R147 over `n` word positions from `i` on; gives the running remainder, the carry and
the borrow. -/
def mulSubLoop (qhat : Nat) (vn : List Word) (j : Nat) :
    Nat → Nat → List Word → Nat → Nat → List Word × Nat × Nat
  | 0, _, un, carry, borrow => (un, carry, borrow)
  | n + 1, i, un, carry, borrow =>
    let p := qhat * digit vn i + carry
    let t : Int := (digit un (i + j) : Int) - (p % B : Nat) - borrow
    mulSubLoop qhat vn j n (i + 1) (un.set (i + j) (BitVec.ofInt 32 t)) (p / B)
      (if t < 0 then 1 else 0)

/-- The multiply-and-subtract step R147 on the window at `j`: the running remainder and the borrow. -/
def mulSub (qhat : Nat) (un vn : List Word) (j : Nat) : List Word × Nat :=
  let lv := vn.length
  let r := mulSubLoop qhat vn j lv 0 un 0 0
  let t : Int := (digit r.1 (j + lv) : Int) - r.2.1 - r.2.2
  (r.1.set (j + lv) (BitVec.ofInt 32 t), if t < 0 then 1 else 0)

/-- The loop of R148 over `n` word positions from `i` on; gives the running remainder and the carry. -/
def addBackLoop (vn : List Word) (j : Nat) : Nat → Nat → List Word → Nat → List Word × Nat
  | 0, _, un, c => (un, c)
  | n + 1, i, un, c =>
    let t := digit un (i + j) + digit vn i + c
    addBackLoop vn j n (i + 1) (un.set (i + j) (BitVec.ofNat 32 (t % B))) (t / B)

/-- The add-back of R148 on the window at `j`; the carry out cancels the borrow. -/
def addBack (un vn : List Word) (j : Nat) : List Word :=
  let lv := vn.length
  let r := addBackLoop vn j lv 0 un 0
  r.1.set (j + lv) (BitVec.ofNat 32 ((digit r.1 (j + lv) + r.2) % B))

/-- One quotient digit of Algorithm D (R145 to R148): the running remainder and the digit `q[j]`. -/
def knuthStep (un vn : List Word) (j : Nat) : List Word × Nat :=
  let qhat := trialDigit un vn j
  let ms := mulSub qhat un vn j
  if ms.2 = 1 then (addBack ms.1 vn j, qhat - 1) else (ms.1, qhat)

/-- The digits below `n`, from the most significant down; gives the running remainder and the
quotient words. -/
def knuthLoop (vn : List Word) : Nat → List Word → List Word × List Word
  | 0, un => (un, [])
  | j + 1, un =>
    let st := knuthStep un vn j
    let low := knuthLoop vn j st.1
    (low.1, low.2 ++ [BitVec.ofNat 32 st.2])

/-- Algorithm D (R144 to R149) for a divisor of two words or more, no longer than the dividend. -/
def knuthD (u v : List Word) : List Word × List Word :=
  let lu := u.length
  let lv := v.length
  let s := clz32 (v.getD (lv - 1) 0)
  let vn := shl v s lv
  let un := shl u s (lu + 1)
  let r := knuthLoop vn (lu - lv + 1) un
  (trim r.2, shr (r.1.take lv) s)

/-- `divmag(u, v)` for `val(v) != 0` (R141, R142): quotient and remainder magnitudes. -/
def divmag (u v : List Word) : List Word × List Word :=
  if cmpmag u v = .neg then ([0], u)
  else if v.length = 1 then divword u (v.getD 0 0)
  else knuthD u v

/-- A magnitude with a sign, or zero (R156). -/
def signedMag (c : Sign) (m : List Word) : Value :=
  if m = [0] then { sign := .zero, mag := [0] } else { sign := c, mag := m }

/-- The divider on values (R156): the quotient's sign is the product of the signs, the remainder's is
the dividend's. -/
def divSm (u v : Value) : Value × Value :=
  let qr := divmag u.mag v.mag
  (signedMag (u.sign.times v.sign) qr.1, signedMag u.sign qr.2)

end Sys2Proof.Machine
end

