-- ==== Sys2Proof/Machine/Inverse.lean ====
section
/-!
DEFINITION. The modular inverse (44_modexp.md R190, R192), used by MODINV, by MODPOW with a negative
exponent, and for the constant `Rinv` of 43_montgomery.md R170.
-/

namespace Sys2Proof.Machine

/-- The loop of R192 on `(r0, r1)` and `(t0, t1)`, at most `n` times: gives the last `r0` and `t0`. -/
def euclid : Nat → Int → Int → Int → Int → Int × Int
  | 0, r0, _, t0, _ => (r0, t0)
  | n + 1, r0, r1, t0, t1 =>
    if r1 = 0 then (r0, t0)
    else euclid n r1 (divrem r0 r1).2 t1 (t0 - (divrem r0 r1).1 * t1)

/-- `modinv(a, m)` for `m > 0` (R190, by the algorithm of R192; log 11): the inverse in `[1, m - 1]`,
or `none` where it fails. The loop ends within `m` rounds because `r1` strictly decreases. -/
def modinv (a m : Int) : Option Int :=
  let g := euclid (m.toNat + 1) m (modulo a m) 0 1
  if g.1 ≠ 1 ∨ m = 1 then none else some (modulo g.2 m)

end Sys2Proof.Machine
end

