-- ==== Sys2Proof/Machine/Multiply.lean ====
section
/-!
DEFINITION. The schoolbook multiplier unit (41_multiply.md): the meaning of MUL by its contract, and
the reference datapath R130 (00_scope.md R12; log 11).
-/

namespace Sys2Proof.Machine

/-- MUL (R131). -/
def execMul (d a b : RegId) (s : State) : Host.Outcome State Fault Refusal :=
  command (.mul d a b) s (withTwo s a b fun x y => .ok (.value d (x * y)))

/-! ### Reference datapath -/

/-- The inner loop of R130: `n` word products of the row of `ai` from `j` on, into the accumulator
`p` at `i + j`; gives the accumulator and the carry. -/
def mulRow (ai : Nat) (b : List Word) (i : Nat) : Nat → Nat → List Word → Nat → List Word × Nat
  | 0, _, p, carry => (p, carry)
  | n + 1, j, p, carry =>
    let t := ai * digit b j + digit p (i + j) + carry
    mulRow ai b i n (j + 1) (p.set (i + j) (BitVec.ofNat 32 (t % B))) (t / B)

/-- The outer loop of R130: `n` rows from row `i` on. -/
def mulRows (a b : List Word) : Nat → Nat → List Word → List Word
  | 0, _, p => p
  | n + 1, i, p =>
    let row := mulRow (digit a i) b i b.length 0 p 0
    mulRows a b n (i + 1) (row.1.set (i + b.length) (BitVec.ofNat 32 row.2))

/-- `mulmag(a, b)` (R130). -/
def mulmag (a b : List Word) : List Word :=
  trim (mulRows a b a.length 0 (List.replicate (a.length + b.length) 0))

/-- The multiplier on values (R131): zero if either operand is zero, otherwise the product of the
magnitudes with the product of the signs (90_conflicts.md C1). -/
def mulSm (u v : Value) : Value :=
  if u.sign = .zero ∨ v.sign = .zero then { sign := .zero, mag := [0] }
  else { sign := u.sign.times v.sign, mag := mulmag u.mag v.mag }

end Sys2Proof.Machine
end

