-- ==== Sys2Proof/Machine/Montgomery.lean ====
section
/-!
DEFINITION. The Montgomery modular-reduction pipeline (43_montgomery.md): the contracts R170, R172,
R173, the meanings of MONTMUL, MONTRED and MONTIN, and the reference datapath (00_scope.md R12;
log 11).
-/

namespace Sys2Proof.Machine

/-! ### Contracts -/

/-- The scale `R = B^n` for the canonical word length `n` of the modulus (R170). -/
def montR (m : Int) : Int := (B : Int) ^ wordLen m.natAbs

/-- `Rinv` (R170): the inverse of `R` modulo `m`; 0 for `m = 1`, whose only residue is 0. -/
def montRinv (m : Int) : Int := (modinv (montR m) m).getD 0

/-- `monred(t, m)` by its contract (R172): `mod(t * Rinv, m)`. -/
def monred (t m : Int) : Int := modulo (t * montRinv m) m

/-- `monpro(a, b, m)` (R173). -/
def monpro (a b m : Int) : Int := monred (a * b) m

/-- `m` is even (R174). -/
def isEven (m : Int) : Bool := decide (m % 2 = 0)

/-- The checks common to the three commands (R174), then the command's own. -/
def withOddModulus (m : Int) (k : Computed) : Computed :=
  if m ≤ 0 then .error .modulus else if isEven m then .error .range else k

/-! ### Commands -/

/-- MONTMUL (R175). -/
def execMontmul (d a b m : RegId) (s : State) : Host.Outcome State Fault Refusal :=
  command (.montmul d a b m) s (withThree s a b m fun x y n =>
    withOddModulus n (
      if x < 0 ∨ x ≥ n ∨ y < 0 ∨ y ≥ n then .error .range else .ok (.value d (monpro x y n))))

/-- MONTRED (R176). -/
def execMontred (d a m : RegId) (s : State) : Host.Outcome State Fault Refusal :=
  command (.montred d a m) s (withTwo s a m fun t n =>
    withOddModulus n (
      if t < 0 ∨ t ≥ n * montR n then .error .range else .ok (.value d (monred t n))))

/-- MONTIN (R177). The operand is not range-checked. -/
def execMontin (d a m : RegId) (s : State) : Host.Outcome State Fault Refusal :=
  command (.montin d a m) s (withTwo s a m fun x n =>
    withOddModulus n (.ok (.value d (modulo (x * montR n) n))))

/-! ### Reference datapath -/

/-- `k` Newton steps of R171 on `y`, each modulo `B`. -/
def newtonWord (m0 : Int) : Nat → Int → Int
  | 0, y => y
  | k + 1, y => newtonWord m0 k (modulo (y * (2 - m0 * y)) B)

/-- `neginvword(m0)` for an odd word (R171): the constant `n0'`. -/
def neginvword (m0 : Word) : Word :=
  BitVec.ofInt 32 ((B : Int) - newtonWord m0.toNat 4 m0.toNat)

/-- The inner loop of R172: adds `u * m` into the accumulator at `i`, `n` words from `j` on; gives the
accumulator and the carry. -/
def monredRow (u : Nat) (m : List Word) (i : Nat) : Nat → Nat → List Word → Nat → List Word × Nat
  | 0, _, acc, carry => (acc, carry)
  | n + 1, j, acc, carry =>
    let t := u * digit m j + digit acc (i + j) + carry
    monredRow u m i n (j + 1) (acc.set (i + j) (BitVec.ofNat 32 (t % B))) (t / B)

/-- The carry ripple of R172 from word `k` on, over at most `n` words. -/
def rippleCarry : Nat → Nat → List Word → Nat → List Word
  | 0, _, acc, _ => acc
  | n + 1, k, acc, carry =>
    if carry = 0 then acc
    else
      let t := digit acc k + carry
      rippleCarry n (k + 1) (acc.set k (BitVec.ofNat 32 (t % B))) (t / B)

/-- The passes of R172, `k` of them from pass `i` on. The ripple never goes past the accumulator's
last word, so the words that are left bound it. -/
def monredPasses (m : List Word) (n0 : Word) : Nat → Nat → List Word → List Word
  | 0, _, acc => acc
  | k + 1, i, acc =>
    let u := digit acc i * n0.toNat % B
    let row := monredRow u m i m.length 0 acc 0
    monredPasses m n0 k (i + 1)
      (rippleCarry (acc.length - (i + m.length)) (i + m.length) row.1 row.2)

/-- The word-serial Montgomery reduction R172 of `t` by the odd magnitude `m`. -/
def monredWords (t : Nat) (m : List Word) : Nat :=
  let n := m.length
  let acc := monredPasses m (neginvword (m.getD 0 0)) n 0 (wordsN (2 * n + 1) t)
  let r := val (acc.drop n)
  if r ≥ val m then r - val m else r

/-- The Montgomery product of R173 on the word-serial reduction: the product by `mulmag`, then the
reduction. -/
def monproWords (a b m : Nat) : Nat := monredWords (val (mulmag (words a) (words b))) (words m)

end Sys2Proof.Machine
end

