-- ==== Sys2Proof/Machine/ModExp.lean ====
section
/-!
DEFINITION. The modular-exponentiation unit (44_modexp.md): the contract R193, the meanings of MODPOW
and MODINV, and the reference sequencer R195 to R200 (00_scope.md R12; log 11).
-/

namespace Sys2Proof.Machine

/-! ### Contract -/

/-- Left-to-right square-and-multiply over the low `n` bits of `e`, most significant first (R196,
R198): squares, and multiplies where the bit is 1. -/
def expLoop {α : Type} (square multiply : α → α) (e : Nat) : Nat → α → α
  | 0, acc => acc
  | n + 1, acc =>
    let acc2 := square acc
    expLoop square multiply e n (if e.testBit n then multiply acc2 else acc2)

/-- `b^e` modulo `m` on natural numbers, by square-and-multiply. -/
def powMod (b e m : Nat) : Nat :=
  expLoop (fun acc => acc * acc % m) (fun acc => acc * b % m) e (bitlen e) (1 % m)

/-- `modpow(base, e, m)` for `m > 0` (R193), evaluated by square-and-multiply on the reduced base
(R201; log 11); `none` where a negative exponent's base has no inverse. -/
def modpow (base e m : Int) : Option Int :=
  if e < 0 then
    (modinv base m).map fun x => (powMod x.toNat e.natAbs m.toNat : Int)
  else some (powMod (modulo base m).toNat e.natAbs m.toNat : Int)

/-! ### Commands -/

/-- MODPOW (R194). -/
def execModpow (d a b m : RegId) (s : State) : Host.Outcome State Fault Refusal :=
  command (.modpow d a b m) s (withThree s a b m fun base e n =>
    if n ≤ 0 then .error .modulus
    else
      match modpow base e n with
      | none => .error .noInverse
      | some z => .ok (.value d z))

/-- MODINV (R191). -/
def execModinv (d a m : RegId) (s : State) : Host.Outcome State Fault Refusal :=
  command (.modinv d a m) s (withTwo s a m fun x n =>
    if n ≤ 0 then .error .modulus
    else
      match modinv x n with
      | none => .error .noInverse
      | some z => .ok (.value d z))

/-! ### Reference sequencer -/

/-- `oddpow(b, e, q)` for odd `q > 0`, `b < q` (R196): square-and-multiply in the Montgomery domain. -/
def oddpow (b e q : Nat) : Nat :=
  let scale := B ^ wordLen q
  let form := b * scale % q
  let acc := expLoop (fun acc => monproWords acc acc q) (fun acc => monproWords acc form q) e
    (bitlen e) (scale % q)
  monredWords acc (words q)

/-- `pow2pow(b, e, k)` (R198): square-and-multiply keeping the low `k` bits. -/
def pow2pow (b e k : Nat) : Nat :=
  expLoop (fun acc => acc * acc % 2 ^ k) (fun acc => acc * (b % 2 ^ k) % 2 ^ k) e (bitlen e) 1

/-- The lifting loop of R199, at most `n` times: `y` has `bits` correct low bits. -/
def pow2invLoop (q : Int) (k : Nat) : Nat → Nat → Int → Int
  | 0, _, y => y
  | n + 1, bits, y =>
    if bits < k then
      pow2invLoop q k n (2 * bits) (modulo (y * (2 - q * y)) ((2 : Int) ^ min (2 * bits) k))
    else y

/-- `pow2inv(q, k)` for odd `q` and `k >= 1` (R199). The loop doubles `bits` and ends within `k`
rounds. -/
def pow2inv (q k : Nat) : Int := modulo (pow2invLoop q k k 1 1) ((2 : Int) ^ k)

/-- The recombination of R200. -/
def crtJoin (x1 x2 q k : Nat) : Nat :=
  x1 + q * (modulo (((x2 : Int) - x1) * pow2inv q k) ((2 : Int) ^ k)).toNat

/-- The phases REDUCE to CRT of the sequencer (R195) on a non-negative exponent. -/
def sequencerPower (base : Int) (e m : Nat) : Nat :=
  let b1 := (modulo base m).toNat
  let k := if m % 2 = 1 then 0 else tz m
  let q := m / 2 ^ k
  let x1 := oddpow (b1 % q) e q
  if k = 0 then x1 else crtJoin x1 (pow2pow b1 e k) q k

/-- The sequencer of R195: CHECK, then INVERT for a negative exponent, then the power. -/
def sequencer (base e m : Int) : Except FaultCode Int :=
  if m ≤ 0 then .error .modulus
  else if e < 0 then
    match modinv base m with
    | none => .error .noInverse
    | some x => .ok (sequencerPower x e.natAbs m.toNat : Int)
  else .ok (sequencerPower base e.natAbs m.toNat : Int)

end Sys2Proof.Machine
end

