-- ==== Sys2Proof/Machine/Dispatch.lean ====
section
/-!
DEFINITION. The dispatch of a decoded command to its meaning (30_encoding.md R84), one arm per
constructor. Reached from the CMD write (20_memory.md R60), which happens outside the faulted state
only (R57; log 9).
-/

namespace Sys2Proof.Machine

/-- Executes one decoded command (30_encoding.md R91). -/
def exec (i : Instr) (s : State) : Host.Outcome State Fault Refusal :=
  match i with
  | .add d a b => Sys2Proof.Machine.execAdd d a b s
  | .sub d a b => Sys2Proof.Machine.execSub d a b s
  | .neg d a => Sys2Proof.Machine.execNeg d a s
  | .abs d a => Sys2Proof.Machine.execAbs d a s
  | .cmpm a b => Sys2Proof.Machine.execCmpm a b s
  | .cmp a b => Sys2Proof.Machine.execCmp a b s
  | .mul d a b => Sys2Proof.Machine.execMul d a b s
  | .divrem d e a b => Sys2Proof.Machine.execDivrem d e a b s
  | .div d a b => Sys2Proof.Machine.execDiv d a b s
  | .rem d a b => Sys2Proof.Machine.execRem d a b s
  | .mod d a b => Sys2Proof.Machine.execMod d a b s
  | .montmul d a b m => Sys2Proof.Machine.execMontmul d a b m s
  | .montred d a m => Sys2Proof.Machine.execMontred d a m s
  | .montin d a m => Sys2Proof.Machine.execMontin d a m s
  | .modpow d a b m => Sys2Proof.Machine.execModpow d a b m s
  | .modinv d a m => Sys2Proof.Machine.execModinv d a m s

end Sys2Proof.Machine
end

