-- ==== Sys2Proof/Machine/Port.lean ====
section
/-!
DEFINITION. The host port (20_memory.md): the address map, word reads, word writes (staging, sealing,
clearing, issuing a command), the reset input (70_reset_and_hazards.md R250), and the host listing
macros (30_encoding.md R90).
-/

namespace Sys2Proof.Machine

/-- What a host address selects (R52, R53). -/
inductive Target where
  /-- `0x0000`, write-only (R60). -/
  | cmd
  /-- `0x0001` (R27). -/
  | status
  /-- `0x0002`, read-only (R28). -/
  | finfo
  /-- `0x0003`, read-only (R29). -/
  | cfg
  /-- `HDR(r)` (R68, R59). -/
  | hdr (r : RegId)
  /-- `WORD(r, k)` (R58). -/
  | word (r : RegId) (k : Nat)
  /-- Selects nothing (R61). -/
  | unmapped
  deriving DecidableEq, Repr

/-- The address map (R52, R53) of a machine with `MAXW = maxw`. -/
def targetOf (maxw : Nat) (a : Addr) : Target :=
  if slice 15 15 a = 1 then
    if slice 10 0 a = 0 then .hdr (regOf (slice 14 11 a))
    else if slice 10 0 a ≤ maxw then .word (regOf (slice 14 11 a)) (slice 10 0 a - 1)
    else .unmapped
  else if a = 0x0000 then .cmd
  else if a = 0x0001 then .status
  else if a = 0x0002 then .finfo
  else if a = 0x0003 then .cfg
  else .unmapped

/-- The information word of a fault raised by a host access: the address, zero-extended (R231). -/
def addrInfo (a : Addr) : Word := a.setWidth 32

/-! ### Reads (R56) -/

/-- The word at index `k` of a register as a read of `WORD(r, k)` returns it (R56); `none` where it
returns an unspecified value. -/
def OperandReg.wordRead (r : OperandReg) (k : Nat) : Option Word :=
  if r.valid then (if k < r.len then Memory.read r.w k else some 0) else Memory.read r.w k

/-- `MemRead(addr, 4)` (R56): the answer, and `Bus` where the address selects nothing readable. -/
def hostRead (a : Addr) (s : State) : State :=
  match targetOf s.cfg.maxw a with
  | .cmd => (s.raise .bus (addrInfo a)).answerUnspecified
  | .status => s.answerWord s.statusWord
  | .finfo => s.answerWord s.finfo
  | .cfg => s.answerWord s.cfgWord
  | .hdr r => s.answerWord (s.reg r).header
  | .word r k =>
    match (s.reg r).wordRead k with
    | some v => s.answerWord v
    | none => s.answerUnspecified
  | .unmapped => (s.raise .bus (addrInfo a)).answerUnspecified

/-! ### Writes (R57) -/

/-- Staging a word (R58): the word is defined, the register stops holding a value, nothing else
changes. -/
def State.stage (s : State) (r : RegId) (k : Nat) (data : Word) : State :=
  s.setReg r { s.reg r with valid := false, w := Memory.write (s.reg r).w k data }

/-- The checks and the effect of a seal on one register, in the order of R59. -/
def OperandReg.sealed (maxw : Nat) (r : OperandReg) (data : Word) : Except FaultCode OperandReg :=
  if slice 15 2 data ≠ 0 ∨ slice 30 28 data ≠ 0 then .error .format
  else
    match signOfCode (slice 1 0 data) with
    | none => .error .format
    | some c =>
      if slice 27 16 data = 0 ∨ slice 27 16 data > maxw then .error .format
      else
        match Memory.collect r.w 0 (slice 27 16 data) with
        | none => .error .absent
        | some m =>
          if val (trim m) = 0 ∧ c ≠ .zero then .error .format
          else if val (trim m) ≠ 0 ∧ c = .zero then .error .format
          else .ok { r with valid := true, sign := c, len := (trim m).length }

/-- Seal (R59): `MemWrite(HDR(r), 4, data)` at the address `a`. -/
def State.sealReg (s : State) (r : RegId) (a : Addr) (data : Word) : State :=
  match (s.reg r).sealed s.cfg.maxw data with
  | .error f => s.raise f (addrInfo a)
  | .ok x => s.setReg r x

/-- Executes a command word (R60, 30_encoding.md R91): `Illegal` where it does not decode (R85). -/
def executeWord (c : Word) (s : State) : Host.Outcome State Fault Refusal :=
  match decode c with
  | .error _ => .next (s.raise .illegal c)
  | .ok i => exec i s

/-- The write that leaves the faulted state: to STATUS, with `ECLR` set (R27, R235). -/
def isClear (a : Addr) (data : Word) : Bool := decide (a = 0x0001) && decide (slice 31 31 data = 1)

/-- `MemWrite(addr, 4, data)` (R57). -/
def hostWrite (a : Addr) (data : Word) (s : State) : Host.Outcome State Fault Refusal :=
  if s.err.isSome && !isClear a data then .next s
  else
    match targetOf s.cfg.maxw a with
    | .cmd => executeWord data s
    | .status => if isClear a data then .next s.clearFault else .next s
    | .finfo => .next (s.raise .bus (addrInfo a))
    | .cfg => .next (s.raise .bus (addrInfo a))
    | .hdr r => .next (s.sealReg r a data)
    | .word r k => .next (s.stage r k data)
    | .unmapped => .next (s.raise .bus (addrInfo a))

/-! ### Events -/

/-- The host's next event is taken from the list of pending ones; no word has been answered yet. -/
def State.accept (s : State) (rest : List PortEvent) : State := { s with port := rest, answer := none }

/-- Performs one event on the port (R51, R250). -/
def perform (t : PortEvent) (s : State) : Host.Outcome State Fault Refusal :=
  match t with
  | .reset => .next s.resetHardware
  | .read a => .next (hostRead a s)
  | .write a data => hostWrite a data s

/-! ### Host listing notation (R90) -/

/-- The address of `HDR(r)` (R53). -/
def hdrAddr (r : RegId) : Addr := BitVec.ofNat 16 (0x8000 + 0x800 * r.val)

/-- The address of `WORD(r, k)` (R53). -/
def wordAddr (r : RegId) (k : Nat) : Addr := BitVec.ofNat 16 (0x8000 + 0x800 * r.val + 1 + k)

/-- A command line: `wr 0x0000, <its command word>`. -/
def issue (i : Instr) : PortEvent := .write 0x0000 (encode i)

/-- The word writes of LOAD: the words `ws` to `WORD(r, k)`, `WORD(r, k + 1)`, and so on. -/
def loadWords (r : RegId) : Nat → List Word → List PortEvent
  | _, [] => []
  | k, v :: ws => .write (wordAddr r k) v :: loadWords r (k + 1) ws

/-- `LOAD xr, z` (R90): the words of `|z|`, then the seal. -/
def load (r : RegId) (z : Int) : List PortEvent :=
  loadWords r 0 (words z.natAbs) ++
    [.write (hdrAddr r) (BitVec.ofNat 32 (wordLen z.natAbs * 2 ^ 16 + (sgn z).code))]

end Sys2Proof.Machine
end

