-- ==== Sys2Proof/Machine/Step.lean ====
section
/-!
DEFINITION. One step: the machine performs the host's next event (00_scope.md R9, 20_memory.md R62).
-/

namespace Sys2Proof.Machine

/-- One step. The first pending event is performed; with none pending the machine is idle, which is
no state that anything can observe (60_exceptions.md R240), and nothing changes (log 2). -/
def step (s : State) : Host.Outcome State Fault Refusal :=
  match s.port with
  | [] => .next s
  | t :: rest => perform t (s.accept rest)

/-- `s` with the command whose bits are `w` as the host's very next transaction, a CMD write (R60).
The hardware fetches nothing (R65); in the faulted state a CMD write executes nothing (R234), so the
fault is acknowledged as well, as the clearing write does (R235; log 9). -/
def State.withFetchWord (s : State) (nbits w : Nat) : State :=
  { s with
    err := none
    finfo := if s.err.isSome then 0 else s.finfo
    port := .write 0x0000 (BitVec.ofNat 32 (w % 2 ^ nbits)) :: s.port }

end Sys2Proof.Machine
end

