-- ==== Sys2Proof/Safety.lean ====
section
/-!
DEFINITION. The terms in which claims about the machine are stated: the invariant of every run
(10_state.md R36 and the ranges of R20, R27, R28), what a command does when it completes and when it
faults (30_encoding.md R91, 60_exceptions.md R230, R233), and what counts as a run gone wrong
(70_reset_and_hazards.md R260).
-/

namespace Sys2Proof.Machine

/-! ### The invariant -/

/-- What is true of an operand register at all times: its storage has the canonical form, `len` is in
its range (R20), and if it is valid it holds a value, canonical and with the right sign (R36). -/
abbrev OperandReg.Wf (maxw : Nat) (r : OperandReg) : Prop :=
  Memory.wf maxw r.w = true ∧ 1 ≤ r.len ∧ r.len ≤ maxw ∧
    (r.valid = true → r.value.any Value.wf = true)

/-- What is true of the state at all times: every register is well formed; FINFO is 0 when no fault is
latched (R28); the comparison code is 0 before the first comparison (R27, R35). -/
abbrev State.Inv (s : State) : Prop :=
  (∀ i : RegId, (s.reg i).Wf s.cfg.maxw) ∧ (s.err = none → s.finfo = 0) ∧
    (s.cmpv = false → s.cmp = .zero)

/-- What FINFO says about the latched fault (R231): for a fault only commands raise, a word that
decodes; for `Illegal`, a word that does not; for a fault only other accesses raise, a 16-bit address;
for `Absent`, one or the other. -/
abbrev State.FinfoInv (s : State) : Prop :=
  match s.err with
  | none => s.finfo = 0
  | some .illegal => (decode s.finfo).toOption = none
  | some .absent => (decode s.finfo).toOption ≠ none ∨ s.finfo.toNat < 2 ^ 16
  | some .format => s.finfo.toNat < 2 ^ 16
  | some .bus => s.finfo.toNat < 2 ^ 16
  | some .divZero => (decode s.finfo).toOption ≠ none
  | some .modulus => (decode s.finfo).toOption ≠ none
  | some .noInverse => (decode s.finfo).toOption ≠ none
  | some .capacity => (decode s.finfo).toOption ≠ none
  | some .range => (decode s.finfo).toOption ≠ none

/-! ### What a command does -/

/-- Register `d` holds the integer `z` as a destination write leaves it (R8, R25): valid, with the
sign and the canonical words of `z`, every word at or above `len` undefined; and it reads as `z`. -/
def Holds (t : State) (d : RegId) (z : Int) : Prop :=
  (t.reg d).valid = true ∧ (t.reg d).sign = sgn z ∧ (t.reg d).len = (words z.natAbs).length ∧
    (∀ k, Memory.read (t.reg d).w k = (words z.natAbs)[k]?) ∧ t.rd d = some z

/-- `t` differs from `s` in the registers `ds` at most: every other register with all of its words,
ERR, CMP, CMPV, FINFO, the configuration and the host's side of the port are the same. -/
def SameExceptRegs (ds : List RegId) (s t : State) : Prop :=
  (∀ r, r ∉ ds → t.reg r = s.reg r) ∧ t.err = s.err ∧ t.cmp = s.cmp ∧ t.cmpv = s.cmpv ∧
    t.finfo = s.finfo ∧ t.cfg = s.cfg ∧ t.port = s.port ∧ t.answer = s.answer ∧ t.draws = s.draws

/-- The command `i` completes in `s`: its next state holds the given integers in the given registers
and is otherwise `s`. -/
def Completes (i : Instr) (s : State) (res : List (RegId × Int)) : Prop :=
  ∃ t, exec i s = .next t ∧ (∀ p ∈ res, Holds t p.1 p.2) ∧ SameExceptRegs (res.map Prod.fst) s t

/-- The command `i` faults in `s` with the code `f` (R230, R231): the next state is `s` with ERR and
FINFO written, FINFO with the command word. -/
def FaultsWith (i : Instr) (s : State) (f : FaultCode) : Prop :=
  exec i s = .next { s with err := some f, finfo := encode i }

/-- `z` is the residue of `x` modulo `m` (R150): in `[0, m)`, and `m` divides the difference. -/
def IsResidue (z x m : Int) : Prop := 0 ≤ z ∧ z < m ∧ m ∣ x - z

/-- `(q, r)` is the truncating quotient and remainder of `x` by `d` (R140). -/
def IsDivRem (q r x d : Int) : Prop :=
  x = q * d + r ∧ r.natAbs < d.natAbs ∧ (r = 0 ∨ sgn r = sgn x)

/-- `z` is the inverse of `x` modulo `m` (R190). -/
def IsInverse (z x m : Int) : Prop := 1 ≤ z ∧ z ≤ m - 1 ∧ m ∣ x * z - 1

/-! ### The host port -/

/-- The addresses that select nothing (R61): `0x0004` to `0x7FFF`, and window addresses whose offset
is above `MAXW`. -/
def IsUnmapped (maxw : Nat) (a : Addr) : Prop :=
  (0x0004 ≤ a.toNat ∧ a.toNat ≤ 0x7FFF) ∨ (0x8000 ≤ a.toNat ∧ maxw < a.toNat % 0x800)

/-! ### Runs -/

/-- Two registers that no access and no command tells apart: they agree but for `sign` and `len` of a
register without a value (R35, U5). -/
def OperandReg.Alike (r q : OperandReg) : Prop :=
  r.valid = q.valid ∧ r.w = q.w ∧ (r.valid = true → r.sign = q.sign ∧ r.len = q.len)

/-- Two states that agree but for `sign` and `len` of registers without a value (R35, U5). -/
def State.Alike (s t : State) : Prop :=
  (∀ i : RegId, (s.reg i).Alike (t.reg i)) ∧ s.cfg = t.cfg ∧ s.err = t.err ∧ s.cmp = t.cmp ∧
    s.cmpv = t.cmpv ∧ s.finfo = t.finfo ∧ s.port = t.port ∧ s.answer = t.answer ∧ s.draws = t.draws

/-- A run of `k` transactions from `s` has not gone wrong at its end (R260): no fault is latched. -/
def RunEndsWell (k : Nat) (s : State) : Prop :=
  ∃ t, Host.Core.run core k s = .next t ∧ t.err = none

end Sys2Proof.Machine
end

