-- ==== Sys2Proof/Certificates/Slice0/Obligations.lean ====
section
/-!
DEFINITION. The statements for the provers. `Completes`, `FaultsWith`, `Holds`, `SameExceptRegs` and the
other terms they use are in `Sys2Proof/Safety.lean`.
-/

open Sys2Proof Sys2Proof.Machine

/-! ### Encoding -/

/-- Decoding the word of a legal command gives the command back: no field is dropped (R80, R83, R84,
R88). -/
def Obligations.DecodeOfEncode : Prop :=
  ∀ i : Instr, i.wf = true → decode (encode i) = .ok i

/-- A word that decodes is the word of exactly the command it decodes to, and that command is legal
(R85: no word has two readings). -/
def Obligations.EncodeOfDecode : Prop :=
  ∀ (c : Word) (i : Instr), decode c = .ok i → i.wf = true ∧ encode i = c

/-- R85: a word is legal exactly when its opcode is one of the sixteen, `Z` and the unused fields are
zero, and DIVREM's destinations differ; equivalently when it matches exactly one row of R84. R85, R221
(R60, R91 step 1): a CMD write of an illegal word outside the faulted state raises `Illegal` with that
word and does nothing else; the last clause says it of the step. -/
def Obligations.IllegalEncodings : Prop :=
  ∀ c : Word,
    ((∃ i, decode c = .ok i) ↔ ∃ r ∈ opRows, r.op = slice 31 24 c ∧ slice 7 0 c = 0 ∧
      (r.usesD = false → slice 23 20 c = 0) ∧ (r.usesE = false → slice 19 16 c = 0) ∧
      (r.usesA = false → slice 15 12 c = 0) ∧ (r.usesB = false → slice 11 8 c = 0) ∧
      (r.op = 0x30 → slice 23 20 c ≠ slice 19 16 c)) ∧
    ((∃ i, decode c = .ok i) ↔ (opRows.filter fun r => r.accepts c).length = 1) ∧
    ((¬ ∃ i, decode c = .ok i) → ∀ s : State, s.err = none →
      executeWord c s = .next { s with err := some .illegal, finfo := c }) ∧
    ((¬ ∃ i, decode c = .ok i) → ∀ (s : State) (rest : List PortEvent), s.err = none →
      s.port = .write 0x0000 c :: rest →
      step s =
        .next { s with err := some .illegal, finfo := c, port := rest, answer := none })

/-- Words written out from the encodings of the spec (R84, R88, and the command words of
95_test_vectors.md) decode to the commands they stand for; some words next to them are illegal. -/
def Obligations.SampleWordsDecode : Prop :=
  decode 0x10200100 = .ok (.add 2 0 1) ∧ decode 0x12201000 = .ok (.neg 2 1) ∧
    decode 0x14000100 = .ok (.cmpm 0 1) ∧ decode 0x20404200 = .ok (.mul 4 4 2) ∧
    decode 0x30230100 = .ok (.divrem 2 3 0 1) ∧ decode 0x33200100 = .ok (.mod 2 0 1) ∧
    decode 0x40230100 = .ok (.montmul 2 0 1 3) ∧ decode 0x41624000 = .ok (.montred 6 4 2) ∧
    decode 0x50320100 = .ok (.modpow 3 0 1 2) ∧ decode 0x51320000 = .ok (.modinv 3 0 2) ∧
    decode 0x00000000 = .error .unknownOpcode ∧ decode 0x10200101 = .error .nonzeroZ ∧
    decode 0x30220100 = .error .sameDestinations

/-! ### Issuing a command -/

/-- A step whose transaction is a CMD write, outside the faulted state, runs the command its data
decodes to, in the state with that transaction taken from the host's list (R60, R91). -/
def Obligations.StepRunsTheDecodedCommand : Prop :=
  ∀ (s : State) (c : Word) (i : Instr) (rest : List PortEvent), s.err = none →
    s.port = .write 0x0000 c :: rest → decode c = .ok i →
    step s = exec i { s with port := rest, answer := none }

/-- `withFetchWord` makes a legal command the host's very next transaction: the next step runs it. The
model's own convention (log 9); R60, R91. -/
def Obligations.FetchWordRunsTheCommand : Prop :=
  ∀ (s : State) (i : Instr), s.Inv → i.wf = true →
    step (s.withFetchWord 32 (encode i).toNat) =
      exec i { s with err := none, finfo := 0, answer := none }

/-- R222 (a), R22: a command one of whose source registers holds no value raises `Absent` and changes
nothing else, whatever its other operands are. -/
def Obligations.AbsentSourceFaults : Prop :=
  ∀ (s : State) (i : Instr) (r : RegId), s.err = none → i.wf = true → r ∈ i.sources →
    (s.reg r).valid = false → FaultsWith i s .absent

/-! ### The adder/subtractor -/

/-- R105: ADD writes the exact sum, or raises `Capacity` when it does not fit. -/
def Obligations.AddWritesTheSum : Prop :=
  ∀ (s : State) (d a b : RegId) (x y : Int), s.err = none → s.rd a = some x → s.rd b = some y →
    slice 31 24 (encode (.add d a b)) = 0x10 ∧
    ((x + y).natAbs < B ^ s.cfg.maxw → Completes (.add d a b) s [(d, x + y)]) ∧
    (B ^ s.cfg.maxw ≤ (x + y).natAbs → FaultsWith (.add d a b) s .capacity)

/-- R106: SUB writes the exact difference, or raises `Capacity` when it does not fit. -/
def Obligations.SubWritesTheDifference : Prop :=
  ∀ (s : State) (d a b : RegId) (x y : Int), s.err = none → s.rd a = some x → s.rd b = some y →
    slice 31 24 (encode (.sub d a b)) = 0x11 ∧
    ((x - y).natAbs < B ^ s.cfg.maxw → Completes (.sub d a b) s [(d, x - y)]) ∧
    (B ^ s.cfg.maxw ≤ (x - y).natAbs → FaultsWith (.sub d a b) s .capacity)

/-- R107, R108: NEG writes the negated value and ABS the absolute value; neither can fault on a
register that holds a value. -/
def Obligations.NegAndAbsKeepTheMagnitude : Prop :=
  ∀ (s : State) (d a : RegId) (x : Int), s.Inv → s.rd a = some x →
    slice 31 24 (encode (.neg d a)) = 0x12 ∧ slice 31 24 (encode (.abs d a)) = 0x13 ∧
    Completes (.neg d a) s [(d, -x)] ∧ Completes (.abs d a) s [(d, |x|)]

/-- R109: CMPM sets the flags to the order of the absolute values and changes nothing else. -/
def Obligations.CmpmOrdersMagnitudes : Prop :=
  ∀ (s : State) (a b : RegId) (x y : Int), s.rd a = some x → s.rd b = some y →
    slice 31 24 (encode (.cmpm a b)) = 0x14 ∧
    (|x| < |y| → exec (.cmpm a b) s = .next { s with cmp := .neg, cmpv := true }) ∧
    (|x| = |y| → exec (.cmpm a b) s = .next { s with cmp := .zero, cmpv := true }) ∧
    (|y| < |x| → exec (.cmpm a b) s = .next { s with cmp := .pos, cmpv := true })

/-- R110: CMP sets the flags to the signed order and changes nothing else. -/
def Obligations.CmpOrdersValues : Prop :=
  ∀ (s : State) (a b : RegId) (x y : Int), s.rd a = some x → s.rd b = some y →
    slice 31 24 (encode (.cmp a b)) = 0x15 ∧
    (x < y → exec (.cmp a b) s = .next { s with cmp := .neg, cmpv := true }) ∧
    (x = y → exec (.cmp a b) s = .next { s with cmp := .zero, cmpv := true }) ∧
    (y < x → exec (.cmp a b) s = .next { s with cmp := .pos, cmpv := true })

/-! ### The multiplier -/

/-- R131: MUL writes the exact product, or raises `Capacity` when it does not fit. -/
def Obligations.MulWritesTheProduct : Prop :=
  ∀ (s : State) (d a b : RegId) (x y : Int), s.err = none → s.rd a = some x → s.rd b = some y →
    slice 31 24 (encode (.mul d a b)) = 0x20 ∧
    ((x * y).natAbs < B ^ s.cfg.maxw → Completes (.mul d a b) s [(d, x * y)]) ∧
    (B ^ s.cfg.maxw ≤ (x * y).natAbs → FaultsWith (.mul d a b) s .capacity)

/-! ### The divider -/

/-- R140: for a nonzero divisor there is exactly one truncating quotient and remainder, and the closed
form is the floor quotient and remainder of the absolute values with their signs. -/
def Obligations.TruncatingDivisionIsUnique : Prop :=
  ∀ x d : Int, d ≠ 0 →
    IsDivRem (divrem x d).1 (divrem x d).2 x d ∧
    (∀ q r, IsDivRem q r x d → q = (divrem x d).1 ∧ r = (divrem x d).2) ∧
    (divrem x d).1 = (sgn x).toInt * (sgn d).toInt * ((x.natAbs / d.natAbs : Nat) : Int) ∧
    (divrem x d).2 = (sgn x).toInt * ((x.natAbs % d.natAbs : Nat) : Int)

/-- R150: for a positive modulus there is exactly one residue, and it is the truncating remainder, or
the modulus added to it where it is negative. -/
def Obligations.ResidueIsUnique : Prop :=
  ∀ x m : Int, 0 < m →
    IsResidue (modulo x m) x m ∧ (∀ z, IsResidue z x m → z = modulo x m) ∧
    ∀ q r, IsDivRem q r x m → modulo x m = if r < 0 then r + m else r

/-- R151: DIVREM writes the truncating quotient and remainder, both; `DivZero` for a zero divisor. -/
def Obligations.DivremWritesBoth : Prop :=
  ∀ (s : State) (d e a b : RegId) (x y : Int), s.Inv → s.err = none → d ≠ e → s.rd a = some x →
    s.rd b = some y →
    slice 31 24 (encode (.divrem d e a b)) = 0x30 ∧
    (y = 0 → FaultsWith (.divrem d e a b) s .divZero) ∧
    (y ≠ 0 → ∃ q r, IsDivRem q r x y ∧ Completes (.divrem d e a b) s [(d, q), (e, r)])

/-- R256, R85 (d): DIVREM with `D = E` is no command: its word does not decode. That `exec` of the
term, which no word decodes to, raises `Illegal` and writes nothing is the model's deduction (log 12);
the step on such a word is in `IllegalEncodings`. -/
def Obligations.DivremToOneRegisterIsIllegal : Prop :=
  ∀ (s : State) (d a b : RegId), s.err = none →
    (¬ ∃ i, decode (encode (.divrem d d a b)) = .ok i) ∧
    FaultsWith (.divrem d d a b) s .illegal

/-- R152, R153: DIV writes the truncating quotient, REM the remainder; `DivZero` for a zero divisor. -/
def Obligations.DivAndRemWriteOne : Prop :=
  ∀ (s : State) (d a b : RegId) (x y : Int), s.Inv → s.err = none → s.rd a = some x →
    s.rd b = some y →
    slice 31 24 (encode (.div d a b)) = 0x31 ∧ slice 31 24 (encode (.rem d a b)) = 0x32 ∧
    (y = 0 → FaultsWith (.div d a b) s .divZero ∧ FaultsWith (.rem d a b) s .divZero) ∧
    (y ≠ 0 → ∃ q r, IsDivRem q r x y ∧ Completes (.div d a b) s [(d, q)] ∧
      Completes (.rem d a b) s [(d, r)])

/-- R154: MOD writes the residue in `[0, m)`; `Modulus` for a zero or negative modulus. -/
def Obligations.ModWritesTheResidue : Prop :=
  ∀ (s : State) (d a b : RegId) (x m : Int), s.Inv → s.err = none → s.rd a = some x →
    s.rd b = some m →
    slice 31 24 (encode (.mod d a b)) = 0x33 ∧
    (m ≤ 0 → FaultsWith (.mod d a b) s .modulus) ∧
    (0 < m → ∃ z, IsResidue z x m ∧ Completes (.mod d a b) s [(d, z)])

/-! ### The Montgomery pipeline -/

/-- R175: MONTMUL writes the residue `z` with `z * R = a * b` modulo `m`, where `R = B^len(m)`;
`Modulus`, then `Range` for an even modulus or an operand outside `[0, m)`. -/
def Obligations.MontmulWritesTheMontgomeryProduct : Prop :=
  ∀ (s : State) (d a b k : RegId) (x y m : Int), s.Inv → s.err = none → s.rd a = some x →
    s.rd b = some y → s.rd k = some m →
    slice 31 24 (encode (.montmul d a b k)) = 0x40 ∧
    (m ≤ 0 → FaultsWith (.montmul d a b k) s .modulus) ∧
    (0 < m → m % 2 = 0 ∨ x < 0 ∨ m ≤ x ∨ y < 0 ∨ m ≤ y → FaultsWith (.montmul d a b k) s .range) ∧
    (0 < m → m % 2 = 1 → 0 ≤ x → x < m → 0 ≤ y → y < m →
      ∃ z, 0 ≤ z ∧ z < m ∧ m ∣ z * (B : Int) ^ (words m.natAbs).length - x * y ∧
        Completes (.montmul d a b k) s [(d, z)])

/-- R176: MONTRED writes the residue `z` with `z * R = t` modulo `m`; `Modulus`, then `Range` for an
even modulus or an operand outside `[0, m * R)`. -/
def Obligations.MontredLeavesMontgomeryForm : Prop :=
  ∀ (s : State) (d a k : RegId) (t m : Int), s.Inv → s.err = none → s.rd a = some t →
    s.rd k = some m →
    slice 31 24 (encode (.montred d a k)) = 0x41 ∧
    (m ≤ 0 → FaultsWith (.montred d a k) s .modulus) ∧
    (0 < m → m % 2 = 0 ∨ t < 0 ∨ m * (B : Int) ^ (words m.natAbs).length ≤ t →
      FaultsWith (.montred d a k) s .range) ∧
    (0 < m → m % 2 = 1 → 0 ≤ t → t < m * (B : Int) ^ (words m.natAbs).length →
      ∃ z, 0 ≤ z ∧ z < m ∧ m ∣ z * (B : Int) ^ (words m.natAbs).length - t ∧
        Completes (.montred d a k) s [(d, z)])

/-- R177: MONTIN writes the Montgomery form `mod(a * R, m)` of any integer; `Modulus`, then `Range` for
an even modulus. -/
def Obligations.MontinEntersMontgomeryForm : Prop :=
  ∀ (s : State) (d a k : RegId) (x m : Int), s.Inv → s.err = none → s.rd a = some x →
    s.rd k = some m →
    slice 31 24 (encode (.montin d a k)) = 0x42 ∧
    (m ≤ 0 → FaultsWith (.montin d a k) s .modulus) ∧
    (0 < m → m % 2 = 0 → FaultsWith (.montin d a k) s .range) ∧
    (0 < m → m % 2 = 1 → ∃ z, IsResidue z (x * (B : Int) ^ (words m.natAbs).length) m ∧
      Completes (.montin d a k) s [(d, z)])

/-- R178: the identities of the Montgomery domain for an odd positive modulus. -/
def Obligations.MontgomeryIdentities : Prop :=
  ∀ a b m : Int, 0 < m → m % 2 = 1 →
    monred (modulo (a * montR m) m) m = modulo a m ∧
    monpro (modulo (a * montR m) m) (modulo (b * montR m) m) m = modulo (a * b * montR m) m ∧
    (0 ≤ a → a < m → monpro a 1 m = monred a m) ∧
    (0 ≤ a → a < m → monpro a (modulo (montR m * montR m) m) m = modulo (a * montR m) m)

/-! ### Modular exponentiation -/

/-- R190, R191: MODINV writes the inverse in `[1, m - 1]` when there is one, which is exactly when
`m >= 2` and the operand has no factor in common with it; otherwise it raises `NoInverse`; `Modulus`
comes first. -/
def Obligations.ModinvWritesTheInverse : Prop :=
  ∀ (s : State) (d a k : RegId) (x m : Int), s.Inv → s.err = none → s.rd a = some x →
    s.rd k = some m →
    slice 31 24 (encode (.modinv d a k)) = 0x51 ∧
    (m ≤ 0 → FaultsWith (.modinv d a k) s .modulus) ∧
    (0 < m → (m = 1 ∨ x.natAbs.gcd m.natAbs ≠ 1) →
      (¬ ∃ z, IsInverse z x m) ∧ FaultsWith (.modinv d a k) s .noInverse) ∧
    (2 ≤ m → x.natAbs.gcd m.natAbs = 1 →
      ∃ z, IsInverse z x m ∧ (∀ y, IsInverse y x m → y = z) ∧ Completes (.modinv d a k) s [(d, z)])

/-- R193, R194: MODPOW writes the residue of `base^e`, with a negative exponent the residue of the
inverse's power; `Modulus`, then `NoInverse` when a negative exponent's base has no inverse. -/
def Obligations.ModpowWritesThePower : Prop :=
  ∀ (s : State) (d a b k : RegId) (x e m : Int), s.Inv → s.err = none → s.rd a = some x →
    s.rd b = some e → s.rd k = some m →
    slice 31 24 (encode (.modpow d a b k)) = 0x50 ∧
    (m ≤ 0 → FaultsWith (.modpow d a b k) s .modulus) ∧
    (0 < m → e < 0 → (¬ ∃ y, IsInverse y x m) → FaultsWith (.modpow d a b k) s .noInverse) ∧
    (0 < m → 0 ≤ e → ∃ z, IsResidue z (x ^ e.natAbs) m ∧ Completes (.modpow d a b k) s [(d, z)]) ∧
    (0 < m → e < 0 → ∀ y, IsInverse y x m →
      ∃ z, IsResidue z (y ^ e.natAbs) m ∧ Completes (.modpow d a b k) s [(d, z)])

/-! ### What every command leaves alone -/

/-- The frame of every command (R26, R31, R91 step 6): other registers with all their words are
unchanged, the compare flags are unchanged unless it is CMPM or CMP, the configuration and the host's
side of the port are unchanged; ERR and FINFO change only where it faults, and then nothing else
does. -/
def Obligations.CommandFrame : Prop :=
  ∀ (i : Instr) (s t : State), exec i s = .next t →
    (∀ r, r ∉ i.dests → t.reg r = s.reg r) ∧
    (i.writesFlags = false → t.cmp = s.cmp ∧ t.cmpv = s.cmpv) ∧
    (t.cfg = s.cfg ∧ t.port = s.port ∧ t.answer = s.answer ∧ t.draws = s.draws) ∧
    ((t.err = s.err ∧ t.finfo = s.finfo) ∨
      (t.err ≠ none ∧ s.err = none ∧ t.x = s.x ∧ t.cmp = s.cmp ∧ t.cmpv = s.cmpv))

/-- R233: when a command raises, the state is exactly the state before it except for ERR and FINFO,
and FINFO holds the command word (R231). -/
def Obligations.CommandFaultsArePrecise : Prop :=
  ∀ (i : Instr) (s t : State), s.err = none → exec i s = .next t → t.err ≠ none →
    ∃ f, f ≠ .format ∧ f ≠ .bus ∧ t = { s with err := some f, finfo := encode i }

/-- R227: only ADD, SUB and MUL can raise `Capacity`; every other command's results are bounded by an
operand. -/
def Obligations.OnlyAddSubMulRaiseCapacity : Prop :=
  ∀ (i : Instr) (s t : State), s.Inv → s.err = none → exec i s = .next t →
    t.err = some .capacity → ∃ d a b, i = .add d a b ∨ i = .sub d a b ∨ i = .mul d a b

/-- Two machines with different `MAXW` and the same operands (R4, R227): where one completes a command,
the other completes it with the same results or raises `Capacity`; finite capacity never makes a wrong
value. -/
def Obligations.CapacityNeverMakesAWrongValue : Prop :=
  ∀ (i : Instr) (s s' t t' : State), i.wf = true → s.err = none → s'.err = none →
    (∀ r ∈ i.sources, s.rd r = s'.rd r) → exec i s = .next t → exec i s' = .next t' →
    t.err = none →
    t'.err = some .capacity ∨
      (t'.err = none ∧ (∀ d ∈ i.dests, t.rd d = t'.rd d) ∧
        (i.writesFlags = true → t.cmp = t'.cmp ∧ t.cmpv = t'.cmpv))

/-! ### The faulted state -/

/-- R234: while a fault is latched, a write other than the clearing one has no effect, and a read
raises nothing: it answers a word and changes no register, no flag, not ERR and not FINFO. -/
def Obligations.FaultedStateIsFrozen : Prop :=
  ∀ (s : State) (f : FaultCode) (rest : List PortEvent), s.err = some f →
    (∀ a data, s.port = .write a data :: rest → ¬ (a = 0x0001 ∧ slice 31 31 data = 1) →
      step s = .next { s with port := rest, answer := none }) ∧
    (∀ a, s.port = .read a :: rest → ∃ v n, step s =
      .next { s with port := rest, answer := some v, draws := n })

/-- R235: a write to STATUS with bit 31 set clears ERR and FINFO, in the faulted state or not, and
changes nothing else; it is the only way out of the faulted state other than reset. A write without
bit 31 changes nothing at all (R57). -/
def Obligations.ClearingLeavesTheFaultedState : Prop :=
  (∀ (s : State) (data : Word) (rest : List PortEvent), s.port = .write 0x0001 data :: rest →
    (slice 31 31 data = 1 →
      step s = .next { s with err := none, finfo := 0, port := rest, answer := none }) ∧
    (slice 31 31 data = 0 → step s = .next { s with port := rest, answer := none })) ∧
  (∀ (s t : State) (e : PortEvent) (rest : List PortEvent), s.err ≠ none → s.port = e :: rest →
    step s = .next t → t.err = none →
    e = .reset ∨ ∃ data, e = .write 0x0001 data ∧ slice 31 31 data = 1)

/-- R231: FINFO tells what raised the latched fault, in every state a step reaches from one where it
does; a word that decodes is no 16-bit address. -/
def Obligations.FinfoTellsTheSource : Prop :=
  (∀ cfg, (State.resetWith cfg).FinfoInv) ∧
  (∀ s t : State, s.FinfoInv → step s = .next t → t.FinfoInv) ∧
  (∀ (c : Word) (i : Instr), decode c = .ok i → 2 ^ 16 ≤ c.toNat)

/-! ### The host port -/

/-- R58: staging a word defines that word and ends the register's value; no other field, word or
register changes. -/
def Obligations.StagingDefinesOneWord : Prop :=
  ∀ (s : State) (r : RegId) (k : Nat) (data : Word) (rest : List PortEvent), s.err = none →
    k < s.cfg.maxw → s.port = .write (wordAddr r k) data :: rest →
    ∃ t, step s = .next t ∧ (t.reg r).valid = false ∧ (t.reg r).sign = (s.reg r).sign ∧
      (t.reg r).len = (s.reg r).len ∧ Memory.read (t.reg r).w k = some data ∧
      (∀ j, j ≠ k → Memory.read (t.reg r).w j = Memory.read (s.reg r).w j) ∧
      SameExceptRegs [r] { s with port := rest, answer := none } t

/-- R59: the seal, with its checks in their order. `data` is the header word, `m` the words below its
`LEN`. -/
def Obligations.SealChecksAndSeals : Prop :=
  ∀ (s : State) (r : RegId) (data : Word) (rest : List PortEvent), s.err = none →
    s.port = .write (hdrAddr r) data :: rest →
    let u := { s with port := rest, answer := none }
    let formatFault := { u with err := some .format, finfo := (hdrAddr r).setWidth 32 }
    let bad := slice 15 2 data ≠ 0 ∨ slice 30 28 data ≠ 0 ∨ slice 1 0 data = 2 ∨
      slice 27 16 data = 0 ∨ s.cfg.maxw < slice 27 16 data
    (bad → step s = .next formatFault) ∧
    (¬ bad → (∃ k, k < slice 27 16 data ∧ Memory.read (s.reg r).w k = none) →
      step s = .next { u with err := some .absent, finfo := (hdrAddr r).setWidth 32 }) ∧
    (¬ bad → ∀ m : List Word, m.length = slice 27 16 data →
      (∀ k, k < m.length → Memory.read (s.reg r).w k = m[k]?) →
      (¬ (val m = 0 ↔ slice 1 0 data = 0) → step s = .next formatFault) ∧
      ((val m = 0 ↔ slice 1 0 data = 0) → ∀ c : Sign, c.code = slice 1 0 data →
        step s = .next (u.setReg r
          { valid := true, sign := c, len := (trim m).length, w := (s.reg r).w })))

/-- R56, R68, R27, R29: what a read returns and does, address by address. Reads of STATUS, FINFO, CFG,
HDR and WORD change nothing; reads of CMD and of unmapped addresses raise `Bus`. That an unspecified
value is `Config.freeWord` at the counter `draws`, which then advances, is the model's choice (log 4);
the statement holds for every value of it. -/
def Obligations.ReadsAnswer : Prop :=
  ∀ (s : State) (a : Addr) (rest : List PortEvent), s.Inv → s.port = .read a :: rest →
    let answers := fun v : Word => step s = .next { s with port := rest, answer := some v }
    (a = 0x0001 → ∃ v, answers v ∧ slice 3 0 v = s.errCode ∧ slice 5 4 v = s.cmp.code ∧
      slice 6 6 v = s.cmpv.toNat ∧ slice 31 7 v = 0) ∧
    (a = 0x0002 → answers s.finfo) ∧
    (a = 0x0003 → answers (0x20100000 + BitVec.ofNat 32 s.cfg.maxw)) ∧
    (∀ r, a = hdrAddr r → (s.reg r).valid = false → answers 0) ∧
    (∀ r, a = hdrAddr r → (s.reg r).valid = true → ∃ v, answers v ∧
      slice 1 0 v = (s.reg r).sign.code ∧ slice 15 2 v = 0 ∧ slice 27 16 v = (s.reg r).len ∧
      slice 30 28 v = 0 ∧ slice 31 31 v = 1) ∧
    (∀ r k, k < s.cfg.maxw → a = wordAddr r k →
      ((s.reg r).valid = true → k < (s.reg r).len →
        ∃ v, Memory.read (s.reg r).w k = some v ∧ answers v) ∧
      ((s.reg r).valid = true → (s.reg r).len ≤ k → answers 0) ∧
      ((s.reg r).valid = false → ∀ v, Memory.read (s.reg r).w k = some v → answers v) ∧
      ((s.reg r).valid = false → Memory.read (s.reg r).w k = none → step s = .next
        { s with port := rest, answer := some (Config.freeWord s.draws), draws := s.draws + 1 })) ∧
    (a = 0x0000 ∨ IsUnmapped s.cfg.maxw a → s.err = none → step s = .next
      { s with err := some .bus, finfo := a.setWidth 32, port := rest,
               answer := some (Config.freeWord s.draws), draws := s.draws + 1 }) ∧
    (a = 0x0000 ∨ IsUnmapped s.cfg.maxw a → s.err ≠ none → step s = .next
      { s with port := rest, answer := some (Config.freeWord s.draws), draws := s.draws + 1 })

/-- R61, R229: a write to an unmapped address, to FINFO or to CFG raises `Bus` with the address and
writes nothing. -/
def Obligations.WritesThatSelectNothingRaiseBus : Prop :=
  ∀ (s : State) (a : Addr) (data : Word) (rest : List PortEvent), s.err = none →
    s.port = .write a data :: rest →
    a = 0x0002 ∨ a = 0x0003 ∨ IsUnmapped s.cfg.maxw a →
    step s = .next { s with err := some .bus, finfo := a.setWidth 32, port := rest, answer := none }

/-- R90, R253: LOAD of any integer that fits, into any register of any machine outside the faulted
state, leaves the register holding it, canonical, and changes nothing else; a read of each of its words
then is what the magnitude says. -/
def Obligations.LoadEstablishesTheValue : Prop :=
  ∀ (s : State) (r : RegId) (z : Int) (rest : List PortEvent), s.err = none →
    z.natAbs < B ^ s.cfg.maxw → s.port = load r z ++ rest →
    ∃ t, Host.Core.run core (load r z).length s = .next t ∧ t.rd r = some z ∧
      (t.reg r).valid = true ∧ (t.reg r).sign = sgn z ∧
      (t.reg r).len = (words z.natAbs).length ∧
      (∀ k, k < (words z.natAbs).length → Memory.read (t.reg r).w k = (words z.natAbs)[k]?) ∧
      SameExceptRegs [r] { s with port := rest, answer := none } t

/-! ### Reset -/

/-- R35: after reset no register holds a value, so its header reads 0 (R68), and every word is undefined;
STATUS and FINFO read 0 and CFG its constant. (The reset values of `sign` and `len`, which the spec calls unspecified, are the
model's choice, log 5, and are not stated here.) -/
def Obligations.StateAfterReset : Prop :=
  ∀ cfg : Config,
    (∀ i : RegId, ((State.resetWith cfg).reg i).valid = false ∧
      ((State.resetWith cfg).reg i).header = 0 ∧
      ∀ k, Memory.read ((State.resetWith cfg).reg i).w k = none) ∧
    (State.resetWith cfg).err = none ∧ (State.resetWith cfg).cmp = .zero ∧
    (State.resetWith cfg).cmpv = false ∧ (State.resetWith cfg).finfo = 0 ∧
    (State.resetWith cfg).statusWord = 0 ∧
    (State.resetWith cfg).cfgWord = 0x20100000 + BitVec.ofNat 32 cfg.maxw

/-- R250, R252: asserting reset brings every state to the reset state; nothing of the architectural
state survives. (That the host's pending transactions and the draw counter stay is the model's
convention, log 7.) -/
def Obligations.ResetEventBringsTheResetState : Prop :=
  ∀ (s : State) (rest : List PortEvent), s.port = .reset :: rest →
    step s = .next { State.resetWith s.cfg with port := rest, draws := s.draws }

/-! ### The whole machine -/

/-- R36, with the ranges of R20, R27 and R28: every step, on any transaction, keeps the invariant. -/
def Obligations.StepKeepsTheInvariant : Prop :=
  ∀ s t : State, s.Inv → step s = .next t → t.Inv

/-- The invariant holds after reset, for every configuration (R36: vacuously). -/
def Obligations.ResetMeetsTheInvariant : Prop :=
  ∀ cfg : Config, (State.resetWith cfg).Inv

/-- R36: a valid register holds one integer, which fits, with its sign and its canonical words. -/
def Obligations.ValidRegisterHoldsItsValue : Prop :=
  ∀ (s : State) (i : RegId), s.Inv → (s.reg i).valid = true →
    ∃ z, s.rd i = some z ∧ z.natAbs < B ^ s.cfg.maxw ∧ (s.reg i).sign = sgn z ∧
      (s.reg i).len = (words z.natAbs).length ∧
      (∀ k, k < (s.reg i).len → Memory.read (s.reg i).w k = (words z.natAbs)[k]?) ∧
      canonical (words z.natAbs) = true ∧ (sgn z = .zero ↔ words z.natAbs = [0])

/-- R260: every transaction completes, whatever the state: a step always answers a next state, takes
exactly the first pending transaction from the host's list, and never changes `MAXW`. -/
def Obligations.EveryStepCompletes : Prop :=
  ∀ s : State, ∃ t, step s = .next t ∧ t.port = s.port.tail ∧ t.cfg = s.cfg

/-- R22: a register stops holding a value only by reset or by a word write into it, and comes to hold
one only by a seal of it or as a destination of a command. -/
def Obligations.ValidityChangesOnlyBy : Prop :=
  ∀ (s t : State) (e : PortEvent) (rest : List PortEvent) (r : RegId), s.port = e :: rest →
    step s = .next t →
    ((s.reg r).valid = true → (t.reg r).valid = false →
      e = .reset ∨ ∃ k data, k < s.cfg.maxw ∧ e = .write (wordAddr r k) data) ∧
    ((s.reg r).valid = false → (t.reg r).valid = true →
      (∃ data, e = .write (hdrAddr r) data) ∨ ∃ i : Instr, e = issue i ∧ r ∈ i.dests)

/-- R31: the compare flags change only by CMPM, CMP and reset. -/
def Obligations.FlagsChangeOnlyByCompares : Prop :=
  ∀ (s t : State) (e : PortEvent) (rest : List PortEvent), s.port = e :: rest → step s = .next t →
    (t.cmp ≠ s.cmp ∨ t.cmpv ≠ s.cmpv) →
    e = .reset ∨ ∃ i : Instr, e = issue i ∧ i.writesFlags = true ∧ t.cmpv = true

/-- R35, U5: `sign` and `len` of a register without a value are not observable: two states that agree
but for them stay so under every transaction, and every read answers the same. -/
def Obligations.FieldsWithoutAValueAreHidden : Prop :=
  ∀ s s' t : State, s.Alike s' → step s = .next t → ∃ t', step s' = .next t' ∧ t.Alike t'

/-! ### Values and the reference datapaths (00_scope.md R12) -/

/-- R7: `mk` and `int` are inverse bijections between the integers and the values. -/
def Obligations.IntegersAreTheValues : Prop :=
  (∀ z : Int, (mkValue z).wf = true ∧ (mkValue z).int = z) ∧
  (∀ v : Value, v.wf = true → mkValue v.int = v)

/-- R101, R102: the carry chain adds and the borrow chain subtracts canonical magnitudes, and both
results are canonical. -/
def Obligations.AddAndSubtractMagnitudes : Prop :=
  ∀ a b : List Word, canonical a = true → canonical b = true →
    addmag a b = words (val a + val b) ∧
    (val b ≤ val a → submag a b = words (val a - val b))

/-- R103, R104, R106, R110: the comparator orders canonical magnitudes, and the signed adder,
subtractor and comparator meet the integers' sum, difference and order. -/
def Obligations.SignedDatapathMeetsTheIntegers : Prop :=
  (∀ a b : List Word, canonical a = true → canonical b = true →
    cmpmag a b = sgn ((val a : Int) - val b)) ∧
  (∀ u v : Value, u.wf = true → v.wf = true →
    addSm u v = mkValue (u.int + v.int) ∧ subSm u v = mkValue (u.int - v.int) ∧
    cmpSm u v = sgn (u.int - v.int))

/-- R130, R131: the schoolbook loop multiplies canonical magnitudes, and with the product of the signs
it multiplies values. -/
def Obligations.SchoolbookMultiplies : Prop :=
  (∀ a b : List Word, canonical a = true → canonical b = true →
    mulmag a b = words (val a * val b)) ∧
  (∀ u v : Value, u.wf = true → v.wf = true → mulSm u v = mkValue (u.int * v.int))

/-- R143: division by a single nonzero word. -/
def Obligations.SingleWordDivision : Prop :=
  ∀ (u : List Word) (d : Word), u ≠ [] → d ≠ 0 →
    divword u d = (words (val u / d.toNat), words (val u % d.toNat))

/-- R145, R146, R148: for a normalized divisor and a window below `B` times it, the corrected trial
digit is the true quotient digit or one too large, and after the add-back the digit is the true one
and the window holds the remainder. -/
def Obligations.TrialDigitIsAtMostOneTooLarge : Prop :=
  ∀ (un vn : List Word) (j : Nat), 2 ≤ vn.length → j + vn.length < un.length →
    2 ^ 31 ≤ digit vn (vn.length - 1) →
    let window := fun l : List Word => val ((l.drop j).take (vn.length + 1))
    window un < val vn * B →
    window un / val vn ≤ trialDigit un vn j ∧ trialDigit un vn j ≤ window un / val vn + 1 ∧
    (knuthStep un vn j).2 = window un / val vn ∧
    window (knuthStep un vn j).1 = window un % val vn

/-- R156: Algorithm D with its fast paths divides canonical magnitudes, and with the signs it divides
values, truncating. -/
def Obligations.LongDivisionDivides : Prop :=
  (∀ u v : List Word, canonical u = true → canonical v = true → val v ≠ 0 →
    divmag u v = (words (val u / val v), words (val u % val v))) ∧
  (∀ u v : Value, u.wf = true → v.wf = true → v.int ≠ 0 →
    divSm u v = (mkValue (u.int.tdiv v.int), mkValue (u.int.tmod v.int)))

/-- R171: the word constant of the Montgomery reduction. -/
def Obligations.NegInverseWord : Prop :=
  ∀ m0 : Word, m0.toNat % 2 = 1 → (m0.toNat * (neginvword m0).toNat + 1) % B = 0

/-- R172: the word-serial reduction meets its contract for an odd modulus: below `m`, and `R`
times it is the operand modulo `m`; and the contract has one solution. -/
def Obligations.WordSerialReductionReduces : Prop :=
  ∀ m t : Nat, m % 2 = 1 → t < m * B ^ wordLen m →
    monredWords t (words m) < m ∧ monredWords t (words m) * B ^ wordLen m % m = t % m ∧
    (∀ r, r < m → r * B ^ wordLen m % m = t % m → r = monredWords t (words m)) ∧
    (monredWords t (words m) : Int) = monred t m

/-- R196, R198: the two square-and-multiply paths compute the power modulo an odd number and modulo a
power of two. -/
def Obligations.SquareAndMultiplyPaths : Prop :=
  (∀ b e q : Nat, q % 2 = 1 → b < q → oddpow b e q = b ^ e % q) ∧
  (∀ b e k : Nat, 1 ≤ k → pow2pow b e k = b ^ e % 2 ^ k)

/-- R199, R200: the lifted inverse modulo `2^k`, and the recombination of the two residues. -/
def Obligations.EvenModulusRecombination : Prop :=
  (∀ q k : Nat, q % 2 = 1 → 1 ≤ k → 0 ≤ pow2inv q k ∧ pow2inv q k < 2 ^ k ∧
    ((2 : Int) ^ k) ∣ q * pow2inv q k - 1) ∧
  (∀ x1 x2 q k : Nat, q % 2 = 1 → 1 ≤ k → x1 < q → x2 < 2 ^ k →
    crtJoin x1 x2 q k < q * 2 ^ k ∧ crtJoin x1 x2 q k % q = x1 ∧ crtJoin x1 x2 q k % 2 ^ k = x2)

/-- R201: the sequencer meets the contract of the power, for odd and even moduli, bases and exponents
of either sign, faults included. -/
def Obligations.SequencerMeetsTheContract : Prop :=
  ∀ base e m : Int, sequencer base e m =
    if m ≤ 0 then .error .modulus
    else
      match modpow base e m with
      | none => .error .noInverse
      | some z => .ok z
end

