-- ==== Sys2Proof/Laws/Magnitude.lean ====
section
/-!
SUPPORT. Magnitudes (00_scope.md R6): `val` and `words` are inverse, `trim` is `words` of the value, and
how long a canonical magnitude is.
-/

namespace Sys2Proof.Machine

/-! ### The base -/

theorem base_eq : B = 4294967296 := rfl

theorem base_eq_two_pow : B = 2 ^ 32 := rfl

theorem base_pow (n : Nat) : B ^ n = 2 ^ (32 * n) := by rw [base_eq_two_pow, ← pow_mul]

/-! ### Values of word lists -/

@[simp] theorem val_nil : val [] = 0 := rfl

@[simp] theorem val_cons (w : Word) (ws : List Word) : val (w :: ws) = w.toNat + B * val ws := rfl

theorem val_lt (m : List Word) : val m < B ^ m.length := by
  induction m with
  | nil => simp
  | cons w ws ih =>
    have hw : w.toNat < B := w.isLt
    simp only [val_cons, List.length_cons, pow_succ]
    nlinarith

theorem val_append (l m : List Word) : val (l ++ m) = val l + B ^ l.length * val m := by
  induction l with
  | nil => simp
  | cons w ws ih => simp only [List.cons_append, val_cons, ih, List.length_cons, pow_succ]; ring

/-- Two magnitudes of one length with one value are the same words. -/
theorem val_inj {l m : List Word} (hl : l.length = m.length) (hv : val l = val m) : l = m := by
  induction l generalizing m with
  | nil => cases m with
    | nil => rfl
    | cons _ _ => simp at hl
  | cons w ws ih =>
    cases m with
    | nil => simp at hl
    | cons u us =>
      have hw : w.toNat < B := w.isLt
      have hu : u.toNat < B := u.isLt
      simp only [val_cons, base_eq] at hv hw hu
      have h1 : w.toNat = u.toNat := by omega
      have h2 : val ws = val us := by omega
      rw [BitVec.eq_of_toNat_eq h1, ih (by simpa using hl) h2]

/-! ### Words of a number -/

@[simp] theorem length_wordsN (n k : Nat) : (wordsN n k).length = n := by
  induction n generalizing k with
  | zero => rfl
  | succ n ih => simp [wordsN, ih]

theorem val_wordsN (n k : Nat) : val (wordsN n k) = k % B ^ n := by
  induction n generalizing k with
  | zero => simp [wordsN, Nat.mod_one]
  | succ n ih =>
    have h : k % B ^ (n + 1) = k % B + B * (k / B % B ^ n) := by
      rw [pow_succ, Nat.mul_comm (B ^ n) B, Nat.mod_mul]
    rw [wordsN, val_cons, ih, BitVec.toNat_ofNat, h, base_eq_two_pow]

theorem wordLen_pos (k : Nat) : 1 ≤ wordLen k := by simp [wordLen]

theorem lt_base_pow_wordLen (k : Nat) : k < B ^ wordLen k := by
  have h : k < 2 ^ (k.log2 + 1) := Nat.lt_log2_self
  rw [base_pow]
  refine lt_of_lt_of_le h (Nat.pow_le_pow_right (by norm_num) ?_)
  simp only [wordLen]
  omega

theorem base_pow_le {k : Nat} (hk : 2 ≤ wordLen k) : B ^ (wordLen k - 1) ≤ k := by
  have hk0 : k ≠ 0 := by rintro rfl; simp [wordLen] at hk
  have h : 2 ^ k.log2 ≤ k := Nat.log2_self_le hk0
  rw [base_pow]
  refine le_trans (Nat.pow_le_pow_right (by norm_num) ?_) h
  simp only [wordLen]
  omega

/-- The canonical length is at most `n` exactly when the number fits `n` words. -/
theorem wordLen_le_iff {k n : Nat} (hn : 1 ≤ n) : wordLen k ≤ n ↔ k < B ^ n := by
  constructor
  · intro h
    exact lt_of_lt_of_le (lt_base_pow_wordLen k) (Nat.pow_le_pow_right (by norm_num) h)
  · intro h
    by_contra hc
    have h2 : B ^ (wordLen k - 1) ≤ k := base_pow_le (by omega)
    have h3 : B ^ n ≤ B ^ (wordLen k - 1) := Nat.pow_le_pow_right (by norm_num) (by omega)
    omega

@[simp] theorem length_words (k : Nat) : (words k).length = wordLen k := by simp [words]

/-- `val(words(k)) = k` (R6). -/
@[simp] theorem val_words (k : Nat) : val (words k) = k := by
  rw [words, val_wordsN, Nat.mod_eq_of_lt (lt_base_pow_wordLen k)]

theorem words_ne_nil (k : Nat) : words k ≠ [] := by
  have h := wordLen_pos k
  intro hc
  have := length_words k
  rw [hc, List.length_nil] at this
  omega

/-! ### Canonical form -/

theorem getLastD_append_singleton (l : List Word) (w v : Word) : (l ++ [w]).getLastD v = w := by
  simp

/-- A magnitude of at least two words whose top word is not zero is at least the base to its length
less one; and conversely. -/
theorem top_ne_zero_iff {m : List Word} (hm : m ≠ []) :
    m.getLastD 0 ≠ 0 ↔ B ^ (m.length - 1) ≤ val m := by
  obtain ⟨l, w, rfl⟩ : ∃ l w, m = l ++ [w] := ⟨m.dropLast, m.getLast hm, (List.dropLast_append_getLast hm).symm⟩
  have hl := val_lt l
  rw [getLastD_append_singleton, val_append]
  simp only [List.length_append, List.length_cons, List.length_nil, Nat.zero_add,
    Nat.add_sub_cancel, val_cons, val_nil, Nat.mul_zero, Nat.add_zero]
  constructor
  · intro h
    have hw : 1 ≤ w.toNat := by
      rcases Nat.eq_zero_or_pos w.toNat with h0 | h0
      · exact (h (BitVec.eq_of_toNat_eq (by simpa using h0))).elim
      · exact h0
    nlinarith [Nat.zero_le (val l)]
  · rintro h rfl
    simp at h
    omega

theorem canonical_iff {m : List Word} :
    canonical m = true ↔ m ≠ [] ∧ (m.length = 1 ∨ B ^ (m.length - 1) ≤ val m) := by
  simp only [canonical, Bool.and_eq_true, Bool.or_eq_true, decide_eq_true_eq]
  constructor
  · rintro ⟨h1, h2⟩
    exact ⟨h1, h2.imp id (top_ne_zero_iff h1).mp⟩
  · rintro ⟨h1, h2⟩
    exact ⟨h1, h2.imp id (top_ne_zero_iff h1).mpr⟩

/-- `words(k)` is canonical (R6). -/
theorem canonical_words (k : Nat) : canonical (words k) = true := by
  refine canonical_iff.mpr ⟨words_ne_nil k, ?_⟩
  rw [length_words, val_words]
  have := wordLen_pos k
  rcases Nat.eq_or_lt_of_le this with h | h
  · exact Or.inl h.symm
  · exact Or.inr (base_pow_le h)

/-- A canonical magnitude has the canonical length of its value. -/
theorem wordLen_val {m : List Word} (h : canonical m = true) : wordLen (val m) = m.length := by
  obtain ⟨h1, h2⟩ := canonical_iff.mp h
  have hpos : 1 ≤ m.length := List.length_pos_iff.mpr h1
  have hle : wordLen (val m) ≤ m.length := (wordLen_le_iff hpos).mpr (val_lt m)
  have hge := wordLen_pos (val m)
  rcases h2 with h2 | h2
  · omega
  · by_contra hc
    have hlt : wordLen (val m) ≤ m.length - 1 := by omega
    have := (wordLen_le_iff (k := val m) (n := m.length - 1) (by omega)).mp hlt
    omega

/-- A canonical magnitude is the words of its value (R6). -/
theorem words_val {m : List Word} (h : canonical m = true) : words (val m) = m :=
  val_inj (by rw [length_words, wordLen_val h]) (val_words _)

/-! ### Trim -/

theorem val_dropHighZeros (m : List Word) : val (dropHighZeros m) = val m := by
  induction m with
  | nil => rfl
  | cons w ws ih =>
    simp only [dropHighZeros]
    split
    · rename_i h
      obtain ⟨h1, rfl⟩ := h
      rw [h1] at ih
      simp at ih
      simp [← ih]
    · simp [ih]

theorem top_dropHighZeros (m : List Word) (h : dropHighZeros m ≠ []) :
    (dropHighZeros m).getLastD 0 ≠ 0 := by
  induction m with
  | nil => simp [dropHighZeros] at h
  | cons w ws ih =>
    simp only [dropHighZeros] at h ⊢
    split
    · rename_i hc; rw [if_pos hc] at h; exact (h rfl).elim
    · rename_i hc
      rcases hd : dropHighZeros ws with _ | ⟨u, us⟩
      · rw [hd] at hc
        simp only [true_and] at hc
        simpa using hc
      · have := ih (by simp [hd])
        rw [hd] at this
        simpa [List.getLastD_cons] using this

@[simp] theorem val_trim (m : List Word) : val (trim m) = val m := by
  cases m with
  | nil => rfl
  | cons w ws => simp [trim, val_dropHighZeros]

theorem canonical_trim {m : List Word} (h : m ≠ []) : canonical (trim m) = true := by
  cases m with
  | nil => exact (h rfl).elim
  | cons w ws =>
    rw [canonical_iff]
    refine ⟨by simp [trim], ?_⟩
    by_cases hd : dropHighZeros ws = []
    · left; simp [trim, hd]
    · right
      rw [← top_ne_zero_iff (by simp [trim])]
      have := top_dropHighZeros ws hd
      obtain ⟨u, us, hu⟩ := List.exists_cons_of_ne_nil hd
      rw [hu] at this
      simpa [trim, hu, List.getLastD_cons] using this

/-- `trim` gives the canonical magnitude of the same value (R6). -/
theorem trim_eq_words {m : List Word} (h : m ≠ []) : trim m = words (val m) := by
  rw [← val_trim m, words_val (canonical_trim h)]

theorem length_trim_le (m : List Word) : (trim m).length ≤ m.length := by
  have drop_le : ∀ l : List Word, (dropHighZeros l).length ≤ l.length := by
    intro l
    induction l with
    | nil => simp [dropHighZeros]
    | cons w ws ih =>
      simp only [dropHighZeros]
      split
      · simp
      · simpa using ih
  cases m with
  | nil => simp [trim]
  | cons w ws => simpa [trim] using drop_le ws

/-- What `trim` keeps is a low part of the magnitude. -/
theorem trim_getElem? (m : List Word) (k : Nat) (hk : k < (trim m).length) :
    (trim m)[k]? = m[k]? := by
  have drop_get : ∀ (l : List Word) (k : Nat), k < (dropHighZeros l).length →
      (dropHighZeros l)[k]? = l[k]? := by
    intro l
    induction l with
    | nil => simp [dropHighZeros]
    | cons w ws ih =>
      intro k hk
      simp only [dropHighZeros] at hk ⊢
      split
      · rename_i hc; rw [if_pos hc] at hk; simp at hk
      · rename_i hc
        rw [if_neg hc] at hk
        cases k with
        | zero => simp
        | succ k => simpa using ih k (by simpa using hk)
  cases m with
  | nil => simp [trim] at hk
  | cons w ws =>
    cases k with
    | zero => simp [trim]
    | succ k => simpa [trim] using drop_get ws k (by simpa [trim] using hk)

/-! ### Signs and values (R7) -/

theorem sgn_toInt_mul_natAbs (z : Int) : (sgn z).toInt * (z.natAbs : Int) = z := by
  simp only [sgn]
  split
  · simp only [Sign.toInt]; omega
  · split
    · subst_vars; simp
    · simp only [Sign.toInt]; omega

theorem sgn_eq_zero_iff (z : Int) : sgn z = .zero ↔ z = 0 := by
  simp only [sgn]; split <;> [skip; split] <;> simp_all; omega

/-- The sign of a value's integer is its sign when the magnitude is not zero. -/
theorem sgn_toInt_mul {c : Sign} {n : Nat} (h : c = .zero ↔ n = 0) : sgn (c.toInt * (n : Int)) = c := by
  cases c with
  | zero => simp [Sign.toInt, sgn]
  | pos =>
    have : n ≠ 0 := fun hn => by simp [hn] at h
    rw [show Sign.pos.toInt = 1 from rfl, sgn, if_neg (by omega), if_neg (by omega)]
  | neg =>
    have : n ≠ 0 := fun hn => by simp [hn] at h
    rw [show Sign.neg.toInt = -1 from rfl, sgn, if_pos (by omega)]

theorem natAbs_toInt_mul {c : Sign} {n : Nat} (h : c = .zero ↔ n = 0) :
    (c.toInt * (n : Int)).natAbs = n := by
  cases c with
  | zero => simp [Sign.toInt, h.mp rfl]
  | pos => simp [Sign.toInt]
  | neg => simp [Sign.toInt]

end Sys2Proof.Machine
end

