-- ==== Sys2Proof/Laws/Memory.lean ====
section
/-!
SUPPORT. Word storage: what a read returns after a write, and that every operation keeps the canonical
form.
-/

namespace Sys2Proof.Machine

/-- A write is read back; every other index reads as before. -/
theorem Memory.read_write (m : Memory) (k j : Nat) (v : Word) :
    Memory.read (Memory.write m k v) j = if j = k then some v else Memory.read m j := by
  induction m with
  | nil => simp only [Memory.write, Memory.read]; split <;> split <;> simp_all
  | cons p m ih =>
    obtain ⟨i, u⟩ := p
    simp only [Memory.write]
    split
    · simp only [Memory.read]; grind
    · split
      · simp only [Memory.read]; grind
      · simp only [Memory.read, ih]; grind

/-- The canonical form from a lower index on is implied by the one from a higher index on. -/
theorem Memory.wfFrom_mono {limit lo lo' : Nat} {m : Memory} (h : lo' ≤ lo)
    (hm : Memory.wfFrom limit lo m = true) : Memory.wfFrom limit lo' m = true := by
  cases m with
  | nil => rfl
  | cons p m =>
    simp only [Memory.wfFrom, Bool.and_eq_true, decide_eq_true_eq] at hm ⊢
    exact ⟨⟨by omega, hm.1.2⟩, hm.2⟩

theorem Memory.wfFrom_write {limit lo k : Nat} {m : Memory} (v : Word) (hlo : lo ≤ k)
    (hk : k < limit) (hm : Memory.wfFrom limit lo m = true) :
    Memory.wfFrom limit lo (Memory.write m k v) = true := by
  induction m generalizing lo with
  | nil => simp [Memory.write, Memory.wfFrom, hlo, hk]
  | cons p m ih =>
    obtain ⟨i, u⟩ := p
    simp only [Memory.wfFrom, Bool.and_eq_true, decide_eq_true_eq] at hm
    obtain ⟨⟨h1, h2⟩, h3⟩ := hm
    simp only [Memory.write]
    split
    · simp only [Memory.wfFrom, Bool.and_eq_true, decide_eq_true_eq]
      exact ⟨⟨hlo, hk⟩, ⟨by omega, h2⟩, h3⟩
    · split
      · simp only [Memory.wfFrom, Bool.and_eq_true, decide_eq_true_eq]
        subst_vars
        exact ⟨⟨hlo, hk⟩, h3⟩
      · simp only [Memory.wfFrom, Bool.and_eq_true, decide_eq_true_eq]
        exact ⟨⟨h1, h2⟩, ih (by omega) h3⟩

/-- A write below the limit keeps the canonical form. -/
theorem Memory.wf_write {limit k : Nat} {m : Memory} (v : Word) (hk : k < limit)
    (hm : Memory.wf limit m = true) : Memory.wf limit (Memory.write m k v) = true :=
  Memory.wfFrom_write v (Nat.zero_le k) hk hm

theorem Memory.wfFrom_ofWords {limit k : Nat} {ws : List Word} (h : k + ws.length ≤ limit) :
    Memory.wfFrom limit k (Memory.ofWords k ws) = true := by
  induction ws generalizing k with
  | nil => rfl
  | cons v ws ih =>
    simp only [List.length_cons] at h
    simp only [Memory.ofWords, Memory.wfFrom, Bool.and_eq_true, decide_eq_true_eq]
    exact ⟨⟨Nat.le_refl _, by omega⟩, ih (by omega)⟩

/-- The storage a destination write leaves has the canonical form. -/
theorem Memory.wf_ofWords {limit : Nat} {ws : List Word} (h : ws.length ≤ limit) :
    Memory.wf limit (Memory.ofWords 0 ws) = true :=
  Memory.wfFrom_ofWords (by omega)

/-- Below its start a canonical storage defines nothing. -/
theorem Memory.read_of_lt {limit lo j : Nat} {m : Memory} (hm : Memory.wfFrom limit lo m = true)
    (hj : j < lo) : Memory.read m j = none := by
  induction m generalizing lo with
  | nil => rfl
  | cons p m ih =>
    simp only [Memory.wfFrom, Bool.and_eq_true, decide_eq_true_eq] at hm
    simp only [Memory.read]
    rw [if_neg (by omega)]
    exact ih hm.2 (by omega)

/-- At and above the limit a canonical storage defines nothing. -/
theorem Memory.read_of_ge {limit lo j : Nat} {m : Memory} (hm : Memory.wfFrom limit lo m = true)
    (hj : limit ≤ j) : Memory.read m j = none := by
  induction m generalizing lo with
  | nil => rfl
  | cons p m ih =>
    simp only [Memory.wfFrom, Bool.and_eq_true, decide_eq_true_eq] at hm
    simp only [Memory.read]
    rw [if_neg (by omega)]
    exact ih hm.2

/-- What the storage of a destination write reads as. -/
theorem Memory.read_ofWords (k j : Nat) (ws : List Word) :
    Memory.read (Memory.ofWords k ws) (k + j) = ws[j]? := by
  induction ws generalizing k j with
  | nil => simp [Memory.ofWords, Memory.read]
  | cons v ws ih =>
    cases j with
    | zero => simp [Memory.ofWords, Memory.read]
    | succ j =>
      simp only [Memory.ofWords, Memory.read]
      rw [if_neg (by omega), show k + (j + 1) = k + 1 + j by omega, ih]
      simp

/-- Equal reads make equal canonical storages. -/
theorem Memory.ext {limit lo : Nat} {m n : Memory} (hm : Memory.wfFrom limit lo m = true)
    (hn : Memory.wfFrom limit lo n = true) (h : ∀ k, Memory.read m k = Memory.read n k) : m = n := by
  induction m generalizing lo n with
  | nil =>
    cases n with
    | nil => rfl
    | cons q n => have := h q.1; simp [Memory.read] at this
  | cons p m ih =>
    cases n with
    | nil => have := h p.1; simp [Memory.read] at this
    | cons q n =>
      obtain ⟨i, u⟩ := p
      obtain ⟨j, v⟩ := q
      simp only [Memory.wfFrom, Bool.and_eq_true, decide_eq_true_eq] at hm hn
      have hij : i = j := by
        by_contra hne
        rcases Nat.lt_or_gt_of_ne hne with hlt | hlt
        · have := h i
          simp only [Memory.read, if_true] at this
          rw [if_neg (by omega), Memory.read_of_lt hn.2 (by omega)] at this
          cases this
        · have := h j
          simp only [Memory.read, if_true] at this
          rw [if_neg (by omega), Memory.read_of_lt hm.2 (by omega)] at this
          cases this
      subst hij
      have huv : u = v := by simpa [Memory.read] using h i
      subst huv
      congr 1
      refine ih hm.2 hn.2 fun k => ?_
      by_cases hk : i = k
      · subst hk
        rw [Memory.read_of_lt hm.2 (by omega), Memory.read_of_lt hn.2 (by omega)]
      · simpa [Memory.read, hk] using h k

/-- `collect` succeeds exactly with the words that the indexes read as. -/
theorem Memory.collect_eq_some {m : Memory} {k n : Nat} {ws : List Word} :
    Memory.collect m k n = some ws ↔
      ws.length = n ∧ ∀ j, j < n → Memory.read m (k + j) = ws[j]? := by
  induction n generalizing k ws with
  | zero =>
    simp only [Memory.collect, Option.some.injEq]
    constructor
    · rintro rfl; simp
    · rintro ⟨h, -⟩; exact (List.length_eq_zero_iff.mp h).symm
  | succ n ih =>
    constructor
    · intro h
      simp only [Memory.collect] at h
      split at h
      · rename_i v us hv hus
        cases h
        obtain ⟨h1, h2⟩ := ih.mp hus
        refine ⟨by simp [h1], fun j hj => ?_⟩
        cases j with
        | zero => simpa using hv
        | succ j =>
          have := h2 j (by omega)
          rw [show k + (j + 1) = k + 1 + j by omega, this]
          simp
      · cases h
    · rintro ⟨h1, h2⟩
      cases ws with
      | nil => simp at h1
      | cons v us =>
        have hv : Memory.read m k = some v := by simpa using h2 0 (by omega)
        have hus : Memory.collect m (k + 1) n = some us := by
          refine ih.mpr ⟨by simpa using h1, fun j hj => ?_⟩
          have := h2 (j + 1) (by omega)
          rw [show k + 1 + j = k + (j + 1) by omega, this]
          simp
        simp [Memory.collect, hv, hus]

/-- `collect` fails exactly where some index is undefined. -/
theorem Memory.collect_eq_none {m : Memory} {k n : Nat} :
    Memory.collect m k n = none ↔ ∃ j, j < n ∧ Memory.read m (k + j) = none := by
  induction n generalizing k with
  | zero => simp [Memory.collect]
  | succ n ih =>
    simp only [Memory.collect]
    split
    · rename_i v us hv hus
      simp only [reduceCtorEq, false_iff, not_exists, not_and]
      intro j hj
      cases j with
      | zero => simp [hv]
      | succ j =>
        have hn : ¬ ∃ j, j < n ∧ Memory.read m (k + 1 + j) = none := by
          rw [← ih, hus]; simp
        intro hc
        exact hn ⟨j, by omega, by rw [show k + 1 + j = k + (j + 1) by omega]; exact hc⟩
    · rename_i hno
      simp only [true_iff]
      rcases hv : Memory.read m k with _ | v
      · exact ⟨0, by omega, hv⟩
      · rcases hus : Memory.collect m (k + 1) n with _ | us
        · obtain ⟨j, hj, hjn⟩ := ih.mp hus
          exact ⟨j + 1, by omega, by rw [show k + (j + 1) = k + 1 + j by omega]; exact hjn⟩
        · exact (hno v us hv hus).elim

/-- The storage of a destination write gives its words back. -/
theorem Memory.collect_ofWords (ws : List Word) :
    Memory.collect (Memory.ofWords 0 ws) 0 ws.length = some ws := by
  refine Memory.collect_eq_some.mpr ⟨rfl, fun j _ => ?_⟩
  exact Memory.read_ofWords 0 j ws

end Sys2Proof.Machine
end

