-- ==== Sys2Proof/Laws/State.lean ====
section
/-!
SUPPORT. One lemma per field per named update of the state, each true by `rfl`, so that no proof
unfolds a record update.
-/

namespace Sys2Proof.Machine

variable (s : State) (i : RegId) (r : OperandReg) (z : Int) (c : Sign) (v : Word)
  (rest : List PortEvent)

/-! ### `setReg` -/

@[simp] theorem State.setReg_cfg : (s.setReg i r).cfg = s.cfg := rfl
@[simp] theorem State.setReg_err : (s.setReg i r).err = s.err := rfl
@[simp] theorem State.setReg_cmp : (s.setReg i r).cmp = s.cmp := rfl
@[simp] theorem State.setReg_cmpv : (s.setReg i r).cmpv = s.cmpv := rfl
@[simp] theorem State.setReg_finfo : (s.setReg i r).finfo = s.finfo := rfl
@[simp] theorem State.setReg_port : (s.setReg i r).port = s.port := rfl
@[simp] theorem State.setReg_answer : (s.setReg i r).answer = s.answer := rfl
@[simp] theorem State.setReg_draws : (s.setReg i r).draws = s.draws := rfl

/-! ### `put` -/

@[simp] theorem State.put_cfg : (s.put i z).cfg = s.cfg := rfl
@[simp] theorem State.put_err : (s.put i z).err = s.err := rfl
@[simp] theorem State.put_cmp : (s.put i z).cmp = s.cmp := rfl
@[simp] theorem State.put_cmpv : (s.put i z).cmpv = s.cmpv := rfl
@[simp] theorem State.put_finfo : (s.put i z).finfo = s.finfo := rfl
@[simp] theorem State.put_port : (s.put i z).port = s.port := rfl
@[simp] theorem State.put_answer : (s.put i z).answer = s.answer := rfl
@[simp] theorem State.put_draws : (s.put i z).draws = s.draws := rfl

/-! ### `setCompare` -/

@[simp] theorem State.setCompare_cfg : (s.setCompare c).cfg = s.cfg := rfl
@[simp] theorem State.setCompare_x : (s.setCompare c).x = s.x := rfl
@[simp] theorem State.setCompare_err : (s.setCompare c).err = s.err := rfl
@[simp] theorem State.setCompare_cmp : (s.setCompare c).cmp = c := rfl
@[simp] theorem State.setCompare_cmpv : (s.setCompare c).cmpv = true := rfl
@[simp] theorem State.setCompare_finfo : (s.setCompare c).finfo = s.finfo := rfl
@[simp] theorem State.setCompare_port : (s.setCompare c).port = s.port := rfl
@[simp] theorem State.setCompare_answer : (s.setCompare c).answer = s.answer := rfl
@[simp] theorem State.setCompare_draws : (s.setCompare c).draws = s.draws := rfl

/-! ### `clearFault` -/

@[simp] theorem State.clearFault_cfg : s.clearFault.cfg = s.cfg := rfl
@[simp] theorem State.clearFault_x : s.clearFault.x = s.x := rfl
@[simp] theorem State.clearFault_err : s.clearFault.err = none := rfl
@[simp] theorem State.clearFault_cmp : s.clearFault.cmp = s.cmp := rfl
@[simp] theorem State.clearFault_cmpv : s.clearFault.cmpv = s.cmpv := rfl
@[simp] theorem State.clearFault_finfo : s.clearFault.finfo = 0 := rfl
@[simp] theorem State.clearFault_port : s.clearFault.port = s.port := rfl
@[simp] theorem State.clearFault_answer : s.clearFault.answer = s.answer := rfl
@[simp] theorem State.clearFault_draws : s.clearFault.draws = s.draws := rfl

/-! ### `resetHardware` -/

@[simp] theorem State.resetHardware_cfg : s.resetHardware.cfg = s.cfg := rfl
@[simp] theorem State.resetHardware_x : s.resetHardware.x = Vector.replicate 16 OperandReg.reset := rfl
@[simp] theorem State.resetHardware_err : s.resetHardware.err = none := rfl
@[simp] theorem State.resetHardware_cmp : s.resetHardware.cmp = .zero := rfl
@[simp] theorem State.resetHardware_cmpv : s.resetHardware.cmpv = false := rfl
@[simp] theorem State.resetHardware_finfo : s.resetHardware.finfo = 0 := rfl
@[simp] theorem State.resetHardware_port : s.resetHardware.port = s.port := rfl
@[simp] theorem State.resetHardware_answer : s.resetHardware.answer = none := rfl
@[simp] theorem State.resetHardware_draws : s.resetHardware.draws = s.draws := rfl

/-! ### `answerUnspecified` -/

@[simp] theorem State.answerUnspecified_cfg : s.answerUnspecified.cfg = s.cfg := rfl
@[simp] theorem State.answerUnspecified_x : s.answerUnspecified.x = s.x := rfl
@[simp] theorem State.answerUnspecified_err : s.answerUnspecified.err = s.err := rfl
@[simp] theorem State.answerUnspecified_cmp : s.answerUnspecified.cmp = s.cmp := rfl
@[simp] theorem State.answerUnspecified_cmpv : s.answerUnspecified.cmpv = s.cmpv := rfl
@[simp] theorem State.answerUnspecified_finfo : s.answerUnspecified.finfo = s.finfo := rfl
@[simp] theorem State.answerUnspecified_port : s.answerUnspecified.port = s.port := rfl
@[simp] theorem State.answerUnspecified_answer : s.answerUnspecified.answer = some (Config.freeWord s.draws) := rfl
@[simp] theorem State.answerUnspecified_draws : s.answerUnspecified.draws = s.draws + 1 := rfl

/-! ### `answerWord` -/

@[simp] theorem State.answerWord_cfg : (s.answerWord v).cfg = s.cfg := rfl
@[simp] theorem State.answerWord_x : (s.answerWord v).x = s.x := rfl
@[simp] theorem State.answerWord_err : (s.answerWord v).err = s.err := rfl
@[simp] theorem State.answerWord_cmp : (s.answerWord v).cmp = s.cmp := rfl
@[simp] theorem State.answerWord_cmpv : (s.answerWord v).cmpv = s.cmpv := rfl
@[simp] theorem State.answerWord_finfo : (s.answerWord v).finfo = s.finfo := rfl
@[simp] theorem State.answerWord_port : (s.answerWord v).port = s.port := rfl
@[simp] theorem State.answerWord_answer : (s.answerWord v).answer = some v := rfl
@[simp] theorem State.answerWord_draws : (s.answerWord v).draws = s.draws := rfl

/-! ### `accept` -/

@[simp] theorem State.accept_cfg : (s.accept rest).cfg = s.cfg := rfl
@[simp] theorem State.accept_x : (s.accept rest).x = s.x := rfl
@[simp] theorem State.accept_err : (s.accept rest).err = s.err := rfl
@[simp] theorem State.accept_cmp : (s.accept rest).cmp = s.cmp := rfl
@[simp] theorem State.accept_cmpv : (s.accept rest).cmpv = s.cmpv := rfl
@[simp] theorem State.accept_finfo : (s.accept rest).finfo = s.finfo := rfl
@[simp] theorem State.accept_port : (s.accept rest).port = rest := rfl
@[simp] theorem State.accept_answer : (s.accept rest).answer = none := rfl
@[simp] theorem State.accept_draws : (s.accept rest).draws = s.draws := rfl

/-! ### Registers -/

@[simp] theorem State.reg_setReg_self : (s.setReg i r).reg i = r := by
  simp [State.reg, State.setReg]

theorem State.reg_setReg_ne {i j : RegId} (h : j ≠ i) : (s.setReg i r).reg j = s.reg j := by
  have : i.val ≠ j.val := fun e => h (Fin.ext e.symm)
  simp [State.reg, State.setReg, Vector.getElem_set_ne, this]

@[simp] theorem State.reg_put_self : (s.put i z).reg i = OperandReg.ofInt z := by
  simp [State.put]

theorem State.reg_put_ne {i j : RegId} (h : j ≠ i) : (s.put i z).reg j = s.reg j := by
  simp [State.put, State.reg_setReg_ne, h]

@[simp] theorem State.reg_setCompare : (s.setCompare c).reg i = s.reg i := rfl
@[simp] theorem State.reg_clearFault : s.clearFault.reg i = s.reg i := rfl
@[simp] theorem State.reg_answerUnspecified : s.answerUnspecified.reg i = s.reg i := rfl
@[simp] theorem State.reg_answerWord : (s.answerWord v).reg i = s.reg i := rfl
@[simp] theorem State.reg_accept : (s.accept rest).reg i = s.reg i := rfl

@[simp] theorem State.reg_resetHardware : s.resetHardware.reg i = OperandReg.reset := by
  simp [State.reg]

@[simp] theorem State.reg_resetWith (cfg : Config) : (State.resetWith cfg).reg i = OperandReg.reset := by
  simp [State.reg, State.resetWith]

/-- Two states with the same registers, read one by one, hold the same register file. -/
theorem State.x_ext {s t : State} (h : ∀ i, s.reg i = t.reg i) : s.x = t.x := by
  apply Vector.ext
  intro k hk
  exact h ⟨k, hk⟩

end Sys2Proof.Machine
end

