-- ==== Sys2Proof/Laws/Ops.lean ====
section
/-!
SUPPORT. One lemma per shared operation: what taking a fault does, what a destination write leaves, what
a valid register holds, and every way a command can end.
-/

namespace Sys2Proof.Machine

/-! ### Taking a fault -/

theorem State.raise_of_none {s : State} (h : s.err = none) (f : FaultCode) (info : Word) :
    s.raise f info = { s with err := some f, finfo := info } := by
  rw [State.raise, h]

theorem State.raise_of_some {s : State} {g : FaultCode} (h : s.err = some g) (f : FaultCode)
    (info : Word) : s.raise f info = s := by
  rw [State.raise, h]

variable (s : State) (f : FaultCode) (info : Word)

@[simp] theorem State.raise_cfg : (s.raise f info).cfg = s.cfg := by
  unfold State.raise; split <;> rfl
@[simp] theorem State.raise_x : (s.raise f info).x = s.x := by
  unfold State.raise; split <;> rfl
@[simp] theorem State.raise_cmp : (s.raise f info).cmp = s.cmp := by
  unfold State.raise; split <;> rfl
@[simp] theorem State.raise_cmpv : (s.raise f info).cmpv = s.cmpv := by
  unfold State.raise; split <;> rfl
@[simp] theorem State.raise_port : (s.raise f info).port = s.port := by
  unfold State.raise; split <;> rfl
@[simp] theorem State.raise_answer : (s.raise f info).answer = s.answer := by
  unfold State.raise; split <;> rfl
@[simp] theorem State.raise_draws : (s.raise f info).draws = s.draws := by
  unfold State.raise; split <;> rfl
@[simp] theorem State.reg_raise (i : RegId) : (s.raise f info).reg i = s.reg i := by
  simp [State.reg]

/-! ### Destination writes -/

/-- A destination write leaves the value `mk(z)` (R8). -/
theorem OperandReg.value_ofInt (z : Int) : (OperandReg.ofInt z).value = some (mkValue z) := by
  have h := Memory.collect_ofWords (words z.natAbs)
  rw [length_words] at h
  simp [OperandReg.value, OperandReg.ofInt, h, mkValue]

/-- `int(mk(z)) = z` (R7). -/
theorem Value.int_mkValue (z : Int) : (mkValue z).int = z := by
  rw [Value.int, mkValue, val_words, sgn_toInt_mul_natAbs]

theorem Value.wf_mkValue (z : Int) : (mkValue z).wf = true := by
  simp [Value.wf, mkValue, canonical_words, sgn_eq_zero_iff]

@[simp] theorem State.rd_put_self (i : RegId) (z : Int) : (s.put i z).rd i = some z := by
  simp [State.rd, OperandReg.value_ofInt, Value.int_mkValue]

theorem State.rd_put_ne {i j : RegId} (h : j ≠ i) (z : Int) : (s.put i z).rd j = s.rd j := by
  simp [State.rd, State.reg_put_ne, h]

/-- A destination register that the integer fits is well formed (R36). -/
theorem OperandReg.wf_ofInt {maxw : Nat} {z : Int} (hm : 1 ≤ maxw) (h : z.natAbs < B ^ maxw) :
    (OperandReg.ofInt z).Wf maxw := by
  have hl : wordLen z.natAbs ≤ maxw := (wordLen_le_iff hm).mpr h
  refine ⟨Memory.wf_ofWords (by simpa using hl), wordLen_pos _, hl, fun _ => ?_⟩
  rw [OperandReg.value_ofInt]
  exact Value.wf_mkValue z

/-- What a destination write leaves is what `Holds` says (R8, R25). -/
theorem holds_ofInt {t : State} {d : RegId} {z : Int} (h : t.reg d = OperandReg.ofInt z) :
    Holds t d z := by
  refine ⟨by rw [h]; rfl, by rw [h]; rfl, by rw [h, length_words]; rfl, fun k => ?_, ?_⟩
  · have hr := Memory.read_ofWords 0 k (words z.natAbs)
    rw [Nat.zero_add] at hr
    rw [h]
    exact hr
  · simp [State.rd, h, OperandReg.value_ofInt, Value.int_mkValue]

/-! ### What a register holds -/

/-- A register reads as an integer exactly when it is valid and its words below `len` are defined. -/
theorem State.rd_eq_some {s : State} {i : RegId} {z : Int} :
    s.rd i = some z ↔ (s.reg i).valid = true ∧
      ∃ m, Memory.collect (s.reg i).w 0 (s.reg i).len = some m ∧ (s.reg i).sign.toInt * (val m : Int) = z := by
  simp only [State.rd, OperandReg.value]
  split
  · rename_i h
    simp [h, Value.int]
  · rename_i h
    simp [h]

theorem State.rd_of_invalid {s : State} {i : RegId} (h : (s.reg i).valid = false) : s.rd i = none := by
  simp [State.rd, OperandReg.value, h]

/-- A valid well-formed register holds an integer that fits, and holds it as `mk` of it (R36). -/
theorem OperandReg.Wf.holds {maxw : Nat} {r : OperandReg} (h : r.Wf maxw) (hv : r.valid = true) :
    ∃ z : Int, r.value = some (mkValue z) ∧ z.natAbs < B ^ maxw ∧ r.sign = sgn z ∧
      r.len = wordLen z.natAbs := by
  obtain ⟨-, -, hle, hval⟩ := h
  have h1 := hval hv
  simp only [OperandReg.value, hv, if_true] at h1 ⊢
  rcases hc : Memory.collect r.w 0 r.len with _ | m
  · simp [hc] at h1
  · simp only [hc, Option.map_some, Option.any_some, Value.wf, Bool.and_eq_true, beq_iff_eq,
      decide_eq_decide] at h1 ⊢
    obtain ⟨hcan, hz⟩ := h1
    have hlen := (Memory.collect_eq_some.mp hc).1
    have hnat := natAbs_toInt_mul hz
    have hlt : val m < B ^ maxw :=
      lt_of_lt_of_le (val_lt m) (Nat.pow_le_pow_right (by norm_num) (by omega))
    refine ⟨r.sign.toInt * (val m : Int), ?_, by rw [hnat]; exact hlt, (sgn_toInt_mul hz).symm, ?_⟩
    · rw [mkValue, sgn_toInt_mul hz, hnat, words_val hcan]
    · rw [hnat, wordLen_val hcan, hlen]

/-- In a state that meets the invariant a valid register is read as an integer that fits. -/
theorem State.Inv.rd_valid {s : State} (h : s.Inv) {i : RegId} (hv : (s.reg i).valid = true) :
    ∃ z, s.rd i = some z := by
  obtain ⟨z, hz, -⟩ := (h.1 i).holds hv
  exact ⟨z, by rw [State.rd, hz, Option.map_some, Value.int_mkValue]⟩

theorem State.Inv.natAbs_lt {s : State} (h : s.Inv) {i : RegId} {z : Int} (hz : s.rd i = some z) :
    z.natAbs < B ^ s.cfg.maxw := by
  have hv := (State.rd_eq_some.mp hz).1
  obtain ⟨y, hy, hlt, -⟩ := (h.1 i).holds hv
  rw [State.rd, hy, Option.map_some, Value.int_mkValue, Option.some_inj] at hz
  exact hz ▸ hlt

theorem State.Inv.rd_none_iff {s : State} (h : s.Inv) {i : RegId} :
    s.rd i = none ↔ (s.reg i).valid = false := by
  constructor
  · intro hn
    by_contra hv
    obtain ⟨z, hz⟩ := h.rd_valid (i := i) (by simpa using hv)
    rw [hn] at hz
    cases hz
  · exact State.rd_of_invalid

/-! ### The six steps of a command (R91) -/

theorem withOne_of_some {s : State} {a : RegId} {x : Int} (h : s.rd a = some x) (k : Int → Computed) :
    withOne s a k = k x := by
  simp [withOne, h]

theorem withOne_of_none {s : State} {a : RegId} (h : s.rd a = none) (k : Int → Computed) :
    withOne s a k = .error .absent := by
  simp [withOne, h]

theorem withTwo_of_some {s : State} {a b : RegId} {x y : Int} (ha : s.rd a = some x)
    (hb : s.rd b = some y) (k : Int → Int → Computed) : withTwo s a b k = k x y := by
  simp [withTwo, withOne, ha, hb]

theorem withThree_of_some {s : State} {a b m : RegId} {x y z : Int} (ha : s.rd a = some x)
    (hb : s.rd b = some y) (hm : s.rd m = some z) (k : Int → Int → Int → Computed) :
    withThree s a b m k = k x y z := by
  simp [withThree, withOne, ha, hb, hm]

/-- A command always answers a next state. -/
theorem command_next (i : Instr) (s : State) (k : Computed) : ∃ t, command i s k = .next t := by
  unfold command
  split
  · split <;> exact ⟨_, rfl⟩
  · exact ⟨_, rfl⟩

/-- A legal command that computes a fault raises it with its command word. -/
theorem command_error {i : Instr} (hi : i.wf = true) (s : State) (f : FaultCode) :
    command i s (.error f) = .next (s.raise f (encode i)) := by
  simp [command, hi, State.attempt]

theorem command_value {i : Instr} (hi : i.wf = true) {s : State} {d : RegId} {z : Int}
    (hz : z.natAbs < B ^ s.cfg.maxw) : command i s (.ok (.value d z)) = .next (s.put d z) := by
  simp [command, hi, State.attempt, State.commit, State.fits, hz]

theorem command_value_capacity {i : Instr} (hi : i.wf = true) {s : State} {d : RegId} {z : Int}
    (hz : B ^ s.cfg.maxw ≤ z.natAbs) :
    command i s (.ok (.value d z)) = .next (s.raise .capacity (encode i)) := by
  simp [command, hi, State.attempt, State.commit, State.fits, Nat.not_lt.mpr hz]

theorem command_pair {i : Instr} (hi : i.wf = true) {s : State} {d e : RegId} {q r : Int}
    (hq : q.natAbs < B ^ s.cfg.maxw) (hr : r.natAbs < B ^ s.cfg.maxw) :
    command i s (.ok (.pair d q e r)) = .next ((s.put d q).put e r) := by
  simp [command, hi, State.attempt, State.commit, State.fits, hq, hr]

theorem command_compare {i : Instr} (hi : i.wf = true) {s : State} {c : Sign} :
    command i s (.ok (.compare c)) = .next (s.setCompare c) := by
  simp [command, hi, State.attempt, State.commit]

/-- What a command computes is written where its fields say: one destination, two, or the flags; and
it raises no fault that only the host's own accesses raise. -/
def Aims (i : Instr) : Computed → Prop
  | .error f => f ≠ .format ∧ f ≠ .bus
  | .ok (.value d _) => i.dests = [d] ∧ i.writesFlags = false
  | .ok (.pair d _ e _) => i.dests = [d, e] ∧ i.writesFlags = false
  | .ok (.compare _) => i.dests = [] ∧ i.writesFlags = true

theorem aims_withOne {i : Instr} {s : State} {a : RegId} {k : Int → Computed}
    (h : ∀ x, Aims i (k x)) : Aims i (withOne s a k) := by
  unfold withOne
  split
  · exact ⟨nofun, nofun⟩
  · exact h _

theorem aims_withTwo {i : Instr} {s : State} {a b : RegId} {k : Int → Int → Computed}
    (h : ∀ x y, Aims i (k x y)) : Aims i (withTwo s a b k) :=
  aims_withOne fun x => aims_withOne fun y => h x y

theorem aims_withThree {i : Instr} {s : State} {a b m : RegId} {k : Int → Int → Int → Computed}
    (h : ∀ x y z, Aims i (k x y z)) : Aims i (withThree s a b m k) :=
  aims_withOne fun x => aims_withOne fun y => aims_withOne fun z => h x y z

theorem aims_withOddModulus {i : Instr} {m : Int} {k : Computed} (h : Aims i k) :
    Aims i (withOddModulus m k) := by
  unfold withOddModulus
  split
  · exact ⟨nofun, nofun⟩
  · split
    · exact ⟨nofun, nofun⟩
    · exact h

/-! The meaning of each command as the six steps of R91 on what it computes. -/

theorem exec_add (d a b : RegId) (s : State) :
    exec (.add d a b) s =
      command (.add d a b) s (withTwo s a b fun x y => .ok (.value d (x + y))) := rfl

theorem exec_sub (d a b : RegId) (s : State) :
    exec (.sub d a b) s =
      command (.sub d a b) s (withTwo s a b fun x y => .ok (.value d (x - y))) := rfl

theorem exec_neg (d a : RegId) (s : State) :
    exec (.neg d a) s =
      command (.neg d a) s (withOne s a fun x => .ok (.value d (-x))) := rfl

theorem exec_abs (d a : RegId) (s : State) :
    exec (.abs d a) s =
      command (.abs d a) s (withOne s a fun x => .ok (.value d (x.natAbs : Int))) := rfl

theorem exec_cmpm (a b : RegId) (s : State) :
    exec (.cmpm a b) s =
      command (.cmpm a b) s (withTwo s a b fun x y =>
        .ok (.compare (sgn ((x.natAbs : Int) - (y.natAbs : Int))))) := rfl

theorem exec_cmp (a b : RegId) (s : State) :
    exec (.cmp a b) s =
      command (.cmp a b) s (withTwo s a b fun x y => .ok (.compare (sgn (x - y)))) := rfl

theorem exec_mul (d a b : RegId) (s : State) :
    exec (.mul d a b) s =
      command (.mul d a b) s (withTwo s a b fun x y => .ok (.value d (x * y))) := rfl

theorem exec_divrem (d e a b : RegId) (s : State) :
    exec (.divrem d e a b) s =
      command (.divrem d e a b) s (withTwo s a b fun x y =>
        if y = 0 then .error .divZero else .ok (.pair d (divrem x y).1 e (divrem x y).2)) := rfl

theorem exec_div (d a b : RegId) (s : State) :
    exec (.div d a b) s =
      command (.div d a b) s (withTwo s a b fun x y =>
        if y = 0 then .error .divZero else .ok (.value d (divrem x y).1)) := rfl

theorem exec_rem (d a b : RegId) (s : State) :
    exec (.rem d a b) s =
      command (.rem d a b) s (withTwo s a b fun x y =>
        if y = 0 then .error .divZero else .ok (.value d (divrem x y).2)) := rfl

theorem exec_mod (d a b : RegId) (s : State) :
    exec (.mod d a b) s =
      command (.mod d a b) s (withTwo s a b fun x m =>
        if m ≤ 0 then .error .modulus else .ok (.value d (modulo x m))) := rfl

theorem exec_montmul (d a b m : RegId) (s : State) :
    exec (.montmul d a b m) s =
      command (.montmul d a b m) s (withThree s a b m fun x y n =>
        withOddModulus n (
          if x < 0 ∨ x ≥ n ∨ y < 0 ∨ y ≥ n then .error .range else .ok (.value d (monpro x y n)))) := rfl

theorem exec_montred (d a m : RegId) (s : State) :
    exec (.montred d a m) s =
      command (.montred d a m) s (withTwo s a m fun t n =>
        withOddModulus n (
          if t < 0 ∨ t ≥ n * montR n then .error .range else .ok (.value d (monred t n)))) := rfl

theorem exec_montin (d a m : RegId) (s : State) :
    exec (.montin d a m) s =
      command (.montin d a m) s (withTwo s a m fun x n =>
        withOddModulus n (.ok (.value d (modulo (x * montR n) n)))) := rfl

theorem exec_modpow (d a b m : RegId) (s : State) :
    exec (.modpow d a b m) s =
      command (.modpow d a b m) s (withThree s a b m fun base e n =>
        if n ≤ 0 then .error .modulus
        else
          match modpow base e n with
          | none => .error .noInverse
          | some z => .ok (.value d z)) := rfl

theorem exec_modinv (d a m : RegId) (s : State) :
    exec (.modinv d a m) s =
      command (.modinv d a m) s (withTwo s a m fun x n =>
        if n ≤ 0 then .error .modulus
        else
          match modinv x n with
          | none => .error .noInverse
          | some z => .ok (.value d z)) := rfl

/-- Every command is the six steps of R91 on what it computes, aimed at its own destinations. -/
theorem exec_eq_command (i : Instr) (s : State) : ∃ k, exec i s = command i s k ∧ Aims i k := by
  cases i with
  | add d a b => exact ⟨_, rfl, aims_withTwo fun _ _ => ⟨rfl, rfl⟩⟩
  | sub d a b => exact ⟨_, rfl, aims_withTwo fun _ _ => ⟨rfl, rfl⟩⟩
  | neg d a => exact ⟨_, rfl, aims_withOne fun _ => ⟨rfl, rfl⟩⟩
  | abs d a => exact ⟨_, rfl, aims_withOne fun _ => ⟨rfl, rfl⟩⟩
  | cmpm a b => exact ⟨_, rfl, aims_withTwo fun _ _ => ⟨rfl, rfl⟩⟩
  | cmp a b => exact ⟨_, rfl, aims_withTwo fun _ _ => ⟨rfl, rfl⟩⟩
  | mul d a b => exact ⟨_, rfl, aims_withTwo fun _ _ => ⟨rfl, rfl⟩⟩
  | divrem d e a b =>
    exact ⟨_, rfl, aims_withTwo fun _ _ => by split <;> [exact ⟨nofun, nofun⟩; exact ⟨rfl, rfl⟩]⟩
  | div d a b => exact ⟨_, rfl, aims_withTwo fun _ _ => by split <;> [exact ⟨nofun, nofun⟩; exact ⟨rfl, rfl⟩]⟩
  | rem d a b => exact ⟨_, rfl, aims_withTwo fun _ _ => by split <;> [exact ⟨nofun, nofun⟩; exact ⟨rfl, rfl⟩]⟩
  | mod d a b => exact ⟨_, rfl, aims_withTwo fun _ _ => by split <;> [exact ⟨nofun, nofun⟩; exact ⟨rfl, rfl⟩]⟩
  | montmul d a b m =>
    exact ⟨_, rfl, aims_withThree fun _ _ _ =>
      aims_withOddModulus (by split <;> [exact ⟨nofun, nofun⟩; exact ⟨rfl, rfl⟩])⟩
  | montred d a m =>
    exact ⟨_, rfl, aims_withTwo fun _ _ =>
      aims_withOddModulus (by split <;> [exact ⟨nofun, nofun⟩; exact ⟨rfl, rfl⟩])⟩
  | montin d a m => exact ⟨_, rfl, aims_withTwo fun _ _ => aims_withOddModulus ⟨rfl, rfl⟩⟩
  | modpow d a b m =>
    exact ⟨_, rfl, aims_withThree fun _ _ _ => by
      split
      · exact ⟨nofun, nofun⟩
      · split <;> [exact ⟨nofun, nofun⟩; exact ⟨rfl, rfl⟩]⟩
  | modinv d a m =>
    exact ⟨_, rfl, aims_withTwo fun _ _ => by
      split
      · exact ⟨nofun, nofun⟩
      · split <;> [exact ⟨nofun, nofun⟩; exact ⟨rfl, rfl⟩]⟩

/-- Every way a command can end: a fault with its command word, one destination written, two, or the
flags. Cite this instead of unfolding `exec`. -/
theorem exec_cases {i : Instr} {s t : State} (h : exec i s = .next t) :
    (∃ f, f ≠ .format ∧ f ≠ .bus ∧ t = s.raise f (encode i)) ∨
    (∃ d z, i.dests = [d] ∧ i.writesFlags = false ∧ z.natAbs < B ^ s.cfg.maxw ∧ t = s.put d z) ∨
    (∃ d q e r, i.dests = [d, e] ∧ i.writesFlags = false ∧ q.natAbs < B ^ s.cfg.maxw ∧
      r.natAbs < B ^ s.cfg.maxw ∧ t = (s.put d q).put e r) ∨
    (∃ c, i.dests = [] ∧ i.writesFlags = true ∧ t = s.setCompare c) := by
  obtain ⟨k, hk, ha⟩ := exec_eq_command i s
  rw [hk] at h
  unfold command at h
  split at h
  · rcases k with f | e
    · simp only [State.attempt] at h
      cases h
      exact Or.inl ⟨f, ha.1, ha.2, rfl⟩
    · cases e with
      | value d z =>
        simp only [State.attempt, State.commit, State.fits, decide_eq_true_eq] at h
        by_cases hz : z.natAbs < B ^ s.cfg.maxw
        · simp only [hz, if_true] at h
          cases h
          exact Or.inr (Or.inl ⟨d, z, ha.1, ha.2, hz, rfl⟩)
        · simp only [hz, if_false] at h
          cases h
          exact Or.inl ⟨.capacity, nofun, nofun, rfl⟩
      | pair d q e r =>
        simp only [State.attempt, State.commit, State.fits, Bool.and_eq_true, decide_eq_true_eq] at h
        by_cases hz : q.natAbs < B ^ s.cfg.maxw ∧ r.natAbs < B ^ s.cfg.maxw
        · simp only [hz, and_self, if_true] at h
          cases h
          exact Or.inr (Or.inr (Or.inl ⟨d, q, e, r, ha.1, ha.2, hz.1, hz.2, rfl⟩))
        · simp only [hz, if_false] at h
          cases h
          exact Or.inl ⟨.capacity, nofun, nofun, rfl⟩
      | compare c =>
        simp only [State.attempt, State.commit] at h
        cases h
        exact Or.inr (Or.inr (Or.inr ⟨c, ha.1, ha.2, rfl⟩))
  · cases h
    exact Or.inl ⟨.illegal, nofun, nofun, rfl⟩

end Sys2Proof.Machine
end

