-- ==== Sys2Proof/Laws/Port.lean ====
section
/-!
SUPPORT. The host port: what the addresses of HDR and WORD select, what a seal can do, and every way a
step can end.
-/

namespace Sys2Proof.Machine

/-! ### Addresses (R52, R53) -/

theorem slice_lt {n : Nat} (hi lo : Nat) (v : BitVec n) : slice hi lo v < 2 ^ (hi + 1 - lo) :=
  Nat.mod_lt _ (Nat.two_pow_pos _)

theorem targetOf_wordAddr {maxw k : Nat} (r : RegId) (hk : k < maxw) (hm : maxw ≤ 2047) :
    targetOf maxw (wordAddr r k) = .word r k := by
  have hr := r.isLt
  have h1 : slice 15 15 (wordAddr r k) = 1 := by
    simp only [slice, wordAddr, BitVec.toNat_ofNat]; omega
  have h2 : slice 10 0 (wordAddr r k) = k + 1 := by
    simp only [slice, wordAddr, BitVec.toNat_ofNat]; norm_num; omega
  have h3 : slice 14 11 (wordAddr r k) = r.val := by
    simp only [slice, wordAddr, BitVec.toNat_ofNat]; norm_num; omega
  have h4 : regOf r.val = r := Fin.ext (by simp [regOf])
  rw [targetOf, h1, h2, h3, h4, if_pos rfl, if_neg (by omega), if_pos (by omega)]
  simp

theorem targetOf_hdrAddr (maxw : Nat) (r : RegId) : targetOf maxw (hdrAddr r) = .hdr r := by
  have hr := r.isLt
  have h1 : slice 15 15 (hdrAddr r) = 1 := by
    simp only [slice, hdrAddr, BitVec.toNat_ofNat]; omega
  have h2 : slice 10 0 (hdrAddr r) = 0 := by
    simp only [slice, hdrAddr, BitVec.toNat_ofNat]; omega
  have h3 : slice 14 11 (hdrAddr r) = r.val := by
    simp only [slice, hdrAddr, BitVec.toNat_ofNat]; norm_num; omega
  have h4 : regOf r.val = r := Fin.ext (by simp [regOf])
  rw [targetOf, h1, h2, h3, h4, if_pos rfl, if_pos rfl]

@[simp] theorem targetOf_cmd (maxw : Nat) : targetOf maxw 0x0000 = .cmd := rfl
@[simp] theorem targetOf_status (maxw : Nat) : targetOf maxw 0x0001 = .status := rfl
@[simp] theorem targetOf_finfo (maxw : Nat) : targetOf maxw 0x0002 = .finfo := rfl
@[simp] theorem targetOf_cfg (maxw : Nat) : targetOf maxw 0x0003 = .cfg := rfl

/-- Only an address below `MAXW` words of a register selects a word. -/
theorem targetOf_word_lt {maxw : Nat} {a : Addr} {r : RegId} {k : Nat}
    (h : targetOf maxw a = .word r k) : k < maxw := by
  unfold targetOf at h
  split at h
  · split at h
    · cases h
    · split at h
      · cases h; omega
      · cases h
  · repeat' split at h
    all_goals cases h

/-- Only `WORD(r, k)` selects word `k` of register `r`. -/
theorem targetOf_word_addr {maxw : Nat} {a : Addr} {r : RegId} {k : Nat}
    (h : targetOf maxw a = .word r k) : a = wordAddr r k := by
  unfold targetOf at h
  split at h
  · split at h
    · cases h
    · split at h
      · cases h
        apply BitVec.eq_of_toNat_eq
        have := a.isLt
        simp only [slice, wordAddr, regOf, Fin.ofNat, BitVec.toNat_ofNat] at *
        norm_num at *
        omega
      · cases h
  · repeat' split at h
    all_goals cases h

/-- Only `HDR(r)` selects the header of register `r`. -/
theorem targetOf_hdr_addr {maxw : Nat} {a : Addr} {r : RegId} (h : targetOf maxw a = .hdr r) :
    a = hdrAddr r := by
  unfold targetOf at h
  split at h
  · split at h
    · cases h
      apply BitVec.eq_of_toNat_eq
      have := a.isLt
      simp only [slice, hdrAddr, regOf, Fin.ofNat, BitVec.toNat_ofNat] at *
      norm_num at *
      omega
    · split at h <;> cases h
  · repeat' split at h
    all_goals cases h

/-! ### Seals (R59) -/

/-- Every way a seal can succeed: a legal header over defined words whose value agrees with the sign. -/
theorem OperandReg.sealed_ok {maxw : Nat} {r x : OperandReg} {data : Word}
    (h : r.sealed maxw data = .ok x) :
    ∃ c m, signOfCode (slice 1 0 data) = some c ∧ 1 ≤ slice 27 16 data ∧ slice 27 16 data ≤ maxw ∧
      Memory.collect r.w 0 (slice 27 16 data) = some m ∧ (c = .zero ↔ val (trim m) = 0) ∧
      x = { r with valid := true, sign := c, len := (trim m).length } := by
  unfold OperandReg.sealed at h
  split at h
  · cases h
  · split at h
    · cases h
    · rename_i c hc
      split at h
      · cases h
      · rename_i hn
        split at h
        · cases h
        · rename_i m hm
          split at h
          · cases h
          · rename_i h1
            split at h
            · cases h
            · rename_i h2
              cases h
              exact ⟨c, m, hc, by omega, by omega, hm, by tauto, rfl⟩

/-- A seal raises `Format` or `Absent`, nothing else. -/
theorem OperandReg.sealed_error {maxw : Nat} {r : OperandReg} {data : Word} {f : FaultCode}
    (h : r.sealed maxw data = .error f) : f = .format ∨ f = .absent := by
  unfold OperandReg.sealed at h
  repeat' split at h
  all_goals first | (cases h; simp) | cases h

/-- A seal keeps a register well formed (R36). -/
theorem OperandReg.Wf.sealed {maxw : Nat} {r x : OperandReg} {data : Word} (hr : r.Wf maxw)
    (h : r.sealed maxw data = .ok x) : x.Wf maxw := by
  obtain ⟨c, m, -, hn1, hn2, hm, hz, rfl⟩ := OperandReg.sealed_ok h
  obtain ⟨hlen, hread⟩ := Memory.collect_eq_some.mp hm
  have hne : m ≠ [] := by rintro rfl; simp at hlen; omega
  have hcan := canonical_trim hne
  have hle := length_trim_le m
  have hpos : 1 ≤ (trim m).length := List.length_pos_iff.mpr (canonical_iff.mp hcan).1
  have hcol : Memory.collect r.w 0 (trim m).length = some (trim m) := by
    refine Memory.collect_eq_some.mpr ⟨rfl, fun j hj => ?_⟩
    rw [hread j (by omega), trim_getElem? m j hj]
  refine ⟨hr.1, hpos, by simp only; omega, fun _ => ?_⟩
  simp only [OperandReg.value, if_true, hcol, Option.map_some, Option.any_some, Value.wf, hcan,
    Bool.true_and, beq_iff_eq, decide_eq_decide]
  exact hz

/-! ### Steps -/

/-- A step performs the host's first pending event. -/
theorem step_cons {s : State} {t : PortEvent} {rest : List PortEvent} (h : s.port = t :: rest) :
    step s = perform t (s.accept rest) := by
  rw [step, h]

theorem step_idle {s : State} (h : s.port = []) : step s = .next s := by
  rw [step, h]

theorem executeWord_ok {c : Word} {i : Instr} (h : decode c = .ok i) (s : State) :
    executeWord c s = exec i s := by
  rw [executeWord, h]

theorem executeWord_error {c : Word} {e : DecodeError} (h : decode c = .error e) (s : State) :
    executeWord c s = .next (s.raise .illegal c) := by
  rw [executeWord, h]

/-- Outside the faulted state a write does what the address selects (R57). -/
theorem hostWrite_of_none {s : State} (h : s.err = none) (a : Addr) (data : Word) :
    hostWrite a data s =
      match targetOf s.cfg.maxw a with
      | .cmd => executeWord data s
      | .status => if isClear a data then .next s.clearFault else .next s
      | .finfo => .next (s.raise .bus (addrInfo a))
      | .cfg => .next (s.raise .bus (addrInfo a))
      | .hdr r => .next (s.sealReg r a data)
      | .word r k => .next (s.stage r k data)
      | .unmapped => .next (s.raise .bus (addrInfo a)) := by
  unfold hostWrite
  rw [h]
  rfl

/-- Every way a write can end (R57). Cite this instead of unfolding `hostWrite`. -/
theorem hostWrite_cases {a : Addr} {data : Word} {s t : State} (h : hostWrite a data s = .next t) :
    t = s ∨ t = s.clearFault ∨ t = s.raise .bus (addrInfo a) ∨
    (s.err = none ∧ a = 0x0000 ∧ executeWord data s = .next t) ∨
    (s.err = none ∧ ∃ r, targetOf s.cfg.maxw a = .hdr r ∧ t = s.sealReg r a data) ∨
    (s.err = none ∧ ∃ r k, targetOf s.cfg.maxw a = .word r k ∧ t = s.stage r k data) := by
  unfold hostWrite at h
  split at h
  · cases h; exact Or.inl rfl
  · rename_i hc
    have herr : isClear a data = false → s.err = none := by
      intro hcl
      simpa [hcl] using hc
    have hcl : ∀ x, targetOf s.cfg.maxw a = x → x ≠ .status → isClear a data = false := by
      rintro x hx hne
      by_contra hcc
      simp only [isClear, Bool.not_eq_false, Bool.and_eq_true, decide_eq_true_eq] at hcc
      rw [hcc.1, targetOf_status] at hx
      exact hne hx.symm
    split at h
    · rename_i ht
      have ha : a = 0x0000 := by
        unfold targetOf at ht
        repeat' split at ht
        all_goals first | assumption | cases ht
      exact Or.inr (Or.inr (Or.inr (Or.inl ⟨herr (hcl _ ht (by simp)), ha, h⟩)))
    · split at h <;> cases h
      · exact Or.inr (Or.inl rfl)
      · exact Or.inl rfl
    · cases h; exact Or.inr (Or.inr (Or.inl rfl))
    · cases h; exact Or.inr (Or.inr (Or.inl rfl))
    · rename_i r ht
      cases h
      exact Or.inr (Or.inr (Or.inr (Or.inr (Or.inl ⟨herr (hcl _ ht (by simp)), r, ht, rfl⟩))))
    · rename_i r k ht
      cases h
      exact Or.inr (Or.inr (Or.inr (Or.inr (Or.inr ⟨herr (hcl _ ht (by simp)), r, k, ht, rfl⟩))))
    · cases h; exact Or.inr (Or.inr (Or.inl rfl))

/-- What a read can do (R56): it answers a word, after raising `Bus` where it selects nothing
readable. -/
theorem hostRead_cases (a : Addr) (s : State) :
    (∃ v, hostRead a s = s.answerWord v) ∨ hostRead a s = s.answerUnspecified ∨
      hostRead a s = (s.raise .bus (addrInfo a)).answerUnspecified := by
  unfold hostRead
  split
  · exact Or.inr (Or.inr rfl)
  · exact Or.inl ⟨_, rfl⟩
  · exact Or.inl ⟨_, rfl⟩
  · exact Or.inl ⟨_, rfl⟩
  · exact Or.inl ⟨_, rfl⟩
  · split
    · exact Or.inl ⟨_, rfl⟩
    · exact Or.inr (Or.inl rfl)
  · exact Or.inr (Or.inr rfl)

/-- Every way a step can end, with the transaction that ends it so. `u` is the state with that
transaction taken from the list. Cite this instead of unfolding `step`. -/
theorem step_cases {s t : State} (h : step s = .next t) :
    (s.port = [] ∧ t = s) ∨
    ∃ e rest, s.port = e :: rest ∧
      ((e = .reset ∧ t = (s.accept rest).resetHardware) ∨
      (∃ a, e = .read a ∧ t = hostRead a (s.accept rest)) ∨
      (∃ a data, e = .write a data ∧
        (t = s.accept rest ∨ t = (s.accept rest).clearFault ∨
          t = (s.accept rest).raise .bus (addrInfo a))) ∨
      (∃ c i, e = .write 0x0000 c ∧ s.err = none ∧ decode c = .ok i ∧
        exec i (s.accept rest) = .next t) ∨
      (∃ c x, e = .write 0x0000 c ∧ s.err = none ∧ decode c = .error x ∧
        t = (s.accept rest).raise .illegal c) ∨
      (∃ r data, e = .write (hdrAddr r) data ∧ s.err = none ∧
        t = (s.accept rest).sealReg r (hdrAddr r) data) ∨
      (∃ r k data, e = .write (wordAddr r k) data ∧ s.err = none ∧ k < s.cfg.maxw ∧
        t = (s.accept rest).stage r k data)) := by
  rcases hp : s.port with _ | ⟨e, rest⟩
  · rw [step_idle hp] at h
    cases h
    exact Or.inl ⟨rfl, rfl⟩
  · refine Or.inr ⟨e, rest, rfl, ?_⟩
    rw [step_cons hp] at h
    cases e with
    | reset => cases h; exact Or.inl ⟨rfl, rfl⟩
    | read a => cases h; exact Or.inr (Or.inl ⟨a, rfl, rfl⟩)
    | write a data =>
      refine Or.inr (Or.inr ?_)
      rcases hostWrite_cases h with rfl | rfl | rfl | ⟨he, rfl, hx⟩ | ⟨he, r, ht, rfl⟩ | ⟨he, r, k, ht, rfl⟩
      · exact Or.inl ⟨a, data, rfl, Or.inl rfl⟩
      · exact Or.inl ⟨a, data, rfl, Or.inr (Or.inl rfl)⟩
      · exact Or.inl ⟨a, data, rfl, Or.inr (Or.inr rfl)⟩
      · rcases hd : decode data with x | i
        · rw [executeWord_error hd] at hx
          cases hx
          exact Or.inr (Or.inr (Or.inl ⟨data, x, rfl, he, hd, rfl⟩))
        · rw [executeWord_ok hd] at hx
          exact Or.inr (Or.inl ⟨data, i, rfl, he, hd, hx⟩)
      · obtain rfl := targetOf_hdr_addr ht
        exact Or.inr (Or.inr (Or.inr (Or.inl ⟨r, data, rfl, he, rfl⟩)))
      · obtain rfl := targetOf_word_addr ht
        exact Or.inr (Or.inr (Or.inr (Or.inr ⟨r, k, data, rfl, he, targetOf_word_lt ht, rfl⟩)))

end Sys2Proof.Machine
end

