-- ==== Sys2Proof/Laws/Commands.lean ====
section
/-!
SUPPORT. How a command comes to complete or to fault, the integer facts the contracts rest on, and the
invariant under each named update.
-/

namespace Sys2Proof.Machine

/-! ### Completing and faulting -/

theorem completes_one {i : Instr} {s : State} {d : RegId} {z : Int}
    (h : exec i s = .next (s.put d z)) : Completes i s [(d, z)] := by
  refine ⟨_, h, ?_, fun r hr => State.reg_put_ne s z (by simpa using hr), rfl, rfl, rfl, rfl, rfl, rfl, rfl, rfl⟩
  simp only [List.mem_singleton, forall_eq]
  exact holds_ofInt (by simp)

theorem completes_two {i : Instr} {s : State} {d e : RegId} {q r : Int} (hde : d ≠ e)
    (h : exec i s = .next ((s.put d q).put e r)) : Completes i s [(d, q), (e, r)] := by
  refine ⟨_, h, ?_, fun k hk => ?_, rfl, rfl, rfl, rfl, rfl, rfl, rfl, rfl⟩
  · simp only [List.mem_cons, List.not_mem_nil, or_false, forall_eq_or_imp, forall_eq]
    exact ⟨holds_ofInt (by simp [State.reg_put_ne _ _ hde]), holds_ofInt (by simp)⟩
  · simp only [List.map_cons, List.map_nil, List.mem_cons, List.not_mem_nil, or_false, not_or] at hk
    rw [State.reg_put_ne _ _ hk.2, State.reg_put_ne _ _ hk.1]

theorem faultsWith_of_raise {i : Instr} {s : State} {f : FaultCode} (hs : s.err = none)
    (h : exec i s = .next (s.raise f (encode i))) : FaultsWith i s f := by
  rw [FaultsWith, h, State.raise_of_none hs]

/-- One source without a value is enough for `Absent`, whichever it is (R91 step 2). -/
theorem withOne_absent {s : State} {a r : RegId} {k : Int → Computed} (hn : s.rd r = none)
    (h : r = a ∨ ∀ x, k x = .error .absent) : withOne s a k = .error .absent := by
  unfold withOne
  split
  · rfl
  · rename_i x hx
    rcases h with rfl | h
    · rw [hn] at hx; cases hx
    · exact h x

theorem withTwo_absent {s : State} {a b r : RegId} {k : Int → Int → Computed} (hn : s.rd r = none)
    (h : r = a ∨ r = b) : withTwo s a b k = .error .absent :=
  withOne_absent hn (h.imp id fun h _ => withOne_absent hn (Or.inl h))

theorem withThree_absent {s : State} {a b m r : RegId} {k : Int → Int → Int → Computed}
    (hn : s.rd r = none) (h : r = a ∨ r = b ∨ r = m) : withThree s a b m k = .error .absent :=
  withOne_absent hn (h.imp id fun h _ => withOne_absent hn (h.imp id fun h _ =>
    withOne_absent hn (Or.inl h)))

/-! ### Integers -/

theorem natAbs_tdiv_le (x d : Int) : (x.tdiv d).natAbs ≤ x.natAbs := by
  rw [Int.natAbs_tdiv]
  exact Nat.div_le_self _ _

theorem natAbs_tmod_lt (x : Int) {d : Int} (hd : d ≠ 0) : (x.tmod d).natAbs < d.natAbs := by
  rw [Int.natAbs_tmod]
  exact Nat.mod_lt _ (by omega)

/-- For a positive modulus `mod(a, m)` (R150) is the integer remainder that is never negative. -/
theorem modulo_eq_emod (x : Int) {m : Int} (hm : 0 < m) : modulo x m = x % m := by
  have h1 := Int.emod_nonneg x (show m ≠ 0 by omega)
  have h2 := Int.emod_lt_of_pos x hm
  have h3 : (divrem x m).2 = x % m ∨ (divrem x m).2 = x % m - m ∧ x % m ≠ 0 := by
    rw [divrem, Int.tmod_eq_emod]
    split
    · left; simp
    · rename_i hc
      exact Or.inr ⟨by simp only; omega, fun hz => hc (Or.inr (Int.dvd_of_emod_eq_zero hz))⟩
  unfold modulo
  split <;> omega

/-! ### The invariant -/

/-- The invariant looks at the registers, the configuration, the fault and the flags only. -/
theorem State.Inv.congr {s t : State} (h : s.Inv) (hx : t.x = s.x) (hc : t.cfg = s.cfg)
    (h1 : t.err = none → t.finfo = 0) (h2 : t.cmpv = false → t.cmp = .zero) : t.Inv := by
  refine ⟨fun i => ?_, h1, h2⟩
  have : t.reg i = s.reg i := by simp [State.reg, hx]
  rw [this, hc]
  exact h.1 i

theorem State.Inv.raise {s : State} (h : s.Inv) (f : FaultCode) (info : Word) : (s.raise f info).Inv := by
  refine h.congr (by simp) (by simp) ?_ (by simpa using h.2.2)
  rcases he : s.err with _ | g
  · rw [State.raise_of_none he]; simp
  · rw [State.raise_of_some he]; exact h.2.1

theorem State.Inv.setReg {s : State} (h : s.Inv) {i : RegId} {r : OperandReg} (hr : r.Wf s.cfg.maxw) :
    (s.setReg i r).Inv := by
  refine ⟨fun j => ?_, h.2.1, h.2.2⟩
  by_cases hj : j = i
  · subst hj; simpa using hr
  · rw [State.reg_setReg_ne _ _ hj]; exact h.1 j

theorem State.Inv.put {s : State} (h : s.Inv) {i : RegId} {z : Int} (hz : z.natAbs < B ^ s.cfg.maxw) :
    (s.put i z).Inv :=
  h.setReg (OperandReg.wf_ofInt s.cfg.maxw_pos hz)

end Sys2Proof.Machine
end

