-- ==== Sys2Proof/Laws/Decode.lean ====
section
/-!
SUPPORT. Bit fields of command words (30_encoding.md R80): packing gives a word back from its fields,
and a row's match and mask (R84) say the same as the fields (R85).
-/

namespace Sys2Proof.Machine

/-- A word whose field `Z` is zero is packed from its own fields (R80, R88). -/
theorem packWord_slices (c : Word) (hz : slice 7 0 c = 0) :
    packWord (slice 31 24 c) (regOf (slice 23 20 c)) (regOf (slice 19 16 c)) (regOf (slice 15 12 c))
      (regOf (slice 11 8 c)) = c := by
  apply BitVec.eq_of_toNat_eq
  have := c.isLt
  simp only [packWord, regOf, slice, BitVec.toNat_ofNat, Fin.ofNat] at *
  norm_num at *
  omega

/-- A field has a value exactly when its bits are the value's bits. -/
theorem slice_eq_iff {n : Nat} {hi lo len : Nat} (hl : hi + 1 - lo = len) (c : BitVec n) {v : Nat}
    (hv : v < 2 ^ len) : slice hi lo c = v ↔ ∀ j, j < len → c.getLsbD (lo + j) = v.testBit j := by
  subst hl
  have hb : ∀ j, j < hi + 1 - lo → (slice hi lo c).testBit j = c.getLsbD (lo + j) := fun j hj => by
    simp [slice, Nat.testBit_mod_two_pow, hj, Nat.testBit_div_two_pow, BitVec.getLsbD, Nat.add_comm]
  constructor
  · rintro rfl j hj
    exact (hb j hj).symm
  · intro h
    apply Nat.eq_of_testBit_eq
    intro j
    by_cases hj : j < hi + 1 - lo
    · rw [← h j hj, hb j hj]
    · rw [Nat.testBit_eq_false_of_lt (lt_of_lt_of_le hv (Nat.pow_le_pow_right (by norm_num) (by omega)))]
      simp [slice, Nat.testBit_mod_two_pow, hj]

/-- Masking a word and comparing, bit by bit. -/
theorem and_eq_iff (c m v : Word) :
    c &&& m = v ↔ ∀ j, j < 32 → (c.getLsbD j && m.getLsbD j) = v.getLsbD j := by
  constructor
  · rintro rfl j _
    simp
  · intro h
    apply BitVec.eq_of_getLsbD_eq
    intro j hj
    simpa using h j hj

/-- The bits of a word, field by field (R80). -/
theorem forall_bits_iff {P : Nat → Prop} : (∀ j, j < 32 → P j) ↔
    (∀ j, j < 8 → P (0 + j)) ∧ (∀ j, j < 4 → P (8 + j)) ∧ (∀ j, j < 4 → P (12 + j)) ∧
      (∀ j, j < 4 → P (16 + j)) ∧ (∀ j, j < 4 → P (20 + j)) ∧ (∀ j, j < 8 → P (24 + j)) := by
  constructor
  · intro h
    refine ⟨fun j hj => h _ ?_, fun j hj => h _ ?_, fun j hj => h _ ?_, fun j hj => h _ ?_,
      fun j hj => h _ ?_, fun j hj => h _ ?_⟩ <;> omega
  · rintro ⟨h0, h1, h2, h3, h4, h5⟩ j hj
    by_cases b0 : j < 8
    · exact (show 0 + j = j by omega) ▸ h0 j b0
    by_cases b1 : j < 12
    · exact (show 8 + (j - 8) = j by omega) ▸ h1 (j - 8) (by omega)
    by_cases b2 : j < 16
    · exact (show 12 + (j - 12) = j by omega) ▸ h2 (j - 12) (by omega)
    by_cases b3 : j < 20
    · exact (show 16 + (j - 16) = j by omega) ▸ h3 (j - 16) (by omega)
    by_cases b4 : j < 24
    · exact (show 20 + (j - 20) = j by omega) ▸ h4 (j - 20) (by omega)
    exact (show 24 + (j - 24) = j by omega) ▸ h5 (j - 24) (by omega)

/-- A field that the mask covers is compared whole. -/
theorem masked_field {hi lo len : Nat} (hl : hi + 1 - lo = len) (c m v : Word)
    (h : ∀ j, j < len → m.getLsbD (lo + j) = true) :
    (∀ j, j < len → (c.getLsbD (lo + j) && m.getLsbD (lo + j)) = v.getLsbD (lo + j)) ↔
      slice hi lo c = slice hi lo v := by
  have hv : slice hi lo v < 2 ^ len := by subst hl; exact slice_lt hi lo v
  have hb := (slice_eq_iff hl v hv).mp rfl
  rw [slice_eq_iff hl c hv]
  constructor
  · intro h1 j hj
    rw [← hb j hj, ← h1 j hj, h j hj, Bool.and_true]
  · intro h1 j hj
    rw [h1 j hj, h j hj, Bool.and_true, hb j hj]

/-- A field that the mask leaves out, and that is zero in the match word, is not compared. -/
theorem unmasked_field {lo len : Nat} (c m v : Word)
    (h : ∀ j, j < len → m.getLsbD (lo + j) = false ∧ v.getLsbD (lo + j) = false) :
    (∀ j, j < len → (c.getLsbD (lo + j) && m.getLsbD (lo + j)) = v.getLsbD (lo + j)) ↔ True :=
  iff_true_intro fun j hj => by rw [(h j hj).1, (h j hj).2, Bool.and_false]

/-- The match and mask of a row of R84 say that the opcode is the row's and that `Z` and the unused
fields (R83) are zero. -/
theorem matches_iff : ∀ r ∈ opRows, ∀ c, r.matches c = true ↔
    slice 31 24 c = r.op ∧ slice 7 0 c = 0 ∧ (r.usesD = false → slice 23 20 c = 0) ∧
      (r.usesE = false → slice 19 16 c = 0) ∧ (r.usesA = false → slice 15 12 c = 0) ∧
      (r.usesB = false → slice 11 8 c = 0) := by
  intro r hmem c
  simp only [opRows, rowsAdder, rowsMulDiv, rowsModular, List.cons_append, List.nil_append,
    List.mem_cons, List.not_mem_nil, or_false] at hmem
  rcases hmem with rfl | rfl | rfl | rfl | rfl | rfl | rfl | rfl | rfl | rfl | rfl | rfl | rfl | rfl |
    rfl | rfl <;>
   (simp only [OpRow.matches, decide_eq_true_eq]
    rw [and_eq_iff, forall_bits_iff, masked_field (hi := 7) (lo := 0) rfl _ _ _ (by decide),
      masked_field (hi := 31) (lo := 24) rfl _ _ _ (by decide)]
    first
      | rw [masked_field (hi := 11) (lo := 8) rfl _ _ _ (by decide)]
      | rw [unmasked_field (lo := 8) _ _ _ (by decide)]
    first
      | rw [masked_field (hi := 15) (lo := 12) rfl _ _ _ (by decide)]
      | rw [unmasked_field (lo := 12) _ _ _ (by decide)]
    first
      | rw [masked_field (hi := 19) (lo := 16) rfl _ _ _ (by decide)]
      | rw [unmasked_field (lo := 16) _ _ _ (by decide)]
    first
      | rw [masked_field (hi := 23) (lo := 20) rfl _ _ _ (by decide)]
      | rw [unmasked_field (lo := 20) _ _ _ (by decide)]
    simp only [slice]
    norm_num
    try tauto)

end Sys2Proof.Machine
end

