-- ==== Sys2Proof/Laws/PerInstr.lean ====
section
/-!
SUPPORT. Statements about every command as syntax, one lemma per constructor: the encoder's word lies
in the command's own row of the opcode map (30_encoding.md R84).
-/

namespace Sys2Proof.Laws.OpcodeByte

/-- The field `OP` that R84 gives a command. -/
def opcodeOf : Instr → Nat
  | .add _ _ _ => 0x10
  | .sub _ _ _ => 0x11
  | .neg _ _ => 0x12
  | .abs _ _ => 0x13
  | .cmpm _ _ => 0x14
  | .cmp _ _ => 0x15
  | .mul _ _ _ => 0x20
  | .divrem _ _ _ _ => 0x30
  | .div _ _ _ => 0x31
  | .rem _ _ _ => 0x32
  | .mod _ _ _ => 0x33
  | .montmul _ _ _ _ => 0x40
  | .montred _ _ _ => 0x41
  | .montin _ _ _ => 0x42
  | .modpow _ _ _ _ => 0x50
  | .modinv _ _ _ => 0x51

/-- Bits 31:24 of the command's word are its opcode, and bits 7:0 are zero (R80, R84). -/
def Statement (i : Instr) : Prop :=
  slice 31 24 (encode i) = opcodeOf i ∧ slice 7 0 (encode i) = 0

/-- The fields of a packed word (R80, R88). -/
theorem slices_packWord (op : Nat) (d e a b : RegId) (hop : op < 256) :
    slice 31 24 (packWord op d e a b) = op ∧ slice 23 20 (packWord op d e a b) = d.val ∧
      slice 19 16 (packWord op d e a b) = e.val ∧ slice 15 12 (packWord op d e a b) = a.val ∧
      slice 11 8 (packWord op d e a b) = b.val ∧ slice 7 0 (packWord op d e a b) = 0 := by
  have hd := d.isLt
  have he := e.isLt
  have ha := a.isLt
  have hb := b.isLt
  simp only [slice, packWord, BitVec.toNat_ofNat]
  norm_num
  omega

theorem of_packWord {op : Nat} {d e a b : RegId} (hop : op < 256) :
    slice 31 24 (packWord op d e a b) = op ∧ slice 7 0 (packWord op d e a b) = 0 :=
  ⟨(slices_packWord op d e a b hop).1, (slices_packWord op d e a b hop).2.2.2.2.2⟩

theorem add (d a b : RegId) : Statement (.add d a b) := of_packWord (by norm_num)
theorem sub (d a b : RegId) : Statement (.sub d a b) := of_packWord (by norm_num)
theorem neg (d a : RegId) : Statement (.neg d a) := of_packWord (by norm_num)
theorem abs (d a : RegId) : Statement (.abs d a) := of_packWord (by norm_num)
theorem cmpm (a b : RegId) : Statement (.cmpm a b) := of_packWord (by norm_num)
theorem cmp (a b : RegId) : Statement (.cmp a b) := of_packWord (by norm_num)
theorem mul (d a b : RegId) : Statement (.mul d a b) := of_packWord (by norm_num)
theorem divrem (d e a b : RegId) : Statement (.divrem d e a b) := of_packWord (by norm_num)
theorem div (d a b : RegId) : Statement (.div d a b) := of_packWord (by norm_num)
theorem rem (d a b : RegId) : Statement (.rem d a b) := of_packWord (by norm_num)
theorem mod (d a b : RegId) : Statement (.mod d a b) := of_packWord (by norm_num)
theorem montmul (d a b m : RegId) : Statement (.montmul d a b m) := of_packWord (by norm_num)
theorem montred (d a m : RegId) : Statement (.montred d a m) := of_packWord (by norm_num)
theorem montin (d a m : RegId) : Statement (.montin d a m) := of_packWord (by norm_num)
theorem modpow (d a b m : RegId) : Statement (.modpow d a b m) := of_packWord (by norm_num)
theorem modinv (d a m : RegId) : Statement (.modinv d a m) := of_packWord (by norm_num)

end Sys2Proof.Laws.OpcodeByte
end

