-- ==== Sys2Proof/Tests/Slice0.lean ====
section
/-!
SUPPORT. Tests and witnesses. The expected results are those of spec/95_test_vectors.md (its section is
named beside each group) or written out from the rules; the witnesses show that the hypotheses of each
statement are met by concrete states and operands, clause by clause at the boundary values.
-/

namespace Sys2Proof.Tests

open Sys2Proof Sys2Proof.Machine

/-! ### Small states -/

/-- `MAXW = 2`. -/
def cfg2 : Config := ⟨2, by decide, by decide⟩

/-- The reset state with some registers loaded. -/
def loaded (cfg : Config) (vs : List (RegId × Int)) : State :=
  vs.foldl (fun s p => s.put p.1 p.2) (State.resetWith cfg)

/-- `MAXW = 8`, as the vectors start. -/
def on8 (vs : List (RegId × Int)) : State := loaded Config.default vs

/-- `MAXW = 2`. -/
def on2 (vs : List (RegId × Int)) : State := loaded cfg2 vs

/-- The state a command leaves. -/
def after (i : Instr) (s : State) : State :=
  match exec i s with
  | .next t => t
  | _ => s

/-- The state after one step. -/
def stepped (s : State) : State :=
  match step s with
  | .next t => t
  | _ => s

/-- The state after the given transactions. -/
def host (s : State) (ts : List PortEvent) : State :=
  match Host.Core.run core ts.length { s with port := ts } with
  | .next t => t
  | _ => s

/-- What a register reads as: its header word and its integer. -/
def shows (s : State) (r : RegId) : Word × Option Int := ((s.reg r).header, s.rd r)

/-- STATUS and FINFO. -/
def flags (s : State) : Word × Word := (s.statusWord, s.finfo)

/-! ### WellFormed: the ill-formed term of each check is refused -/

theorem test_wf_divrem_same_destinations : (Instr.divrem 2 2 0 1).wf = false := by decide
theorem test_wf_divrem : (Instr.divrem 2 3 0 1).wf = true := by decide

/-! ### Decode (R84, R88; the words written out from the fields) -/

theorem test_decode_add : decodeTableWord 32 0x10200100 = some (.add 2 0 1) := by decide
theorem test_decode_sub : decodeTableWord 32 0x11404300 = some (.sub 4 4 3) := by decide
theorem test_decode_neg : decodeTableWord 32 0x12100000 = some (.neg 1 0) := by decide
theorem test_decode_abs : decodeTableWord 32 0x13F0E000 = some (.abs 15 14) := by decide
theorem test_decode_cmpm : decodeTableWord 32 0x14000100 = some (.cmpm 0 1) := by decide
theorem test_decode_cmp : decodeTableWord 32 0x15006300 = some (.cmp 6 3) := by decide
theorem test_decode_mul : decodeTableWord 32 0x20404200 = some (.mul 4 4 2) := by decide
theorem test_decode_divrem : decodeTableWord 32 0x30230100 = some (.divrem 2 3 0 1) := by decide
theorem test_decode_div : decodeTableWord 32 0x31200100 = some (.div 2 0 1) := by decide
theorem test_decode_rem : decodeTableWord 32 0x32A0B700 = some (.rem 10 11 7) := by decide
theorem test_decode_mod : decodeTableWord 32 0x33200100 = some (.mod 2 0 1) := by decide
theorem test_decode_montmul : decodeTableWord 32 0x40424500 = some (.montmul 4 4 5 2) := by decide
theorem test_decode_montred : decodeTableWord 32 0x41624000 = some (.montred 6 4 2) := by decide
theorem test_decode_montin : decodeTableWord 32 0x42429000 = some (.montin 4 9 2) := by decide
theorem test_decode_modpow : decodeTableWord 32 0x50320100 = some (.modpow 3 0 1 2) := by decide
theorem test_decode_modinv : decodeTableWord 32 0x51320000 = some (.modinv 3 0 2) := by decide

/-- The illegal words of section 8, each by the reason of R85. -/
theorem test_decode_illegal :
    decode 0x00000000 = .error .unknownOpcode ∧ decode 0x16000000 = .error .unknownOpcode ∧
      decode 0xFF000000 = .error .unknownOpcode ∧ decode 0x10200101 = .error .nonzeroZ ∧
      decode 0x10230100 = .error .unusedE ∧ decode 0x12100100 = .error .unusedB ∧
      decode 0x14100100 = .error .unusedD ∧ decode 0x41230100 = .error .unusedB ∧
      decode 0x51320100 = .error .unusedB ∧ decode 0x30220100 = .error .sameDestinations :=
  ⟨rfl, rfl, rfl, rfl, rfl, rfl, rfl, rfl, rfl, rfl⟩

theorem test_opRows_disjoint : opRows.Pairwise fun r q => r.op ≠ q.op := by decide

theorem test_asm : (Instr.modpow 3 0 1 2).asm = "MODPOW x3, x0, x1, x2" := by decide

theorem test_pseudo_commands :
    encode (Instr.sqr 0 0) = 0x20000000 ∧ encode (Instr.dbl 1 1) = 0x10101100 ∧
      encode (Instr.montsqr 4 4 2) = 0x40424400 ∧ encode (Instr.montout 6 4 2) = 0x41624000 := by
  decide

/-! ### Section 2: ADD, SUB, NEG, ABS -/

theorem test_add_carry_lengthens :
    shows (after (.add 2 0 1) (on8 [(0, 2 ^ 32 - 1), (1, 1)])) 2 = (0x80020001, some (2 ^ 32)) := by
  decide
theorem test_add_capacity :
    flags (after (.add 2 0 1) (on2 [(0, 2 ^ 64 - 1), (1, 1)])) = (0x07, 0x10200100) := by decide
theorem test_sub_trims :
    shows (after (.sub 2 0 1) (on8 [(0, 2 ^ 64), (1, 2 ^ 64 - 1)])) 2 = (0x80010001, some 1) := by decide
theorem test_sub_aliased :
    shows (after (.sub 1 1 1) (on8 [(1, 12345)])) 1 = (0x80010000, some 0) := by decide
theorem test_neg_in_place :
    shows (after (.neg 0 0) (on8 [(0, 2 ^ 32 + 2)])) 0 = (0x80020003, some (-(2 ^ 32 + 2))) := by decide
theorem test_neg_zero : shows (after (.neg 1 0) (on8 [(0, 0)])) 1 = (0x80010000, some 0) := by decide
theorem test_abs : shows (after (.abs 1 0) (on8 [(0, -7)])) 1 = (0x80010001, some 7) := by decide

/-! ### Section 3: CMPM, CMP -/

theorem test_cmpm_ignores_signs : flags (after (.cmpm 0 1) (on8 [(0, -5), (1, 3)])) = (0x50, 0) := by decide
theorem test_cmpm_low_word :
    flags (after (.cmpm 0 1) (on8 [(0, 2 ^ 64 + 1), (1, 2 ^ 64 + 2)])) = (0x70, 0) := by decide
theorem test_cmp_signed : flags (after (.cmp 0 1) (on8 [(0, -5), (1, 3)])) = (0x70, 0) := by decide
theorem test_cmp_absent : flags (after (.cmp 0 1) (on8 [(0, -5)])) = (0x02, 0x15000100) := by decide

/-! ### Section 4: MUL -/

theorem test_mul_largest_words :
    shows (after (.mul 2 0 1) (on8 [(0, 2 ^ 32 - 1), (1, 2 ^ 32 - 1)])) 2 =
      (0x80020001, some (2 ^ 64 - 2 * 2 ^ 32 + 1)) := by decide
theorem test_mul_fits_after_trim :
    shows (after (.mul 2 0 1) (on2 [(0, 2 * 2 ^ 32), (1, 0x7FFFFFFF)])) 2 =
      (0x80020001, some (2 ^ 64 - 2 ^ 33)) := by decide

/-! ### Section 5: DIVREM, DIV, REM, MOD -/

theorem test_divrem_truncates :
    (shows (after (.divrem 2 3 0 1) (on8 [(0, -7), (1, 2)])) 2,
      shows (after (.divrem 2 3 0 1) (on8 [(0, -7), (1, 2)])) 3) =
      ((0x80010003, some (-3)), (0x80010003, some (-1))) := by decide
theorem test_divrem_aliased :
    ((after (.divrem 1 0 0 1) (on8 [(0, 100), (1, 7)])).rd 1,
      (after (.divrem 1 0 0 1) (on8 [(0, 100), (1, 7)])).rd 0) = (some 14, some 2) := by decide
theorem test_div_negative_divisor :
    shows (after (.div 2 0 1) (on8 [(0, 7), (1, -2)])) 2 = (0x80010003, some (-3)) := by decide
theorem test_div_by_zero : flags (after (.div 2 0 1) (on8 [(0, 7), (1, 0)])) = (0x04, 0x31200100) := by decide
theorem test_rem_negative_divisor :
    shows (after (.rem 2 0 1) (on8 [(0, 7), (1, -2)])) 2 = (0x80010001, some 1) := by decide
theorem test_rem_exact : shows (after (.rem 2 0 1) (on8 [(0, -6), (1, 3)])) 2 = (0x80010000, some 0) := by decide
theorem test_mod_negative_operand :
    shows (after (.mod 2 0 1) (on8 [(0, -7), (1, 3)])) 2 = (0x80010001, some 2) := by decide
theorem test_mod_by_zero : flags (after (.mod 2 0 1) (on8 [(0, 7), (1, 0)])) = (0x05, 0x33200100) := by decide

/-! ### Section 6: MONTMUL, MONTRED, MONTIN -/

theorem test_montmul : (after (.montmul 2 0 1 3) (on8 [(0, 496), (1, 496), (3, 497)])).rd 2 = some 79 := by
  decide
theorem test_montmul_range :
    flags (after (.montmul 2 0 1 3) (on8 [(0, 497), (1, 1), (3, 497)])) = (0x08, 0x40230100) := by decide
theorem test_montred_largest :
    (after (.montred 2 0 3) (on8 [(0, 497 * 2 ^ 32 - 1), (3, 497)])).rd 2 = some 418 := by decide
theorem test_montred_range :
    flags (after (.montred 2 0 3) (on8 [(0, 497 * 2 ^ 32), (3, 497)])) = (0x08, 0x41230000) := by decide
theorem test_montin_negative : (after (.montin 1 0 3) (on8 [(0, -4), (3, 497)])).rd 1 = some 390 := by decide
theorem test_montin_modulus_first :
    flags (after (.montin 1 0 3) (on8 [(0, 5), (3, -496)])) = (0x05, 0x42130000) := by decide

/-! ### Section 7: MODPOW, MODINV -/

theorem test_modpow_even : (after (.modpow 3 0 1 2) (on8 [(0, 5), (1, -3), (2, 96)])).rd 3 = some 53 := by
  decide
theorem test_modpow_no_inverse :
    flags (after (.modpow 3 0 1 2) (on8 [(0, 6), (1, -1), (2, 96)])) = (0x06, 0x50320100) := by decide
theorem test_modinv_two_words :
    (after (.modinv 3 0 2) (on8 [(0, 2), (2, 2 ^ 32 + 3)])).rd 3 = some 0x80000002 := by decide
theorem test_modinv_of_modulus_one :
    flags (after (.modinv 3 0 2) (on8 [(0, 1), (2, 1)])) = (0x06, 0x51320000) := by decide

/-! ### Section 8: the host port -/

/-- `[5, 0, 0]` sealed with `LEN = 3` is 5 with `len = 1`. -/
theorem test_seal_trims :
    shows (host State.reset [.write 0x8801 5, .write 0x8802 0, .write 0x8803 0, .write 0x8800 0x00030001]) 1 =
      (0x80010001, some 5) := by decide

/-- A word never written under the sealed length. -/
theorem test_seal_absent :
    flags (host State.reset [.write 0x8802 5, .write 0x8800 0x00020001]) = (0x02, 0x8800) := by decide

/-- A sign that disagrees with the magnitude. -/
theorem test_seal_format :
    flags (host State.reset [.write 0x8801 5, .write 0x8800 0x00010000]) = (0x03, 0x8800) := by decide

/-- Restaging ends a value; a later seal finds the other word still there. -/
theorem test_restage :
    shows (host (on8 [(1, 2 ^ 32 + 7)]) [.write 0x8801 9, .write 0x8800 0x00020003]) 1 =
      (0x80020003, some (-(2 ^ 32 + 9))) := by decide

/-- A fault freezes the machine until it is cleared (program P4). -/
theorem test_faulted_state :
    (host (on8 [(0, 100), (1, 0), (2, 7)]) [.write 0x0000 0x31200100, .write 0x0000 0x10300000,
      .write 0x8001 0x37, .read 0x0002]).answer = some 0x31200100 := by decide

theorem test_read_cfg : (host State.reset [.read 0x0003]).answer = some 0x20100008 := by decide

theorem test_read_above_len : (host (on8 [(1, -(2 ^ 32 + 7))]) [.read 0x8803]).answer = some 0 := by decide

theorem test_bus :
    (flags (host State.reset [.read 0x8809]), flags (host State.reset [.write 0x0003 0])) =
      ((0x09, 0x8809), (0x09, 0x0003)) := by decide

/-- An illegal word written to CMD latches `Illegal` with that word (section 8). -/
theorem test_illegal_word :
    flags (host (on8 [(0, 1)]) [.write 0x0000 0x10200101]) = (0x01, 0x10200101) := by decide

/-- The word runs as the very next transaction: from reset an ADD finds no operand. -/
theorem test_fetch_word :
    flags (stepped (State.reset.withFetchWord 32 0x10200100)) = (0x02, 0x10200100) := by decide

/-! ### Section 9: the reference datapaths -/

/-- Trace 9.1 E: the add-back. -/
theorem test_knuth_add_back :
    divmag [0, 0, 3] [1, 0, 1] = ([2], [0xFFFFFFFE, 0xFFFFFFFF]) := by decide

/-- Trace 9.1 C: two corrections. -/
theorem test_knuth_two_corrections :
    divmag [0, 0, 0x7FFFFFFF] [0xFFFFFFFE, 0x80000000] = ([0xFFFFFFFC], [0xFFFFFFF8, 5]) := by decide

/-- Trace 9.3: the final subtraction. -/
theorem test_monred_final_subtraction :
    monredWords ((2 ^ 64 - 60) ^ 2) [0xFFFFFFC5, 0xFFFFFFFF] = 0xCBEEA4E1A08AD8C4 := by decide

theorem test_neginvword : neginvword 497 = 0x28B130EF := by decide

/-- Trace 9.5: the even path's power modulo `2^4`, the inverse of 31 there, and the recombination. -/
theorem test_even_path : (pow2pow 4 13 4, pow2inv 31 4, crtJoin 2 0 31 4) = (0, 15, 64) := by decide

/-! ### Witnesses: the hypotheses of the statements are met

One theorem per statement with hypotheses; where a statement has several clauses, each clause is met, at
the boundary values of its range. -/

/-- A state about to perform the given transaction. -/
def facing (s : State) (e : PortEvent) : State := { s with port := [e] }

/-- Any transaction can be the next one. -/
theorem facing_port (s : State) (e : PortEvent) : (facing s e).port = e :: [] := rfl

theorem witness_DecodeOfEncode : (Instr.divrem 15 0 15 0).wf = true := by decide

theorem witness_EncodeOfDecode : decode 0x30230100 = .ok (.divrem 2 3 0 1) := rfl

theorem witness_IllegalEncodings :
    (¬ ∃ i, decode 0x30220100 = .ok i) ∧ (facing State.reset (.write 0x0000 0x30220100)).err = none ∧
      (facing State.reset (.write 0x0000 0x30220100)).port = .write 0x0000 0x30220100 :: [] := by
  have h : decode 0x30220100 = .error .sameDestinations := rfl
  refine ⟨?_, rfl, rfl⟩
  rintro ⟨i, hi⟩
  rw [h] at hi
  cases hi

theorem witness_StepRunsTheDecodedCommand :
    State.reset.err = none ∧ (facing State.reset (.write 0x0000 0x10200100)).port =
      .write 0x0000 0x10200100 :: [] ∧ decode 0x10200100 = .ok (.add 2 0 1) := ⟨rfl, rfl, rfl⟩

theorem witness_FetchWordRunsTheCommand : State.reset.Inv ∧ (Instr.add 2 0 1).wf = true := by decide

theorem witness_AbsentSourceFaults :
    (on8 [(0, 1)]).err = none ∧ (Instr.montmul 2 0 0 5).wf = true ∧
      (5 : RegId) ∈ (Instr.montmul 2 0 0 5).sources ∧ ((on8 [(0, 1)]).reg 5).valid = false := by decide

/-- The largest sum that fits two words, and the smallest that does not. -/
theorem witness_AddWritesTheSum :
    let s := on2 [(0, 2 ^ 64 - 2), (1, 1), (2, 2)]
    s.err = none ∧ s.rd 0 = some (2 ^ 64 - 2) ∧ s.rd 1 = some 1 ∧ s.rd 2 = some 2 ∧
      ((2 ^ 64 - 2 : Int) + 1).natAbs < B ^ s.cfg.maxw ∧
      B ^ s.cfg.maxw ≤ ((2 ^ 64 - 2 : Int) + 2).natAbs := by decide

theorem witness_SubWritesTheDifference :
    let s := on2 [(0, -(2 ^ 64 - 2)), (1, 1), (2, 2)]
    s.err = none ∧ s.rd 0 = some (-(2 ^ 64 - 2)) ∧ s.rd 1 = some 1 ∧ s.rd 2 = some 2 ∧
      (-(2 ^ 64 - 2 : Int) - 1).natAbs < B ^ s.cfg.maxw ∧
      B ^ s.cfg.maxw ≤ (-(2 ^ 64 - 2 : Int) - 2).natAbs := by decide

theorem witness_NegAndAbsKeepTheMagnitude :
    let s := on2 [(0, -(2 ^ 64 - 1)), (1, 0)]
    s.Inv ∧ s.rd 0 = some (-(2 ^ 64 - 1)) ∧ s.rd 1 = some 0 := by decide

theorem witness_CmpmOrdersMagnitudes :
    let s := on8 [(0, -5), (1, 3), (2, 5)]
    s.rd 0 = some (-5) ∧ s.rd 1 = some 3 ∧ s.rd 2 = some 5 ∧ |(3 : Int)| < |(-5 : Int)| ∧
      |(-5 : Int)| = |(5 : Int)| := by decide

theorem witness_CmpOrdersValues :
    let s := on8 [(0, -5), (1, 3), (2, 3)]
    s.rd 0 = some (-5) ∧ s.rd 1 = some 3 ∧ s.rd 2 = some 3 ∧ (-5 : Int) < 3 ∧ (3 : Int) = 3 := by decide

/-- `(B - 1)(B + 1)` is the largest value of two words; `B * B` is the next integer. -/
theorem witness_MulWritesTheProduct :
    let s := on2 [(0, 2 ^ 32 - 1), (1, 2 ^ 32 + 1), (2, 2 ^ 32)]
    s.err = none ∧ s.rd 0 = some (2 ^ 32 - 1) ∧ s.rd 1 = some (2 ^ 32 + 1) ∧ s.rd 2 = some (2 ^ 32) ∧
      ((2 ^ 32 - 1 : Int) * (2 ^ 32 + 1)).natAbs < B ^ s.cfg.maxw ∧
      B ^ s.cfg.maxw ≤ ((2 ^ 32 : Int) * 2 ^ 32).natAbs := by decide

theorem witness_TruncatingDivisionIsUnique : (2 : Int) ≠ 0 ∧ IsDivRem (-3) (-1) (-7) 2 :=
  ⟨by decide, by decide, by decide, Or.inr (by decide)⟩

theorem witness_ResidueIsUnique :
    (0 : Int) < 1 ∧ IsResidue 0 (-7) 1 ∧ IsResidue 2 (-7) 3 ∧ IsDivRem (-2) (-1) (-7) 3 :=
  ⟨by decide, ⟨by decide, by decide, by decide⟩, ⟨by decide, by decide, by decide⟩, by decide, by decide,
    Or.inr (by decide)⟩

theorem witness_DivremWritesBoth :
    let s := on8 [(0, -7), (1, 2), (2, 0)]
    s.Inv ∧ s.err = none ∧ (2 : RegId) ≠ 3 ∧ s.rd 0 = some (-7) ∧ s.rd 1 = some 2 ∧ (2 : Int) ≠ 0 ∧
      s.rd 2 = some 0 := by decide

theorem witness_DivremToOneRegisterIsIllegal : State.reset.err = none := by decide

theorem witness_DivAndRemWriteOne :
    let s := on8 [(0, 7), (1, -2), (2, 0)]
    s.Inv ∧ s.err = none ∧ s.rd 0 = some 7 ∧ s.rd 1 = some (-2) ∧ (-2 : Int) ≠ 0 ∧ s.rd 2 = some 0 := by
  decide

/-- The moduli 0 and 1 at the edge of the two clauses. -/
theorem witness_ModWritesTheResidue :
    let s := on8 [(0, -7), (1, 0), (2, 1)]
    s.Inv ∧ s.err = none ∧ s.rd 0 = some (-7) ∧ s.rd 1 = some 0 ∧ (0 : Int) ≤ 0 ∧ s.rd 2 = some 1 ∧
      (0 : Int) < 1 := by decide

/-- The moduli 0, 2, 1 and 3; operands -1, 0, `m - 1` and `m` for `m = 3`. -/
theorem witness_MontmulWritesTheMontgomeryProduct :
    let s := on8 [(0, 0), (1, 2), (2, -1), (3, 3), (4, 1)]
    s.Inv ∧ s.err = none ∧ s.rd 0 = some 0 ∧ s.rd 1 = some 2 ∧ s.rd 2 = some (-1) ∧ s.rd 3 = some 3 ∧
      s.rd 4 = some 1 ∧ (0 : Int) ≤ 0 ∧ (2 : Int) % 2 = 0 ∧ (-1 : Int) < 0 ∧ (3 : Int) ≤ 3 ∧
      ((0 : Int) < 3 ∧ (3 : Int) % 2 = 1 ∧ (0 : Int) ≤ 0 ∧ (2 : Int) < 3) ∧
      ((0 : Int) < 1 ∧ (1 : Int) % 2 = 1 ∧ (0 : Int) ≤ 0 ∧ (0 : Int) < 1) := by decide

/-- For `m = 497`: the operands -1, 0, `m * R - 1` and `m * R`. -/
theorem witness_MontredLeavesMontgomeryForm :
    let s := on8 [(0, -1), (1, 0), (2, 497 * 2 ^ 32 - 1), (3, 497), (4, 497 * 2 ^ 32), (5, 2)]
    let bound := (497 : Int) * (B : Int) ^ (words (497 : Int).natAbs).length
    s.Inv ∧ s.err = none ∧ s.rd 0 = some (-1) ∧ s.rd 1 = some 0 ∧ s.rd 2 = some (497 * 2 ^ 32 - 1) ∧
      s.rd 3 = some 497 ∧ s.rd 4 = some (497 * 2 ^ 32) ∧ s.rd 5 = some 2 ∧ (0 : Int) ≤ 0 ∧
      ((0 : Int) < 2 ∧ (2 : Int) % 2 = 0) ∧ (-1 : Int) < 0 ∧ bound ≤ 497 * 2 ^ 32 ∧
      ((0 : Int) < 497 ∧ (497 : Int) % 2 = 1 ∧ (497 * 2 ^ 32 - 1 : Int) < bound ∧ 0 < bound) := by decide

theorem witness_MontinEntersMontgomeryForm :
    let s := on8 [(0, -4), (1, 0), (2, 2), (3, 1)]
    s.Inv ∧ s.err = none ∧ s.rd 0 = some (-4) ∧ s.rd 1 = some 0 ∧ (0 : Int) ≤ 0 ∧ s.rd 2 = some 2 ∧
      ((0 : Int) < 2 ∧ (2 : Int) % 2 = 0) ∧ s.rd 3 = some 1 ∧ (0 : Int) < 1 ∧ (1 : Int) % 2 = 1 := by
  decide

theorem witness_MontgomeryIdentities :
    ((0 : Int) < 497 ∧ (497 : Int) % 2 = 1 ∧ (0 : Int) ≤ 496 ∧ (496 : Int) < 497) ∧
      ((0 : Int) < 1 ∧ (1 : Int) % 2 = 1 ∧ (0 : Int) ≤ 0 ∧ (0 : Int) < 1) := by decide

/-- The moduli 0, 1 and 2; an operand with a factor in common with its modulus. -/
theorem witness_ModinvWritesTheInverse :
    let s := on8 [(0, 0), (1, 1), (2, 2)]
    s.Inv ∧ s.err = none ∧ s.rd 0 = some 0 ∧ (0 : Int) ≤ 0 ∧ s.rd 1 = some 1 ∧ (0 : Int) < 1 ∧
      s.rd 2 = some 2 ∧ (0 : Int).natAbs.gcd (2 : Int).natAbs ≠ 1 ∧ (2 : Int) ≤ 2 ∧
      (1 : Int).natAbs.gcd (2 : Int).natAbs = 1 := by decide

theorem witness_ModpowWritesThePower :
    (let s := on8 [(0, 3), (1, -1), (2, 7), (3, 0), (4, 9)]
    s.Inv ∧ s.err = none ∧ s.rd 0 = some 3 ∧ s.rd 1 = some (-1) ∧ s.rd 2 = some 7 ∧ s.rd 3 = some 0 ∧
      s.rd 4 = some 9 ∧ (0 : Int) ≤ 0 ∧ (0 : Int) < 7 ∧ (-1 : Int) < 0) ∧
      IsInverse 5 3 7 ∧ ¬ ∃ y, IsInverse y 3 9 := by
  refine ⟨by decide, ⟨by decide, by decide, by decide⟩, ?_⟩
  rintro ⟨y, h1, h2, h3⟩
  omega

/-- A completing command, with a register and flags it does not write, and one that faults. -/
theorem witness_CommandFrame :
    let s := on8 [(0, 7), (1, 2)]
    exec (.add 2 0 1) s = .next (s.put 2 9) ∧ (3 : RegId) ∉ (Instr.add 2 0 1).dests ∧
      (Instr.add 2 0 1).writesFlags = false ∧
      exec (.add 2 0 5) s = .next (s.raise .absent 0x10200500) := ⟨rfl, by decide, rfl, rfl⟩

theorem witness_CommandFaultsArePrecise :
    let s := on8 [(0, 7), (1, 0)]
    s.err = none ∧ exec (.div 2 0 1) s = .next (s.raise .divZero 0x31200100) ∧
      (s.raise .divZero 0x31200100).err ≠ none := ⟨rfl, rfl, by decide⟩

theorem witness_OnlyAddSubMulRaiseCapacity :
    let s := on2 [(0, 2 ^ 64 - 1), (1, 1)]
    s.Inv ∧ s.err = none ∧ exec (.add 2 0 1) s = .next (s.raise .capacity 0x10200100) ∧
      (s.raise .capacity 0x10200100).err = some .capacity := ⟨by decide, rfl, rfl, rfl⟩

theorem witness_CapacityNeverMakesAWrongValue :
    let s := on8 [(0, 2 ^ 64 - 1), (1, 1)]
    let u := on2 [(0, 2 ^ 64 - 1), (1, 1)]
    (Instr.add 2 0 1).wf = true ∧ s.err = none ∧ u.err = none ∧
      (∀ r ∈ (Instr.add 2 0 1).sources, s.rd r = u.rd r) ∧
      exec (.add 2 0 1) s = .next (s.put 2 (2 ^ 64)) ∧
      exec (.add 2 0 1) u = .next (u.raise .capacity 0x10200100) ∧ (s.put 2 (2 ^ 64)).err = none :=
  ⟨rfl, rfl, rfl, by decide, rfl, rfl, rfl⟩

/-- A state in which a fault is latched. -/
def faulted : State := State.reset.raise .bus 0x0003

theorem witness_FaultedStateIsFrozen :
    faulted.err = some .bus ∧
      ((facing faulted (.write 0x0001 0x7FFFFFFF)).port = .write 0x0001 0x7FFFFFFF :: [] ∧
        ¬ ((0x0001 : Addr) = 0x0001 ∧ slice 31 31 (0x7FFFFFFF : Word) = 1)) ∧
      (facing faulted (.read 0x0004)).port = .read 0x0004 :: [] := by decide

theorem witness_ClearingLeavesTheFaultedState :
    (facing faulted (.write 0x0001 0x80000000)).port = .write 0x0001 0x80000000 :: [] ∧
      slice 31 31 (0x80000000 : Word) = 1 ∧ slice 31 31 (0x7FFFFFFF : Word) = 0 ∧ faulted.err ≠ none ∧
      step (facing faulted (.write 0x0001 0x80000000)) = .next State.reset ∧ State.reset.err = none :=
  ⟨rfl, by decide, by decide, by decide, rfl, rfl⟩

theorem witness_FinfoTellsTheSource :
    (facing State.reset (.write 0x0003 0)).FinfoInv ∧
      step (facing State.reset (.write 0x0003 0)) = .next faulted ∧
      decode 0x10000000 = .ok (.add 0 0 0) := ⟨rfl, rfl, rfl⟩

/-- The lowest word of the first register and the highest of the last. -/
theorem witness_StagingDefinesOneWord :
    State.reset.err = none ∧ 0 < State.reset.cfg.maxw ∧ 7 < State.reset.cfg.maxw ∧
      (facing State.reset (.write 0x8001 5)).port = .write (wordAddr 0 0) 5 :: [] ∧
      (facing State.reset (.write 0xF808 5)).port = .write (wordAddr 15 7) 5 :: [] := by decide

/-- Register 1 with its word 0 defined: 5. -/
def staged : State := host State.reset [.write 0x8801 5]

/-- Each malformed header, an undefined word, a sign that disagrees, and a good header. -/
theorem witness_SealChecksAndSeals :
    staged.err = none ∧ (facing staged (.write 0x8800 0x00010001)).port =
        .write (hdrAddr 1) 0x00010001 :: [] ∧
      slice 15 2 (0x00010005 : Word) ≠ 0 ∧ slice 30 28 (0x10010001 : Word) ≠ 0 ∧
      slice 1 0 (0x00010002 : Word) = 2 ∧ slice 27 16 (0x00000001 : Word) = 0 ∧
      staged.cfg.maxw < slice 27 16 (0x00090001 : Word) ∧
      (1 < slice 27 16 (0x00020001 : Word) ∧ Memory.read (staged.reg 1).w 1 = none) ∧
      ([5] : List Word).length = slice 27 16 (0x00010001 : Word) ∧
      (∀ k, k < ([5] : List Word).length → Memory.read (staged.reg 1).w k = ([5] : List Word)[k]?) ∧
      ¬ (val [5] = 0 ↔ slice 1 0 (0x00010000 : Word) = 0) ∧
      (val [5] = 0 ↔ slice 1 0 (0x00010003 : Word) = 0) ∧
      Sign.neg.code = slice 1 0 (0x00010003 : Word) := by decide

/-- Every kind of address, the unmapped ones at both ends of both ranges (`MAXW = 8`). -/
theorem witness_ReadsAnswer :
    let s := on8 [(1, -(2 ^ 32 + 7))]
    s.Inv ∧ (facing s (.read 0x0001)).port = .read 0x0001 :: [] ∧
      (hdrAddr 0 = 0x8000 ∧ (s.reg 0).valid = false) ∧ (hdrAddr 1 = 0x8800 ∧ (s.reg 1).valid = true) ∧
      (7 < s.cfg.maxw ∧ wordAddr 1 1 = 0x8802 ∧ 1 < (s.reg 1).len ∧ (s.reg 1).len ≤ 2) ∧
      ((staged.reg 1).valid = false ∧ Memory.read (staged.reg 1).w 0 = some 5 ∧
        Memory.read (staged.reg 1).w 1 = none) ∧ s.err = none ∧ faulted.err ≠ none := by decide

theorem witness_IsUnmapped :
    IsUnmapped 8 0x0004 ∧ IsUnmapped 8 0x7FFF ∧ IsUnmapped 8 0x8009 ∧ IsUnmapped 8 0xFFFF ∧
      ¬ IsUnmapped 8 0x8008 ∧ ¬ IsUnmapped 8 0x8000 ∧ ¬ IsUnmapped 8 0x0003 := by
  unfold IsUnmapped; decide

theorem witness_WritesThatSelectNothingRaiseBus :
    State.reset.err = none ∧
      (facing State.reset (.write 0x0002 0)).port = .write 0x0002 0 :: [] ∧
      (facing State.reset (.write 0x8009 0)).port = .write 0x8009 0 :: [] := by decide

/-- The largest value of the register file's width, zero, and a negative value. -/
theorem witness_LoadEstablishesTheValue :
    let s := { on2 [] with port := load 3 (-(2 ^ 64 - 1)) ++ [PortEvent.read 0x0001] }
    s.err = none ∧ (-(2 ^ 64 - 1) : Int).natAbs < B ^ s.cfg.maxw ∧ (0 : Int).natAbs < B ^ s.cfg.maxw ∧
      s.port = load 3 (-(2 ^ 64 - 1)) ++ [PortEvent.read 0x0001] := by decide

theorem witness_ResetEventBringsTheResetState :
    (facing (on8 [(0, 5)]) .reset).port = .reset :: [] := by decide

theorem witness_StepKeepsTheInvariant :
    (facing State.reset (.write 0x8801 5)).Inv ∧
      step (facing State.reset (.write 0x8801 5)) = .next staged := ⟨by decide, rfl⟩

theorem witness_ValidRegisterHoldsItsValue :
    let s := on8 [(0, 0), (1, -(2 ^ 32 + 7))]
    s.Inv ∧ (s.reg 0).valid = true ∧ (s.reg 1).valid = true := by decide

/-- A register that stops holding a value, by a word write; one that comes to hold one, by a seal and by
a command. -/
theorem witness_ValidityChangesOnlyBy :
    let s := facing (on8 [(1, 7)]) (.write 0x8801 9)
    let u := facing staged (.write 0x8800 0x00010001)
    let v := facing (on8 [(1, 7)]) (.write 0x0000 0x12201000)
    (step s = .next (stepped s) ∧ (s.reg 1).valid = true ∧ ((stepped s).reg 1).valid = false) ∧
      (step u = .next (stepped u) ∧ (u.reg 1).valid = false ∧ ((stepped u).reg 1).valid = true) ∧
      (step v = .next (stepped v) ∧ (v.reg 2).valid = false ∧ ((stepped v).reg 2).valid = true) :=
  ⟨⟨rfl, by decide, by decide⟩, ⟨rfl, by decide, by decide⟩, rfl, by decide, by decide⟩

theorem witness_FlagsChangeOnlyByCompares :
    let s := facing (on8 [(0, 1), (1, 2)]) (.write 0x0000 0x14000100)
    step s = .next (stepped s) ∧ (stepped s).cmp ≠ s.cmp ∧ (stepped s).cmpv ≠ s.cmpv :=
  ⟨rfl, by decide, by decide⟩

/-- Two states that differ in `sign` and `len` of a register without a value. -/
theorem witness_FieldsWithoutAValueAreHidden :
    let s := facing State.reset (.read 0x8000)
    let u := s.setReg 0 { valid := false, sign := .neg, len := 5, w := [] }
    s.Alike u ∧ s ≠ u ∧ step s = .next (stepped s) := by
  refine ⟨?_, by decide, rfl⟩
  unfold State.Alike OperandReg.Alike
  decide

theorem witness_IntegersAreTheValues :
    (Value.mk .neg [7, 1]).wf = true ∧ (Value.mk .zero [0]).wf = true := by decide

theorem witness_AddAndSubtractMagnitudes :
    canonical [0xFFFFFFFF, 1] = true ∧ canonical [0] = true ∧ val [0] ≤ val [0xFFFFFFFF, 1] ∧
      val [0xFFFFFFFF, 1] ≤ val [0xFFFFFFFF, 1] := by decide

theorem witness_SignedDatapathMeetsTheIntegers :
    canonical [0] = true ∧ canonical [0, 1] = true ∧ (Value.mk .pos [0, 1]).wf = true ∧
      (Value.mk .neg [5]).wf = true := by decide

theorem witness_SchoolbookMultiplies :
    canonical [0xFFFFFFFF, 0xFFFFFFFF] = true ∧ (Value.mk .neg [0xFFFFFFFF]).wf = true := by decide

theorem witness_SingleWordDivision : ([7] : List Word) ≠ [] ∧ (1 : Word) ≠ 0 := by decide

/-- The window of trace 9.1 E. -/
theorem witness_TrialDigitIsAtMostOneTooLarge :
    let un : List Word := [0, 0, 0x80000000, 1]
    let vn : List Word := [0x80000000, 0, 0x80000000]
    2 ≤ vn.length ∧ 0 + vn.length < un.length ∧ 2 ^ 31 ≤ digit vn (vn.length - 1) ∧
      val ((un.drop 0).take (vn.length + 1)) < val vn * B := by decide

theorem witness_LongDivisionDivides :
    canonical [0, 0, 3] = true ∧ canonical [1, 0, 1] = true ∧ val [1, 0, 1] ≠ 0 ∧
      (Value.mk .neg [7]).wf = true ∧ (Value.mk .pos [2]).wf = true ∧ (Value.mk .pos [2]).int ≠ 0 := by
  decide

theorem witness_NegInverseWord : (1 : Word).toNat % 2 = 1 ∧ (0xFFFFFFFF : Word).toNat % 2 = 1 := by decide

/-- The largest operand for `m = 497`, and for `m = 1`. -/
theorem witness_WordSerialReductionReduces :
    (497 % 2 = 1 ∧ 497 * 2 ^ 32 - 1 < 497 * B ^ wordLen 497 ∧ 418 < 497 ∧
      418 * B ^ wordLen 497 % 497 = (497 * 2 ^ 32 - 1) % 497) ∧
      (1 % 2 = 1 ∧ 2 ^ 32 - 1 < 1 * B ^ wordLen 1) := by decide

theorem witness_SquareAndMultiplyPaths : (1 % 2 = 1 ∧ 0 < 1) ∧ (497 % 2 = 1 ∧ 496 < 497) ∧ 1 ≤ 1 := by
  decide

theorem witness_EvenModulusRecombination :
    (1 % 2 = 1 ∧ 1 ≤ 1 ∧ 0 < 1 ∧ 1 < 2 ^ 1) ∧ (31 % 2 = 1 ∧ 1 ≤ 4 ∧ 30 < 31 ∧ 15 < 2 ^ 4) := by decide

end Sys2Proof.Tests
end

section
/-!
PROOFS. Scope and values (00_scope.md): `mk` and `int` are inverse (R7), what a valid register holds
(R36), every transaction completes (R260), and two machines with different `MAXW` never disagree on a
value (R4, R227).
-/

namespace Sys2Proof.Machine

/-! ### Values (R7) -/

theorem Value.wf_iff {v : Value} :
    v.wf = true ↔ canonical v.mag = true ∧ (v.sign = .zero ↔ val v.mag = 0) := by
  simp [Value.wf]

/-- `mk(int(v)) = v` (R7): the sign and the canonical words are read back from the integer. -/
theorem mkValue_int {v : Value} (h : v.wf = true) : mkValue v.int = v := by
  obtain ⟨hcan, hsign⟩ := Value.wf_iff.mp h
  rw [mkValue, Value.int, sgn_toInt_mul hsign, natAbs_toInt_mul hsign, words_val hcan]

/-- Settles O47: each of `mk` and `int` undoes the other. -/
theorem integersAreTheValues : Obligations.IntegersAreTheValues :=
  ⟨fun z => ⟨Value.wf_mkValue z, Value.int_mkValue z⟩, fun _ => mkValue_int⟩

/-! ### What a valid register holds (R36) -/

theorem words_eq_zero_iff (k : Nat) : words k = [0] ↔ k = 0 := by
  constructor
  · intro h
    have hv := val_words k
    rw [h] at hv
    exact hv.symm
  · rintro rfl
    exact words_val (m := [0]) rfl

/-- A register's value has the words that its storage reads as below `len`. -/
theorem OperandReg.read_of_value {r : OperandReg} {v : Value} (h : r.value = some v) {k : Nat}
    (hk : k < r.len) : Memory.read r.w k = v.mag[k]? := by
  obtain ⟨-, m, hm, rfl⟩ : r.valid = true ∧
      ∃ m, Memory.collect r.w 0 r.len = some m ∧ { sign := r.sign, mag := m } = v := by
    simpa [OperandReg.value] using h
  simpa using (Memory.collect_eq_some.mp hm).2 k hk

/-- Settles O42, from what a well-formed valid register holds. -/
theorem validRegisterHoldsItsValue : Obligations.ValidRegisterHoldsItsValue := by
  intro s i hinv hvalid
  obtain ⟨hregs, -, -⟩ := hinv
  obtain ⟨z, hz, hfits, hsign, hlen⟩ := (hregs i).holds hvalid
  refine ⟨z, ?_, hfits, hsign, ?_, fun k hk => OperandReg.read_of_value hz hk,
    canonical_words _, ?_⟩
  · rw [State.rd, hz, Option.map_some, Value.int_mkValue]
  · rw [hlen, length_words]
  · rw [sgn_eq_zero_iff, words_eq_zero_iff, Int.natAbs_eq_zero]

/-! ### Every transaction completes (R260) -/

/-- A command always answers a next state: it has no stop and no refusal. -/
theorem exec_next (i : Instr) (s : State) : ∃ t, exec i s = .next t := by
  obtain ⟨k, hk, -⟩ := exec_eq_command i s
  rw [hk]
  exact command_next i s k

theorem executeWord_next (c : Word) (s : State) : ∃ t, executeWord c s = .next t := by
  rcases hd : decode c with x | i
  · exact ⟨_, executeWord_error hd s⟩
  · rw [executeWord_ok hd]
    exact exec_next i s

theorem hostWrite_next (a : Addr) (data : Word) (s : State) :
    ∃ t, hostWrite a data s = .next t := by
  unfold hostWrite
  split
  · exact ⟨_, rfl⟩
  · cases targetOf s.cfg.maxw a with
    | cmd => exact executeWord_next data s
    | status => dsimp only; split <;> exact ⟨_, rfl⟩
    | finfo | cfg | hdr _ | word _ _ | unmapped => exact ⟨_, rfl⟩

theorem perform_next (e : PortEvent) (s : State) : ∃ t, perform e s = .next t := by
  cases e with
  | reset => exact ⟨_, rfl⟩
  | read a => exact ⟨_, rfl⟩
  | write a data => exact hostWrite_next a data s

theorem step_next (s : State) : ∃ t, step s = .next t := by
  cases hp : s.port with
  | nil => exact ⟨_, step_idle hp⟩
  | cons e rest =>
    rw [step_cons hp]
    exact perform_next e _

/-- `t` has the host's pending transactions and the configuration of `s`. -/
def State.SameHost (s t : State) : Prop := t.port = s.port ∧ t.cfg = s.cfg

theorem State.sameHost_raise (s : State) (f : FaultCode) (info : Word) :
    s.SameHost (s.raise f info) := ⟨by simp, by simp⟩

theorem State.sameHost_sealReg (s : State) (r : RegId) (a : Addr) (data : Word) :
    s.SameHost (s.sealReg r a data) := by
  unfold State.sealReg
  split
  · exact s.sameHost_raise _ _
  · exact ⟨rfl, rfl⟩

theorem State.sameHost_hostRead (s : State) (a : Addr) : s.SameHost (hostRead a s) := by
  rcases hostRead_cases a s with ⟨v, h⟩ | h | h <;> rw [h]
  · exact ⟨rfl, rfl⟩
  · exact ⟨rfl, rfl⟩
  · exact s.sameHost_raise .bus (addrInfo a)

theorem State.sameHost_exec {i : Instr} {s t : State} (h : exec i s = .next t) : s.SameHost t := by
  rcases exec_cases h with ⟨f, -, -, rfl⟩ | ⟨d, z, -, -, -, rfl⟩ | ⟨d, q, e, r, -, -, -, -, rfl⟩ |
    ⟨c, -, -, rfl⟩
  · exact s.sameHost_raise f _
  · exact ⟨rfl, rfl⟩
  · exact ⟨rfl, rfl⟩
  · exact ⟨rfl, rfl⟩

/-- A step takes the first pending transaction from the host's list and keeps the configuration. -/
theorem step_takes_first {s t : State} (h : step s = .next t) :
    t.port = s.port.tail ∧ t.cfg = s.cfg := by
  rcases step_cases h with ⟨hp, rfl⟩ | ⟨e, rest, hp, hcase⟩
  · simp [hp]
  · have hkept : (s.accept rest).SameHost t := by
      rcases hcase with ⟨-, rfl⟩ | ⟨a, -, rfl⟩ | ⟨a, data, -, rfl | rfl | rfl⟩ |
        ⟨c, i, -, -, -, hx⟩ | ⟨c, x, -, -, -, rfl⟩ | ⟨r, data, -, -, rfl⟩ |
        ⟨r, k, data, -, -, -, rfl⟩
      · exact ⟨rfl, rfl⟩
      · exact State.sameHost_hostRead _ a
      · exact ⟨rfl, rfl⟩
      · exact ⟨rfl, rfl⟩
      · exact State.sameHost_raise _ _ _
      · exact State.sameHost_exec hx
      · exact State.sameHost_raise _ _ _
      · exact State.sameHost_sealReg _ r _ data
      · exact ⟨rfl, rfl⟩
    obtain ⟨hport, hcfg⟩ := hkept
    exact ⟨by rw [hport, hp]; rfl, hcfg⟩

/-- Settles O43: a step always answers, and every way it can end takes one transaction. -/
theorem everyStepCompletes : Obligations.EveryStepCompletes := by
  intro s
  obtain ⟨t, ht⟩ := step_next s
  exact ⟨t, ht, step_takes_first ht⟩

/-! ### Finite capacity (R4, R227) -/

/-- A check that raises a command's own fault keeps what the command aims at. -/
theorem aims_ite_error {i : Instr} {p : Prop} [Decidable p] {f : FaultCode} {k : Computed}
    (hf : f ≠ .format ∧ f ≠ .bus) (hk : Aims i k) : Aims i (if p then .error f else k) := by
  split
  · exact hf
  · exact hk

section TwoMachines

variable {s s' : State}

theorem withOne_congr {a : RegId} {k k' : Int → Computed} (ha : s.rd a = s'.rd a)
    (hk : ∀ x, k x = k' x) : withOne s a k = withOne s' a k' := by
  rw [funext hk, withOne, withOne, ha]

theorem withTwo_congr {a b : RegId} (ha : s.rd a = s'.rd a) (hb : s.rd b = s'.rd b)
    (k : Int → Int → Computed) : withTwo s a b k = withTwo s' a b k :=
  withOne_congr ha fun _ => withOne_congr hb fun _ => rfl

theorem withThree_congr {a b m : RegId} (ha : s.rd a = s'.rd a) (hb : s.rd b = s'.rd b)
    (hm : s.rd m = s'.rd m) (k : Int → Int → Int → Computed) :
    withThree s a b m k = withThree s' a b m k :=
  withOne_congr ha fun _ => withOne_congr hb fun _ => withOne_congr hm fun _ => rfl

variable {i : Instr} (h : ∀ r ∈ i.sources, s.rd r = s'.rd r)

/-- The two machines run R91 steps 5 and 6 of `i` on one and the same computed effect. -/
def SameComputed (i : Instr) (s s' : State) : Prop :=
  ∃ k, Aims i k ∧ exec i s = command i s k ∧ exec i s' = command i s' k

include h

theorem sameComputed_withOne {a : RegId} {k : Int → Computed} (hsrc : i.sources = [a])
    (hexec : ∀ u, exec i u = command i u (withOne u a k)) (haims : ∀ x, Aims i (k x)) :
    SameComputed i s s' := by
  rw [hsrc, List.forall_mem_singleton] at h
  exact ⟨withOne s a k, aims_withOne haims, hexec s,
    by rw [hexec, withOne_congr h fun _ => rfl]⟩

theorem sameComputed_withTwo {a b : RegId} {k : Int → Int → Computed} (hsrc : i.sources = [a, b])
    (hexec : ∀ u, exec i u = command i u (withTwo u a b k)) (haims : ∀ x y, Aims i (k x y)) :
    SameComputed i s s' := by
  rw [hsrc, List.forall_mem_cons, List.forall_mem_singleton] at h
  obtain ⟨ha, hb⟩ := h
  exact ⟨withTwo s a b k, aims_withTwo haims, hexec s, by rw [hexec, withTwo_congr ha hb]⟩

theorem sameComputed_withThree {a b m : RegId} {k : Int → Int → Int → Computed}
    (hsrc : i.sources = [a, b, m]) (hexec : ∀ u, exec i u = command i u (withThree u a b m k))
    (haims : ∀ x y z, Aims i (k x y z)) : SameComputed i s s' := by
  rw [hsrc, List.forall_mem_cons, List.forall_mem_cons, List.forall_mem_singleton] at h
  obtain ⟨ha, hb, hm⟩ := h
  exact ⟨withThree s a b m k, aims_withThree haims, hexec s,
    by rw [hexec, withThree_congr ha hb hm]⟩

/-- What a command computes depends on the integers of its source registers only, not on `MAXW`. -/
theorem sameComputed_of_sources : SameComputed i s s' := by
  cases i with
  | add d a b => exact sameComputed_withTwo h rfl (exec_add d a b) fun _ _ => ⟨rfl, rfl⟩
  | sub d a b => exact sameComputed_withTwo h rfl (exec_sub d a b) fun _ _ => ⟨rfl, rfl⟩
  | neg d a => exact sameComputed_withOne h rfl (exec_neg d a) fun _ => ⟨rfl, rfl⟩
  | abs d a => exact sameComputed_withOne h rfl (exec_abs d a) fun _ => ⟨rfl, rfl⟩
  | cmpm a b => exact sameComputed_withTwo h rfl (exec_cmpm a b) fun _ _ => ⟨rfl, rfl⟩
  | cmp a b => exact sameComputed_withTwo h rfl (exec_cmp a b) fun _ _ => ⟨rfl, rfl⟩
  | mul d a b => exact sameComputed_withTwo h rfl (exec_mul d a b) fun _ _ => ⟨rfl, rfl⟩
  | divrem d e a b =>
    exact sameComputed_withTwo h rfl (exec_divrem d e a b) fun _ _ =>
      aims_ite_error ⟨nofun, nofun⟩ ⟨rfl, rfl⟩
  | div d a b =>
    exact sameComputed_withTwo h rfl (exec_div d a b) fun _ _ =>
      aims_ite_error ⟨nofun, nofun⟩ ⟨rfl, rfl⟩
  | rem d a b =>
    exact sameComputed_withTwo h rfl (exec_rem d a b) fun _ _ =>
      aims_ite_error ⟨nofun, nofun⟩ ⟨rfl, rfl⟩
  | mod d a m =>
    exact sameComputed_withTwo h rfl (exec_mod d a m) fun _ _ =>
      aims_ite_error ⟨nofun, nofun⟩ ⟨rfl, rfl⟩
  | montmul d a b m =>
    exact sameComputed_withThree h rfl (exec_montmul d a b m) fun _ _ _ =>
      aims_withOddModulus (aims_ite_error ⟨nofun, nofun⟩ ⟨rfl, rfl⟩)
  | montred d a m =>
    exact sameComputed_withTwo h rfl (exec_montred d a m) fun _ _ =>
      aims_withOddModulus (aims_ite_error ⟨nofun, nofun⟩ ⟨rfl, rfl⟩)
  | montin d a m =>
    exact sameComputed_withTwo h rfl (exec_montin d a m) fun _ _ =>
      aims_withOddModulus ⟨rfl, rfl⟩
  | modpow d a b m =>
    exact sameComputed_withThree h rfl (exec_modpow d a b m) fun _ _ _ =>
      aims_ite_error ⟨nofun, nofun⟩ (by split <;> [exact ⟨nofun, nofun⟩; exact ⟨rfl, rfl⟩])
  | modinv d a m =>
    exact sameComputed_withTwo h rfl (exec_modinv d a m) fun _ _ =>
      aims_ite_error ⟨nofun, nofun⟩ (by split <;> [exact ⟨nofun, nofun⟩; exact ⟨rfl, rfl⟩])

end TwoMachines

/-! ### Committing an effect (R91 steps 5 and 6) -/

theorem State.commit_value_ok {s t : State} {d : RegId} {z : Int}
    (h : s.commit (.value d z) = .ok t) : t = s.put d z := by
  simp only [State.commit] at h
  split at h <;> cases h
  rfl

theorem State.commit_pair_ok {s t : State} {d e : RegId} {q r : Int}
    (h : s.commit (.pair d q e r) = .ok t) : t = (s.put d q).put e r := by
  simp only [State.commit] at h
  split at h <;> cases h
  rfl

theorem State.commit_compare_ok {s t : State} {c : Sign} (h : s.commit (.compare c) = .ok t) :
    t = s.setCompare c := by
  cases h
  rfl

/-- The one fault of R91 steps 5 and 6 is `Capacity`. -/
theorem State.commit_error {s : State} {e : Effect} {f : FaultCode} (h : s.commit e = .error f) :
    f = .capacity := by
  cases e with
  | value d z => simp only [State.commit] at h; split at h <;> cases h; rfl
  | pair d q e r => simp only [State.commit] at h; split at h <;> cases h; rfl
  | compare c => cases h

theorem State.commit_err {s t : State} {e : Effect} (h : s.commit e = .ok t) : t.err = s.err := by
  cases e with
  | value d z => rw [State.commit_value_ok h, State.put_err]
  | pair d q e r => rw [State.commit_pair_ok h, State.put_err, State.put_err]
  | compare c => rw [State.commit_compare_ok h, State.setCompare_err]

/-- A legal command with an effect to write raises `Capacity` or writes it. -/
theorem command_ok_cases {i : Instr} (hi : i.wf = true) {s t : State} {e : Effect}
    (h : command i s (.ok e) = .next t) :
    t = s.raise .capacity (encode i) ∨ s.commit e = .ok t := by
  simp only [command, hi, if_true, State.attempt] at h
  rcases hc : s.commit e with f | u
  · obtain rfl := State.commit_error hc
    simp only [hc] at h
    cases h
    exact Or.inl rfl
  · simp only [hc] at h
    cases h
    exact Or.inr rfl

theorem Instr.nodup_dests {i : Instr} (hi : i.wf = true) : i.dests.Nodup := by
  cases i with
  | divrem d e a b => simpa [Instr.dests] using of_decide_eq_true hi
  | _ => simp [Instr.dests]

/-- Where both machines write one effect, the destinations read alike, and so do the flags of a
command that writes them. -/
theorem commit_agree {i : Instr} (hi : i.wf = true) {e : Effect} (ha : Aims i (.ok e))
    {s s' t t' : State} (h : s.commit e = .ok t) (h' : s'.commit e = .ok t') :
    (∀ d ∈ i.dests, t.rd d = t'.rd d) ∧
      (i.writesFlags = true → t.cmp = t'.cmp ∧ t.cmpv = t'.cmpv) := by
  have hnodup := Instr.nodup_dests hi
  cases e with
  | value d z =>
    obtain ⟨hd, hw⟩ := ha
    rw [State.commit_value_ok h, State.commit_value_ok h']
    simp [hd, hw]
  | pair d q e r =>
    obtain ⟨hd, hw⟩ := ha
    have hde : d ≠ e := by simpa [hd] using hnodup
    rw [State.commit_pair_ok h, State.commit_pair_ok h']
    simp [hd, hw, State.rd_put_ne _ hde]
  | compare c =>
    obtain ⟨hd, -⟩ := ha
    rw [State.commit_compare_ok h, State.commit_compare_ok h']
    simp [hd]

/-- Settles O29: both machines compute one effect from the operands, so where the first writes it, the
second writes the same or raises `Capacity`. -/
theorem capacityNeverMakesAWrongValue : Obligations.CapacityNeverMakesAWrongValue := by
  intro i s s' t t' hi hs hs' hsrc ht ht' hterr
  obtain ⟨k, ha, hk, hk'⟩ := sameComputed_of_sources hsrc
  rw [hk] at ht
  rw [hk'] at ht'
  cases k with
  | error f =>
    rw [command_error hi, State.raise_of_none hs] at ht
    cases ht
    cases hterr
  | ok e =>
    rcases command_ok_cases hi ht with rfl | hc
    · rw [State.raise_of_none hs] at hterr
      cases hterr
    · rcases command_ok_cases hi ht' with rfl | hc'
      · exact Or.inl (by rw [State.raise_of_none hs'])
      · exact Or.inr ⟨(State.commit_err hc').trans hs', commit_agree hi ha hc hc'⟩

end Sys2Proof.Machine
end

section
/-!
PROOFS. State (10_state.md), first part: the invariant of every run (R20, R27, R28, R36). It holds after
reset, and every way a step can end keeps it.
-/

namespace Sys2Proof.Machine

/-- A register after reset is well formed: nothing is stored and no value is held (R35). -/
theorem OperandReg.wf_reset {maxw : Nat} (hm : 1 ≤ maxw) : OperandReg.reset.Wf maxw :=
  ⟨rfl, Nat.le_refl 1, hm, nofun⟩

/-- Settles O41: every register is the one after reset. -/
theorem resetMeetsTheInvariant : Obligations.ResetMeetsTheInvariant := by
  intro cfg
  refine ⟨fun i => ?_, fun _ => rfl, fun _ => rfl⟩
  rw [State.reg_resetWith]
  exact OperandReg.wf_reset cfg.maxw_pos

namespace State.Inv

variable {s t : State} (h : s.Inv)

include h

theorem accept (rest : List PortEvent) : (s.accept rest).Inv := h

theorem answerWord (v : Word) : (s.answerWord v).Inv := h

theorem answerUnspecified : s.answerUnspecified.Inv := h

theorem clearFault : s.clearFault.Inv := by
  obtain ⟨hregs, -, hflags⟩ := h
  exact ⟨hregs, fun _ => rfl, hflags⟩

theorem setCompare (c : Sign) : (s.setCompare c).Inv := by
  obtain ⟨hregs, hfinfo, -⟩ := h
  exact ⟨hregs, hfinfo, nofun⟩

/-- Staging a word below `MAXW` (R58) keeps the storage canonical and leaves no value to be wrong. -/
theorem stage {r : RegId} {k : Nat} (hk : k < s.cfg.maxw) (data : Word) :
    (s.stage r k data).Inv := by
  obtain ⟨hw, hpos, hle, -⟩ := h.1 r
  exact h.setReg ⟨Memory.wf_write data hk hw, hpos, hle, nofun⟩

theorem sealReg (r : RegId) (a : Addr) (data : Word) : (s.sealReg r a data).Inv := by
  unfold State.sealReg
  split
  · exact h.raise _ _
  · exact h.setReg (OperandReg.Wf.sealed (h.1 r) ‹_›)

theorem hostRead (a : Addr) : (hostRead a s).Inv := by
  rcases hostRead_cases a s with ⟨v, hr⟩ | hr | hr <;> rw [hr]
  · exact h.answerWord v
  · exact h.answerUnspecified
  · exact (h.raise _ _).answerUnspecified

theorem exec {i : Instr} (ht : exec i s = .next t) : t.Inv := by
  rcases exec_cases ht with ⟨f, -, -, rfl⟩ | ⟨d, z, -, -, hz, rfl⟩ |
    ⟨d, q, e, r, -, -, hq, hr, rfl⟩ | ⟨c, -, -, rfl⟩
  · exact h.raise f _
  · exact h.put hz
  · exact (h.put hq).put hr
  · exact h.setCompare c

end State.Inv

/-- The reset input brings back a state that meets the invariant, whatever the state before (R250). -/
theorem State.inv_resetHardware (s : State) : s.resetHardware.Inv :=
  resetMeetsTheInvariant s.cfg

/-- Settles O40: each of the ways a step can end keeps the invariant. -/
theorem stepKeepsTheInvariant : Obligations.StepKeepsTheInvariant := by
  intro s t h ht
  rcases step_cases ht with ⟨-, rfl⟩ | ⟨e, rest, -, hcase⟩
  · exact h
  · have hacc := h.accept rest
    rcases hcase with ⟨-, rfl⟩ | ⟨a, -, rfl⟩ | ⟨a, data, -, rfl | rfl | rfl⟩ |
      ⟨c, i, -, -, -, hx⟩ | ⟨c, x, -, -, -, rfl⟩ | ⟨r, data, -, -, rfl⟩ |
      ⟨r, k, data, -, -, hk, rfl⟩
    · exact State.inv_resetHardware _
    · exact hacc.hostRead a
    · exact hacc
    · exact hacc.clearFault
    · exact hacc.raise _ _
    · exact hacc.exec hx
    · exact hacc.raise _ _
    · exact hacc.sealReg r _ data
    · exact hacc.stage hk data

end Sys2Proof.Machine
end

section
/-!
PROOFS. State (10_state.md), second part: `sign` and `len` of a register without a value are hidden
(R20, R35, U5). Alike states stay alike under each operation, and so under every step.
-/

namespace Sys2Proof.Machine

/-! ### Alike registers -/

namespace OperandReg.Alike

variable {r q : OperandReg} (h : r.Alike q)

theorem refl (r : OperandReg) : r.Alike r := ⟨rfl, rfl, fun _ => ⟨rfl, rfl⟩⟩

include h

/-- Alike registers without a value have the same storage; with one they are equal. -/
theorem cases : (r.valid = false ∧ q.valid = false ∧ r.w = q.w) ∨ r = q := by
  obtain ⟨hvalid, hw, hfields⟩ := h
  cases hr : r.valid with
  | false => exact Or.inl ⟨rfl, hvalid ▸ hr, hw⟩
  | true =>
    obtain ⟨hsign, hlen⟩ := hfields hr
    cases r
    cases q
    simp_all

theorem value_eq : r.value = q.value := by
  rcases h.cases with ⟨hr, hq, -⟩ | rfl
  · simp [OperandReg.value, hr, hq]
  · rfl

theorem header_eq : r.header = q.header := by
  rcases h.cases with ⟨hr, hq, -⟩ | rfl
  · simp [OperandReg.header, hr, hq]
  · rfl

theorem wordRead_eq (k : Nat) : r.wordRead k = q.wordRead k := by
  rcases h.cases with ⟨hr, hq, hw⟩ | rfl
  · simp [OperandReg.wordRead, hr, hq, hw]
  · rfl

/-- A seal looks at the storage only, and writes every other field (R59). -/
theorem sealed_eq (maxw : Nat) (data : Word) : r.sealed maxw data = q.sealed maxw data := by
  obtain ⟨-, hw, -⟩ := h
  unfold OperandReg.sealed
  rw [hw]

end OperandReg.Alike

/-! ### Alike states -/

namespace State.Alike

variable {s t : State} (h : s.Alike t)

include h

theorem reg (i : RegId) : (s.reg i).Alike (t.reg i) := h.1 i

theorem rd_eq (i : RegId) : s.rd i = t.rd i := by
  rw [State.rd, State.rd, (h.reg i).value_eq]

theorem cfg_eq : s.cfg = t.cfg := h.2.1

theorem err_eq : s.err = t.err := h.2.2.1

theorem finfo_eq : s.finfo = t.finfo := by
  obtain ⟨-, -, -, -, -, hfinfo, -⟩ := h
  exact hfinfo

theorem statusWord_eq : s.statusWord = t.statusWord := by
  obtain ⟨-, -, herr, hcmp, hcmpv, -⟩ := h
  rw [State.statusWord, State.statusWord, State.errCode, State.errCode, herr, hcmp, hcmpv]

theorem accept (rest : List PortEvent) : (s.accept rest).Alike (t.accept rest) := by
  obtain ⟨hreg, hcfg, herr, hcmp, hcmpv, hfinfo, -, -, hdraws⟩ := h
  exact ⟨hreg, hcfg, herr, hcmp, hcmpv, hfinfo, rfl, rfl, hdraws⟩

theorem answerWord {v v' : Word} (hv : v = v') : (s.answerWord v).Alike (t.answerWord v') := by
  obtain ⟨hreg, hcfg, herr, hcmp, hcmpv, hfinfo, hport, -, hdraws⟩ := h
  exact ⟨hreg, hcfg, herr, hcmp, hcmpv, hfinfo, hport, congrArg some hv, hdraws⟩

/-- The same free word is drawn. -/
theorem answerUnspecified : s.answerUnspecified.Alike t.answerUnspecified := by
  obtain ⟨hreg, hcfg, herr, hcmp, hcmpv, hfinfo, hport, -, hdraws⟩ := h
  exact ⟨hreg, hcfg, herr, hcmp, hcmpv, hfinfo, hport, by simp [hdraws], by simp [hdraws]⟩

theorem clearFault : s.clearFault.Alike t.clearFault := by
  obtain ⟨hreg, hcfg, -, hcmp, hcmpv, -, hport, hanswer, hdraws⟩ := h
  exact ⟨hreg, hcfg, rfl, hcmp, hcmpv, rfl, hport, hanswer, hdraws⟩

theorem setCompare (c : Sign) : (s.setCompare c).Alike (t.setCompare c) := by
  obtain ⟨hreg, hcfg, herr, -, -, hfinfo, hport, hanswer, hdraws⟩ := h
  exact ⟨hreg, hcfg, herr, rfl, rfl, hfinfo, hport, hanswer, hdraws⟩

theorem resetHardware : s.resetHardware.Alike t.resetHardware := by
  obtain ⟨-, hcfg, -, -, -, -, hport, -, hdraws⟩ := h
  refine ⟨fun i => ?_, hcfg, rfl, rfl, rfl, rfl, hport, rfl, hdraws⟩
  rw [State.reg_resetHardware, State.reg_resetHardware]
  exact OperandReg.Alike.refl _

theorem setReg {r q : OperandReg} (i : RegId) (hrq : r.Alike q) :
    (s.setReg i r).Alike (t.setReg i q) := by
  obtain ⟨hreg, hrest⟩ := h
  refine ⟨fun j => ?_, hrest⟩
  by_cases hj : j = i
  · subst hj
    simpa using hrq
  · rw [State.reg_setReg_ne _ _ hj, State.reg_setReg_ne _ _ hj]
    exact hreg j

theorem put (d : RegId) (z : Int) : (s.put d z).Alike (t.put d z) :=
  h.setReg d (OperandReg.Alike.refl _)

theorem raise (f : FaultCode) (info : Word) : (s.raise f info).Alike (t.raise f info) := by
  have herr := h.err_eq
  cases hs : s.err with
  | some g =>
    rwa [State.raise_of_some hs, State.raise_of_some (herr ▸ hs)]
  | none =>
    rw [State.raise_of_none hs, State.raise_of_none (herr ▸ hs)]
    obtain ⟨hreg, hcfg, -, hcmp, hcmpv, -, hport, hanswer, hdraws⟩ := h
    exact ⟨hreg, hcfg, rfl, hcmp, hcmpv, rfl, hport, hanswer, hdraws⟩

theorem stage (r : RegId) (k : Nat) (data : Word) : (s.stage r k data).Alike (t.stage r k data) := by
  obtain ⟨-, hw, -⟩ := h.reg r
  exact h.setReg r ⟨rfl, by rw [hw], nofun⟩

theorem sealReg (r : RegId) (a : Addr) (data : Word) :
    (s.sealReg r a data).Alike (t.sealReg r a data) := by
  rw [State.sealReg, State.sealReg, (h.reg r).sealed_eq, h.cfg_eq]
  split
  · exact h.raise _ _
  · exact h.setReg r (OperandReg.Alike.refl _)

theorem hostRead (a : Addr) : (hostRead a s).Alike (hostRead a t) := by
  rw [Machine.hostRead, Machine.hostRead, h.cfg_eq]
  cases targetOf t.cfg.maxw a with
  | cmd | unmapped => exact (h.raise _ _).answerUnspecified
  | status => exact h.answerWord h.statusWord_eq
  | finfo => exact h.answerWord h.finfo_eq
  | cfg => exact h.answerWord (by rw [State.cfgWord, State.cfgWord, h.cfg_eq])
  | hdr r => exact h.answerWord (h.reg r).header_eq
  | word r k =>
    dsimp only
    rw [(h.reg r).wordRead_eq]
    split
    · exact h.answerWord rfl
    · exact h.answerUnspecified

end State.Alike

/-! ### Alike outcomes -/

/-- Both outcomes are next states, and these are alike. -/
def AlikeNext (o o' : Host.Outcome State Fault Refusal) : Prop :=
  ∃ t t', o = .next t ∧ o' = .next t' ∧ t.Alike t'

theorem State.Alike.next {t t' : State} (h : t.Alike t') : AlikeNext (.next t) (.next t') :=
  ⟨t, t', rfl, rfl, h⟩

section Operations

variable {s s' : State} (h : s.Alike s')

include h

theorem commit_alike (e : Effect) :
    (∃ f, s.commit e = .error f ∧ s'.commit e = .error f) ∨
      ∃ t t', s.commit e = .ok t ∧ s'.commit e = .ok t' ∧ t.Alike t' := by
  have hfits : ∀ z, s.fits z = s'.fits z := fun z => by rw [State.fits, State.fits, h.cfg_eq]
  cases e with
  | value d z =>
    simp only [State.commit, hfits]
    split
    · exact Or.inr ⟨_, _, rfl, rfl, h.put d z⟩
    · exact Or.inl ⟨_, rfl, rfl⟩
  | pair d q e r =>
    simp only [State.commit, hfits]
    split
    · exact Or.inr ⟨_, _, rfl, rfl, (h.put d q).put e r⟩
    · exact Or.inl ⟨_, rfl, rfl⟩
  | compare c => exact Or.inr ⟨_, _, rfl, rfl, h.setCompare c⟩

theorem command_alike (i : Instr) (k : Computed) : AlikeNext (command i s k) (command i s' k) := by
  unfold command
  split
  · cases k with
    | error f => exact (h.raise f _).next
    | ok e =>
      rcases commit_alike h e with ⟨f, hs, hs'⟩ | ⟨t, t', hs, hs', ht⟩
      · simp only [State.attempt, hs, hs']
        exact (h.raise f _).next
      · simp only [State.attempt, hs, hs']
        exact ht.next
  · exact (h.raise _ _).next

/-- The operands read alike, so both states compute one effect. -/
theorem exec_alike (i : Instr) : AlikeNext (exec i s) (exec i s') := by
  obtain ⟨k, -, hk, hk'⟩ := sameComputed_of_sources fun r (_ : r ∈ i.sources) => h.rd_eq r
  rw [hk, hk']
  exact command_alike h i k

theorem executeWord_alike (c : Word) : AlikeNext (executeWord c s) (executeWord c s') := by
  cases hd : decode c with
  | error x =>
    rw [executeWord_error hd, executeWord_error hd]
    exact (h.raise _ _).next
  | ok i =>
    rw [executeWord_ok hd, executeWord_ok hd]
    exact exec_alike h i

theorem hostWrite_alike (a : Addr) (data : Word) :
    AlikeNext (hostWrite a data s) (hostWrite a data s') := by
  rw [hostWrite, hostWrite, h.err_eq, h.cfg_eq]
  split
  · exact h.next
  · cases targetOf s'.cfg.maxw a with
    | cmd => exact executeWord_alike h data
    | status =>
      dsimp only
      split
      · exact h.clearFault.next
      · exact h.next
    | finfo | cfg | unmapped => exact (h.raise _ _).next
    | hdr r => exact (h.sealReg r a data).next
    | word r k => exact (h.stage r k data).next

theorem perform_alike (e : PortEvent) : AlikeNext (perform e s) (perform e s') := by
  cases e with
  | reset => exact h.resetHardware.next
  | read a => exact (h.hostRead a).next
  | write a data => exact hostWrite_alike h a data

theorem step_alike : AlikeNext (step s) (step s') := by
  have hport : s.port = s'.port := by
    obtain ⟨-, -, -, -, -, -, hport, -⟩ := h
    exact hport
  cases hp : s.port with
  | nil =>
    rw [step_idle hp, step_idle (hport ▸ hp)]
    exact h.next
  | cons e rest =>
    rw [step_cons hp, step_cons (hport ▸ hp)]
    exact perform_alike (h.accept rest) e

end Operations

/-- Settles O46: alike states step to alike states, and the word answered is one of the fields in which
alike states agree. -/
theorem fieldsWithoutAValueAreHidden : Obligations.FieldsWithoutAValueAreHidden := by
  intro s s' t h ht
  obtain ⟨u, t', hu, hstep, hut⟩ := step_alike h
  rw [hu] at ht
  cases ht
  exact ⟨t', hstep, hut⟩

end Sys2Proof.Machine
end

section
/-!
PROOFS. Command words (30_encoding.md) as far as the state needs them: a word that decodes is the
encoding of the legal command it decodes to (R84, R85), and no 16-bit address decodes.
-/

namespace Sys2Proof.Machine

/-- The one row that can read a word is that of its opcode (R84). -/
theorem decode_ok {c : Word} {i : Instr} (h : decode c = .ok i) :
    ∃ r ∈ opRows, r.op = slice 31 24 c ∧ r.read c = .ok i := by
  unfold decode at h
  split at h
  · cases h
  · rename_i r hr
    have hop := List.find?_some hr
    exact ⟨r, List.mem_of_find?_eq_some hr, by simpa using hop, h⟩

/-- Every check that a row passes to read a word (R85), and the command it builds. -/
theorem OpRow.read_ok {r : OpRow} {c : Word} {i : Instr} (h : r.read c = .ok i) :
    slice 7 0 c = 0 ∧ (r.usesD = false → slice 23 20 c = 0) ∧
      (r.usesE = false → slice 19 16 c = 0) ∧ (r.usesA = false → slice 15 12 c = 0) ∧
      (r.usesB = false → slice 11 8 c = 0) ∧ i.wf = true ∧
      i = r.build (regOf (slice 23 20 c)) (regOf (slice 19 16 c)) (regOf (slice 15 12 c))
        (regOf (slice 11 8 c)) := by
  simp only [OpRow.read, ite_eq_iff, reduceCtorEq, and_false, false_or, not_and, not_not,
    Except.ok.injEq, or_false, ne_eq] at h
  obtain ⟨hz, hd, he, ha, hb, hwf, rfl⟩ := h
  exact ⟨hz, hd, he, ha, hb, hwf, rfl⟩

/-- A row's command encodes to the row's opcode and the fields, the unused ones zero (R83, R88). -/
theorem encode_build : ∀ r ∈ opRows, ∀ d e a b : RegId, (r.usesD = false → d = 0) →
    (r.usesE = false → e = 0) → (r.usesA = false → a = 0) → (r.usesB = false → b = 0) →
    encode (r.build d e a b) = packWord r.op d e a b := by
  simp +contextual [opRows, rowsAdder, rowsMulDiv, rowsModular, encode]

/-- The encoding of what a word decodes to is the word, and that command is legal (R85). -/
theorem encode_of_decode {c : Word} {i : Instr} (h : decode c = .ok i) :
    i.wf = true ∧ encode i = c := by
  obtain ⟨r, hr, hop, hread⟩ := decode_ok h
  obtain ⟨hz, hd, he, ha, hb, hwf, rfl⟩ := OpRow.read_ok hread
  refine ⟨hwf, ?_⟩
  have hreg : ∀ n, n = 0 → regOf n = 0 := by rintro _ rfl; rfl
  rw [encode_build r hr _ _ _ _ (hreg _ ∘ hd) (hreg _ ∘ he) (hreg _ ∘ ha) (hreg _ ∘ hb), hop,
    packWord_slices c hz]

/-- The opcodes of R84 begin at `0x10`, so the word of a command has a bit set above bit 15. -/
theorem two_pow_le_of_decode {c : Word} {i : Instr} (h : decode c = .ok i) : 2 ^ 16 ≤ c.toNat := by
  obtain ⟨r, hr, hop, -⟩ := decode_ok h
  have hrows : ∀ q ∈ opRows, 0x10 ≤ q.op := by decide
  have hle := hrows r hr
  rw [hop, slice] at hle
  omega

end Sys2Proof.Machine
end

section
/-!
PROOFS. State (10_state.md), third part: the state after reset (R35), what a command leaves alone
(R26, R31, R91, R230) and when it finds a source without a value (R22, R222), what FINFO tells (R231),
and what changes the validity of a register (R22) and the compare flags (R31).
-/

namespace Sys2Proof.Machine

/-! ### After reset (R35) -/

/-- Settles O38: every register is the one after reset, and the words read are computed from the
fields. -/
theorem stateAfterReset : Obligations.StateAfterReset := by
  intro cfg
  refine ⟨fun i => ?_, rfl, rfl, rfl, rfl, rfl, ?_⟩
  · rw [State.reg_resetWith]
    exact ⟨rfl, rfl, fun _ => rfl⟩
  · rw [State.cfgWord, Nat.add_assoc, BitVec.ofNat_add, BitVec.add_comm]
    rfl

/-! ### What a command leaves alone (R26, R31, R91, R230) -/

/-- A destination write leaves a register as it was, or it is the one written, and then it is valid. -/
theorem State.reg_put (s : State) (d : RegId) (z : Int) (r : RegId) :
    (s.put d z).reg r = s.reg r ∨ r = d ∧ ((s.put d z).reg r).valid = true := by
  by_cases hr : r = d
  · subst hr
    exact Or.inr ⟨rfl, by rw [State.reg_put_self]; rfl⟩
  · exact Or.inl (State.reg_put_ne s z hr)

section Frame

variable {i : Instr} {s t : State} (h : exec i s = .next t)

include h

/-- A command leaves a register as it was, or writes it as a destination, and then it is valid. -/
theorem exec_reg (r : RegId) :
    t.reg r = s.reg r ∨ r ∈ i.dests ∧ (t.reg r).valid = true := by
  rcases exec_cases h with ⟨f, -, -, rfl⟩ | ⟨d, z, hd, -, -, rfl⟩ |
    ⟨d, q, e, z, hd, -, -, -, rfl⟩ | ⟨c, -, -, rfl⟩
  · exact Or.inl (State.reg_raise s f _ r)
  · rw [hd]
    exact (s.reg_put d z r).imp id fun ⟨hr, hv⟩ => ⟨by simp [hr], hv⟩
  · rw [hd]
    rcases (s.put d q).reg_put e z r with he | ⟨hr, hv⟩
    · rw [he]
      exact (s.reg_put d q r).imp id fun ⟨hr, hv⟩ => ⟨by simp [hr], hv⟩
    · exact Or.inr ⟨by simp [hr], hv⟩
  · exact Or.inl rfl

/-- The compare flags are kept, or CMPM or CMP has written them. -/
theorem exec_flags :
    t.cmp = s.cmp ∧ t.cmpv = s.cmpv ∨ i.writesFlags = true ∧ t.cmpv = true := by
  rcases exec_cases h with ⟨f, -, -, rfl⟩ | ⟨d, z, -, -, -, rfl⟩ |
    ⟨d, q, e, z, -, -, -, -, rfl⟩ | ⟨c, -, hw, rfl⟩
  · exact Or.inl ⟨State.raise_cmp .., State.raise_cmpv ..⟩
  · exact Or.inl ⟨rfl, rfl⟩
  · exact Or.inl ⟨rfl, rfl⟩
  · exact Or.inr ⟨hw, rfl⟩

/-- ERR and FINFO are kept, or a fault is latched outside the faulted state with the command word, and
that is all that happens. -/
theorem exec_fault : t.err = s.err ∧ t.finfo = s.finfo ∨
    ∃ f, f ≠ .format ∧ f ≠ .bus ∧ s.err = none ∧ t = { s with err := some f, finfo := encode i } := by
  rcases exec_cases h with ⟨f, hformat, hbus, rfl⟩ | ⟨d, z, -, -, -, rfl⟩ |
    ⟨d, q, e, z, -, -, -, -, rfl⟩ | ⟨c, -, -, rfl⟩
  · cases hs : s.err with
    | none => exact Or.inr ⟨f, hformat, hbus, rfl, State.raise_of_none hs f _⟩
    | some g => exact Or.inl (by rw [State.raise_of_some hs]; exact ⟨hs, rfl⟩)
  · exact Or.inl ⟨rfl, rfl⟩
  · exact Or.inl ⟨rfl, rfl⟩
  · exact Or.inl ⟨rfl, rfl⟩

theorem exec_answer_draws : t.answer = s.answer ∧ t.draws = s.draws := by
  rcases exec_cases h with ⟨f, -, -, rfl⟩ | ⟨d, z, -, -, -, rfl⟩ |
    ⟨d, q, e, z, -, -, -, -, rfl⟩ | ⟨c, -, -, rfl⟩
  · exact ⟨State.raise_answer .., State.raise_draws ..⟩
  · exact ⟨rfl, rfl⟩
  · exact ⟨rfl, rfl⟩
  · exact ⟨rfl, rfl⟩

end Frame

/-- Settles O26, field by field, from every way a command can end. -/
theorem commandFrame : Obligations.CommandFrame := by
  intro i s t h
  obtain ⟨hport, hcfg⟩ := State.sameHost_exec h
  obtain ⟨hanswer, hdraws⟩ := exec_answer_draws h
  refine ⟨fun r hr => ?_, fun hw => ?_, ⟨hcfg, hport, hanswer, hdraws⟩, ?_⟩
  · exact (exec_reg h r).resolve_right fun ⟨hmem, _⟩ => hr hmem
  · exact (exec_flags h).resolve_right fun ⟨hw', _⟩ => by simp [hw] at hw'
  · refine (exec_fault h).imp id ?_
    rintro ⟨f, -, -, hs, rfl⟩
    exact ⟨nofun, hs, rfl, rfl, rfl⟩

/-! ### Fetching the sources (R91 step 2) -/

/-- The command first fetches its sources, in order, and computes from their integers alone; what it
computes from them is never `Illegal` (R221). -/
inductive FetchesFirst (i : Instr) : Prop
  | one {a : RegId} {k : Int → Computed} (hsrc : i.sources = [a])
      (hexec : ∀ s, exec i s = command i s (withOne s a k)) (hk : ∀ x, k x ≠ .error .illegal)
  | two {a b : RegId} {k : Int → Int → Computed} (hsrc : i.sources = [a, b])
      (hexec : ∀ s, exec i s = command i s (withTwo s a b k)) (hk : ∀ x y, k x y ≠ .error .illegal)
  | three {a b m : RegId} {k : Int → Int → Int → Computed} (hsrc : i.sources = [a, b, m])
      (hexec : ∀ s, exec i s = command i s (withThree s a b m k))
      (hk : ∀ x y z, k x y z ≠ .error .illegal)

theorem ite_error_ne_illegal {p : Prop} [Decidable p] {f : FaultCode} {k : Computed}
    (hf : f ≠ .illegal) (hk : k ≠ .error .illegal) :
    (if p then .error f else k) ≠ (.error .illegal : Computed) := by
  split
  · simpa using hf
  · exact hk

theorem withOddModulus_ne_illegal {m : Int} {k : Computed} (hk : k ≠ .error .illegal) :
    withOddModulus m k ≠ .error .illegal :=
  ite_error_ne_illegal nofun (ite_error_ne_illegal nofun hk)

theorem withOne_ne_illegal {s : State} {a : RegId} {k : Int → Computed}
    (hk : ∀ x, k x ≠ .error .illegal) : withOne s a k ≠ .error .illegal := by
  unfold withOne
  split
  · nofun
  · exact hk _

/-- Every command fetches first: R91 step 2 comes before the command's own checks. -/
theorem exec_fetchesFirst (i : Instr) : FetchesFirst i := by
  cases i with
  | add d a b => exact .two rfl (exec_add d a b) fun _ _ => nofun
  | sub d a b => exact .two rfl (exec_sub d a b) fun _ _ => nofun
  | neg d a => exact .one rfl (exec_neg d a) fun _ => nofun
  | abs d a => exact .one rfl (exec_abs d a) fun _ => nofun
  | cmpm a b => exact .two rfl (exec_cmpm a b) fun _ _ => nofun
  | cmp a b => exact .two rfl (exec_cmp a b) fun _ _ => nofun
  | mul d a b => exact .two rfl (exec_mul d a b) fun _ _ => nofun
  | divrem d e a b =>
    exact .two rfl (exec_divrem d e a b) fun _ _ => ite_error_ne_illegal nofun nofun
  | div d a b => exact .two rfl (exec_div d a b) fun _ _ => ite_error_ne_illegal nofun nofun
  | rem d a b => exact .two rfl (exec_rem d a b) fun _ _ => ite_error_ne_illegal nofun nofun
  | mod d a m => exact .two rfl (exec_mod d a m) fun _ _ => ite_error_ne_illegal nofun nofun
  | montmul d a b m =>
    exact .three rfl (exec_montmul d a b m) fun _ _ _ =>
      withOddModulus_ne_illegal (ite_error_ne_illegal nofun nofun)
  | montred d a m =>
    exact .two rfl (exec_montred d a m) fun _ _ =>
      withOddModulus_ne_illegal (ite_error_ne_illegal nofun nofun)
  | montin d a m =>
    exact .two rfl (exec_montin d a m) fun _ _ => withOddModulus_ne_illegal nofun
  | modpow d a b m =>
    exact .three rfl (exec_modpow d a b m) fun _ _ _ =>
      ite_error_ne_illegal nofun (by split <;> nofun)
  | modinv d a m =>
    exact .two rfl (exec_modinv d a m) fun _ _ =>
      ite_error_ne_illegal nofun (by split <;> nofun)

/-- A command with a source without a value is a command that computes `Absent`. -/
theorem exec_of_rd_none {i : Instr} {s : State} {r : RegId} (hr : r ∈ i.sources)
    (hn : s.rd r = none) : exec i s = command i s (.error .absent) := by
  cases exec_fetchesFirst i with
  | one hsrc hexec => rw [hexec, withOne_absent hn (Or.inl (by simpa [hsrc] using hr))]
  | two hsrc hexec => rw [hexec, withTwo_absent hn (by simpa [hsrc] using hr)]
  | three hsrc hexec => rw [hexec, withThree_absent hn (by simpa [hsrc] using hr)]

/-- Settles O7: the fetch of the sources comes before every other check. -/
theorem absentSourceFaults : Obligations.AbsentSourceFaults := by
  intro s i r hs hi hr hvalid
  refine faultsWith_of_raise hs ?_
  rw [exec_of_rd_none hr (State.rd_of_invalid hvalid), command_error hi]

/-- What a command computes after its fetch is never `Illegal`. -/
theorem exec_computes (i : Instr) (s : State) :
    ∃ k, exec i s = command i s k ∧ k ≠ .error .illegal := by
  cases exec_fetchesFirst i with
  | one _ hexec hk => exact ⟨_, hexec s, withOne_ne_illegal hk⟩
  | two _ hexec hk => exact ⟨_, hexec s, withOne_ne_illegal fun x => withOne_ne_illegal (hk x)⟩
  | three _ hexec hk =>
    exact ⟨_, hexec s, withOne_ne_illegal fun x => withOne_ne_illegal fun y =>
      withOne_ne_illegal (hk x y)⟩

/-- `Illegal` is a fault of the decoder: a legal command never raises it (R221, R91 step 1). -/
theorem exec_err_ne_illegal {i : Instr} (hi : i.wf = true) {s t : State} (hs : s.err = none)
    (h : exec i s = .next t) : t.err ≠ some .illegal := by
  obtain ⟨k, hk, hne⟩ := exec_computes i s
  rw [hk] at h
  cases k with
  | error f =>
    rw [command_error hi, State.raise_of_none hs] at h
    cases h
    simpa using hne
  | ok e =>
    rcases command_ok_cases hi h with rfl | hc
    · rw [State.raise_of_none hs]
      nofun
    · rw [State.commit_err hc, hs]
      nofun

/-! ### What FINFO tells (R231) -/

theorem addrInfo_lt (a : Addr) : (addrInfo a).toNat < 2 ^ 16 := by
  have ha := a.isLt
  rw [addrInfo, BitVec.toNat_setWidth]
  omega

namespace State.FinfoInv

variable {s t : State}

/-- What FINFO tells depends on ERR and FINFO only. -/
theorem congr (h : s.FinfoInv) (herr : t.err = s.err) (hfinfo : t.finfo = s.finfo) :
    t.FinfoInv := by
  unfold State.FinfoInv
  rw [herr, hfinfo]
  exact h

/-- It is enough that the information word fits the fault where it is latched. -/
theorem raise (h : s.FinfoInv) {f : FaultCode} {info : Word}
    (hnew : ({ s with err := some f, finfo := info } : State).FinfoInv) :
    (s.raise f info).FinfoInv := by
  cases hs : s.err with
  | none => rwa [State.raise_of_none hs]
  | some g => rwa [State.raise_of_some hs]

theorem raise_bus (h : s.FinfoInv) (a : Addr) : (s.raise .bus (addrInfo a)).FinfoInv :=
  h.raise (addrInfo_lt a)

theorem raise_illegal (h : s.FinfoInv) {c : Word} {x : DecodeError} (hd : decode c = .error x) :
    (s.raise .illegal c).FinfoInv :=
  h.raise (by show (decode c).toOption = none; rw [hd]; rfl)

theorem hostRead (h : s.FinfoInv) (a : Addr) : (hostRead a s).FinfoInv := by
  rcases hostRead_cases a s with ⟨v, hr⟩ | hr | hr <;> rw [hr]
  · exact h.congr rfl rfl
  · exact h.congr rfl rfl
  · exact (h.raise_bus a).congr rfl rfl

theorem sealReg (h : s.FinfoInv) (r : RegId) (a : Addr) (data : Word) :
    (s.sealReg r a data).FinfoInv := by
  unfold State.sealReg
  split
  · rename_i f hf
    rcases OperandReg.sealed_error hf with rfl | rfl
    · exact h.raise (addrInfo_lt a)
    · exact h.raise (Or.inr (addrInfo_lt a))
  · exact h.congr rfl rfl

/-- A command that decodes latches its own word, which decodes, and not with `Illegal`. -/
theorem exec (h : s.FinfoInv) (hs : s.err = none) {c : Word} {i : Instr} (hd : decode c = .ok i)
    (ht : exec i s = .next t) : t.FinfoInv := by
  obtain ⟨hwf, henc⟩ := encode_of_decode hd
  have hillegal := exec_err_ne_illegal hwf hs ht
  rcases exec_fault ht with ⟨herr, hfinfo⟩ | ⟨f, hformat, hbus, -, rfl⟩
  · exact h.congr herr hfinfo
  · have hdec : (decode (encode i)).toOption ≠ none := by
      rw [henc, hd]
      nofun
    cases f with
    | illegal => exact absurd rfl hillegal
    | format => exact absurd rfl hformat
    | bus => exact absurd rfl hbus
    | absent => exact Or.inl hdec
    | divZero | modulus | noInverse | capacity | range => exact hdec

end State.FinfoInv

theorem step_keeps_finfoInv {s t : State} (h : s.FinfoInv) (ht : step s = .next t) :
    t.FinfoInv := by
  rcases step_cases ht with ⟨-, rfl⟩ | ⟨e, rest, -, hcase⟩
  · exact h
  · have hacc : (s.accept rest).FinfoInv := h
    rcases hcase with ⟨-, rfl⟩ | ⟨a, -, rfl⟩ | ⟨a, data, -, rfl | rfl | rfl⟩ |
      ⟨c, i, -, hs, hd, hx⟩ | ⟨c, x, -, -, hd, rfl⟩ | ⟨r, data, -, -, rfl⟩ |
      ⟨r, k, data, -, -, -, rfl⟩
    · exact rfl
    · exact hacc.hostRead a
    · exact hacc
    · exact rfl
    · exact hacc.raise_bus a
    · exact hacc.exec hs hd hx
    · exact hacc.raise_illegal hd
    · exact hacc.sealReg r _ data
    · exact hacc.congr rfl rfl

/-- Settles O32: each of the ways a step can end keeps it, and opcodes begin at `0x10`. -/
theorem finfoTellsTheSource : Obligations.FinfoTellsTheSource :=
  ⟨fun _ => rfl, fun _ _ => step_keeps_finfoInv, fun _ _ => two_pow_le_of_decode⟩

/-! ### What changes validity (R22) and the compare flags (R31) -/

theorem reg_hostRead (a : Addr) (s : State) (r : RegId) : (hostRead a s).reg r = s.reg r := by
  rcases hostRead_cases a s with ⟨v, h⟩ | h | h <;> simp [h]

theorem flags_hostRead (a : Addr) (s : State) :
    (hostRead a s).cmp = s.cmp ∧ (hostRead a s).cmpv = s.cmpv := by
  rcases hostRead_cases a s with ⟨v, h⟩ | h | h <;> simp [h]

/-- A seal leaves a register as it was, or it is the one sealed, and then it is valid. -/
theorem reg_sealReg (s : State) (q : RegId) (a : Addr) (data : Word) (r : RegId) :
    (s.sealReg q a data).reg r = s.reg r ∨
      r = q ∧ ((s.sealReg q a data).reg r).valid = true := by
  unfold State.sealReg
  split
  · exact Or.inl (State.reg_raise s _ _ r)
  · rename_i x hx
    by_cases hr : r = q
    · obtain ⟨c, m, -, -, -, -, -, rfl⟩ := OperandReg.sealed_ok hx
      subst hr
      exact Or.inr ⟨rfl, by rw [State.reg_setReg_self]⟩
    · exact Or.inl (State.reg_setReg_ne s x hr)

theorem flags_sealReg (s : State) (q : RegId) (a : Addr) (data : Word) :
    (s.sealReg q a data).cmp = s.cmp ∧ (s.sealReg q a data).cmpv = s.cmpv := by
  unfold State.sealReg
  split <;> simp

/-- Staging leaves a register as it was, or it is the one staged, and then it holds no value. -/
theorem reg_stage (s : State) (q : RegId) (k : Nat) (data : Word) (r : RegId) :
    (s.stage q k data).reg r = s.reg r ∨ r = q ∧ ((s.stage q k data).reg r).valid = false := by
  by_cases hr : r = q
  · subst hr
    exact Or.inr ⟨rfl, by rw [State.stage, State.reg_setReg_self]⟩
  · exact Or.inl (State.reg_setReg_ne s _ hr)

/-- A CMD write of a word that decodes issues the command. -/
theorem write_cmd_eq_issue {c : Word} {i : Instr} (hd : decode c = .ok i) :
    PortEvent.write 0x0000 c = issue i := by
  rw [issue, (encode_of_decode hd).2]

section Changes

variable {s t : State} {e : PortEvent} {rest : List PortEvent} (hp : s.port = e :: rest)
  (h : step s = .next t)

include hp h

/-- What a step can do to a register: nothing; end its value, by reset or by a word write; or give it
one, by a seal or a command (R22). -/
theorem step_reg (r : RegId) : t.reg r = s.reg r ∨
    ((t.reg r).valid = false ∧
      (e = .reset ∨ ∃ k data, k < s.cfg.maxw ∧ e = .write (wordAddr r k) data)) ∨
    ((t.reg r).valid = true ∧
      ((∃ data, e = .write (hdrAddr r) data) ∨ ∃ i : Instr, e = issue i ∧ r ∈ i.dests)) := by
  rcases step_cases h with ⟨hnil, -⟩ | ⟨e', rest', hp', hcase⟩
  · rw [hp] at hnil
    cases hnil
  · rw [hp] at hp'
    cases hp'
    rcases hcase with ⟨rfl, rfl⟩ | ⟨a, -, rfl⟩ | ⟨a, data, -, rfl | rfl | rfl⟩ |
      ⟨c, i, rfl, -, hd, hx⟩ | ⟨c, x, -, -, -, rfl⟩ | ⟨q, data, rfl, -, rfl⟩ |
      ⟨q, k, data, rfl, -, hk, rfl⟩
    · exact Or.inr (Or.inl ⟨by rw [State.reg_resetHardware]; rfl, Or.inl rfl⟩)
    · exact Or.inl (reg_hostRead a _ r)
    · exact Or.inl rfl
    · exact Or.inl rfl
    · exact Or.inl (State.reg_raise _ _ _ r)
    · exact (exec_reg hx r).imp id fun ⟨hmem, hv⟩ =>
        Or.inr ⟨hv, Or.inr ⟨i, write_cmd_eq_issue hd, hmem⟩⟩
    · exact Or.inl (State.reg_raise _ _ _ r)
    · refine (reg_sealReg _ q _ data r).imp id ?_
      rintro ⟨rfl, hv⟩
      exact Or.inr ⟨hv, Or.inl ⟨data, rfl⟩⟩
    · refine (reg_stage _ q k data r).imp id ?_
      rintro ⟨rfl, hv⟩
      exact Or.inl ⟨hv, Or.inr ⟨k, data, hk, rfl⟩⟩

/-- What a step can do to the compare flags: nothing, reset them, or write them by CMPM or CMP (R31). -/
theorem step_flags : (t.cmp = s.cmp ∧ t.cmpv = s.cmpv) ∨ e = .reset ∨
    ∃ i : Instr, e = issue i ∧ i.writesFlags = true ∧ t.cmpv = true := by
  rcases step_cases h with ⟨hnil, -⟩ | ⟨e', rest', hp', hcase⟩
  · rw [hp] at hnil
    cases hnil
  · rw [hp] at hp'
    cases hp'
    rcases hcase with ⟨rfl, -⟩ | ⟨a, -, rfl⟩ | ⟨a, data, -, rfl | rfl | rfl⟩ |
      ⟨c, i, rfl, -, hd, hx⟩ | ⟨c, x, -, -, -, rfl⟩ | ⟨q, data, -, -, rfl⟩ |
      ⟨q, k, data, -, -, -, rfl⟩
    · exact Or.inr (Or.inl rfl)
    · exact Or.inl (flags_hostRead a _)
    · exact Or.inl ⟨rfl, rfl⟩
    · exact Or.inl ⟨rfl, rfl⟩
    · exact Or.inl ⟨State.raise_cmp .., State.raise_cmpv ..⟩
    · exact (exec_flags hx).imp id fun ⟨hw, hv⟩ =>
        Or.inr ⟨i, write_cmd_eq_issue hd, hw, hv⟩
    · exact Or.inl ⟨State.raise_cmp .., State.raise_cmpv ..⟩
    · exact Or.inl (flags_sealReg _ q _ data)
    · exact Or.inl ⟨rfl, rfl⟩

end Changes

/-- Settles O44, from what a step can do to a register. -/
theorem validityChangesOnlyBy : Obligations.ValidityChangesOnlyBy := by
  intro s t e rest r hp h
  rcases step_reg hp h r with heq | ⟨hv, hends⟩ | ⟨hv, hgives⟩
  · rw [heq]
    exact ⟨fun hv hn => by simp [hv] at hn, fun hn hv => by simp [hn] at hv⟩
  · exact ⟨fun _ _ => hends, fun _ ht => by simp [hv] at ht⟩
  · exact ⟨fun _ ht => by simp [hv] at ht, fun _ _ => hgives⟩

/-- Settles O45, from what a step can do to the compare flags. -/
theorem flagsChangeOnlyByCompares : Obligations.FlagsChangeOnlyByCompares := by
  intro s t e rest hp h hne
  refine (step_flags hp h).resolve_left ?_
  rintro ⟨hcmp, hcmpv⟩
  exact hne.elim (absurd hcmp) (absurd hcmpv)

end Sys2Proof.Machine
end

section
/-!
PROOFS. The host port (20_memory.md): issuing a command (R60, R91), writes (R57 to R59, R61), the
faulted state (R234), reads (R56, R68) and LOAD (R90).
-/

namespace Sys2Proof.Machine

/-! ### Writes, by what the address selects (R57) -/

theorem targetOf_of_isUnmapped {maxw : Nat} {a : Addr} (h : IsUnmapped maxw a) :
    targetOf maxw a = .unmapped := by
  have hlt := a.isLt
  rcases h with ⟨hlo, hhi⟩ | ⟨hlo, hoff⟩
  · have hwin : slice 15 15 a ≠ 1 := by simp only [slice]; omega
    have hne : ∀ b : Addr, b.toNat < 4 → a ≠ b := by
      rintro b hb rfl
      exact absurd hlo (by simpa using hb)
    rw [targetOf, if_neg hwin, if_neg (hne _ (by decide)), if_neg (hne _ (by decide)),
      if_neg (hne _ (by decide)), if_neg (hne _ (by decide))]
  · have hwin : slice 15 15 a = 1 := by simp only [slice]; omega
    have hslice : slice 10 0 a = a.toNat % 0x800 := by simp [slice]
    rw [targetOf, if_pos hwin, hslice, if_neg (by omega), if_neg (by omega)]

section Writes

variable {s : State} (he : s.err = none)

include he

theorem hostWrite_cmd (c : Word) : hostWrite 0x0000 c s = executeWord c s := by
  rw [hostWrite_of_none he, targetOf_cmd]

theorem hostWrite_hdr (r : RegId) (data : Word) :
    hostWrite (hdrAddr r) data s = .next (s.sealReg r (hdrAddr r) data) := by
  rw [hostWrite_of_none he, targetOf_hdrAddr]

theorem hostWrite_word (r : RegId) {k : Nat} (hk : k < s.cfg.maxw) (data : Word) :
    hostWrite (wordAddr r k) data s = .next (s.stage r k data) := by
  rw [hostWrite_of_none he, targetOf_wordAddr r hk s.cfg.maxw_le]

/-- A write that selects nothing writable raises `Bus` (R61, R229). -/
theorem hostWrite_bus {a : Addr} (data : Word)
    (ha : a = 0x0002 ∨ a = 0x0003 ∨ IsUnmapped s.cfg.maxw a) :
    hostWrite a data s = .next (s.raise .bus (addrInfo a)) := by
  rw [hostWrite_of_none he]
  rcases ha with rfl | rfl | ha
  · rw [targetOf_finfo]
  · rw [targetOf_cfg]
  · rw [targetOf_of_isUnmapped ha]

end Writes

/-- Settles O36, from what such a write does. -/
theorem writesThatSelectNothingRaiseBus : Obligations.WritesThatSelectNothingRaiseBus := by
  intro s a data rest he hp ha
  have hwrite := hostWrite_bus (s := s.accept rest) he data ha
  rw [State.raise_of_none (s := s.accept rest) he] at hwrite
  exact (step_cons hp).trans hwrite

/-! ### Issuing a command (R60, R91) -/

/-- Settles O5: the CMD write dispatches the word, which decodes. -/
theorem stepRunsTheDecodedCommand : Obligations.StepRunsTheDecodedCommand := by
  intro s c i rest he hp hd
  have hwrite := hostWrite_cmd (s := s.accept rest) he c
  rw [executeWord_ok hd] at hwrite
  exact (step_cons hp).trans hwrite

/-- The opcodes of R84 fit the field `OP`. -/
theorem rowOf?_lt {op : Nat} {row : OpRow} (h : rowOf? op = some row) : op < 256 := by
  have hrows : ∀ r ∈ opRows, r.op < 256 := by decide
  have hop : row.op = op := by simpa using List.find?_some h
  exact hop ▸ hrows row (List.mem_of_find?_eq_some h)

/-- A word packed from an opcode and fields, the unused ones zero, decodes to the command that the
opcode's row builds from them (R83, R84, R85). -/
theorem decode_packWord {op : Nat} {row : OpRow} {d e a b : RegId} {i : Instr}
    (hrow : rowOf? op = some row) (hd : row.usesD = false → d = 0) (he : row.usesE = false → e = 0)
    (ha : row.usesA = false → a = 0) (hb : row.usesB = false → b = 0)
    (hbuild : row.build d e a b = i) (hi : i.wf = true) : decode (packWord op d e a b) = .ok i := by
  obtain ⟨hop, hD, hE, hA, hB, hZ⟩ :=
    Laws.OpcodeByte.slices_packWord op d e a b (rowOf?_lt hrow)
  have hreg : ∀ r : RegId, regOf r.val = r := fun r => Fin.ext (by simp [regOf])
  have hzero : ∀ {used : Bool} {r : RegId}, (used = false → r = 0) →
      ¬ (used = false ∧ r.val ≠ 0) := fun h ⟨hu, hr⟩ => hr (congrArg Fin.val (h hu))
  have hread : row.read (packWord op d e a b) = .ok i := by
    rw [OpRow.read, hZ, hD, hE, hA, hB, if_neg (not_not.mpr rfl), if_neg (hzero hd),
      if_neg (hzero he), if_neg (hzero ha), if_neg (hzero hb), hreg, hreg, hreg, hreg, hbuild]
    exact if_pos hi
  rw [decode, hop, hrow]
  exact hread

/-- The word of a legal command decodes to the command (R84, R88). -/
theorem decode_encode {i : Instr} (hi : i.wf = true) : decode (encode i) = .ok i := by
  cases i <;> exact decode_packWord rfl (by simp) (by simp) (by simp) (by simp) rfl hi

/-- Settles O6: `withFetchWord` writes the command's word to CMD, and FINFO is 0 outside the faulted
state (R28). -/
theorem fetchWordRunsTheCommand : Obligations.FetchWordRunsTheCommand := by
  intro s i hinv hi
  obtain ⟨-, hfinfo, -⟩ := hinv
  have hword : BitVec.ofNat 32 ((encode i).toNat % 2 ^ 32) = encode i := by
    rw [Nat.mod_eq_of_lt (encode i).isLt, BitVec.ofNat_toNat, BitVec.setWidth_eq]
  have hzero : (if s.err.isSome then 0 else s.finfo) = 0 := by
    split
    · rfl
    · exact hfinfo (by simp_all)
  rw [State.withFetchWord, hword, hzero]
  exact stepRunsTheDecodedCommand _ _ _ s.port rfl rfl (decode_encode hi)

/-! ### The faulted state (R234) -/

theorem isClear_eq_false {a : Addr} {data : Word} (h : ¬ (a = 0x0001 ∧ slice 31 31 data = 1)) :
    isClear a data = false := by
  simpa [isClear] using h

/-- In the faulted state a write other than the clearing one does nothing (R57, R234). -/
theorem hostWrite_of_faulted {s : State} {f : FaultCode} (he : s.err = some f) {a : Addr}
    {data : Word} (hc : isClear a data = false) : hostWrite a data s = .next s := by
  simp [hostWrite, he, hc]

/-- Settles O30: no write but the clearing one gets past the check, and a fault raised by a read is
not latched over another. -/
theorem faultedStateIsFrozen : Obligations.FaultedStateIsFrozen := by
  intro s f rest he
  refine ⟨fun a data hp hc => ?_, fun a hp => ?_⟩
  · exact (step_cons hp).trans (hostWrite_of_faulted (s := s.accept rest) he (isClear_eq_false hc))
  · have hread : step s = .next (hostRead a (s.accept rest)) := step_cons hp
    rcases hostRead_cases a (s.accept rest) with ⟨v, h⟩ | h | h
    · exact ⟨v, s.draws, by rw [hread, h]; rfl⟩
    · exact ⟨_, s.draws + 1, by rw [hread, h]; rfl⟩
    · rw [State.raise_of_some (s := s.accept rest) he] at h
      exact ⟨_, s.draws + 1, by rw [hread, h]; rfl⟩

/-! ### Staging (R58) -/

theorem SameExceptRegs.refl (ds : List RegId) (s : State) : SameExceptRegs ds s s :=
  ⟨fun _ _ => rfl, rfl, rfl, rfl, rfl, rfl, rfl, rfl, rfl⟩

theorem SameExceptRegs.trans {ds : List RegId} {s t u : State} (h : SameExceptRegs ds s t)
    (h' : SameExceptRegs ds t u) : SameExceptRegs ds s u := by
  obtain ⟨hreg, herr, hcmp, hcmpv, hfinfo, hcfg, hport, hanswer, hdraws⟩ := h
  obtain ⟨hreg', herr', hcmp', hcmpv', hfinfo', hcfg', hport', hanswer', hdraws'⟩ := h'
  exact ⟨fun r hr => (hreg' r hr).trans (hreg r hr), herr'.trans herr, hcmp'.trans hcmp,
    hcmpv'.trans hcmpv, hfinfo'.trans hfinfo, hcfg'.trans hcfg, hport'.trans hport,
    hanswer'.trans hanswer, hdraws'.trans hdraws⟩

theorem sameExceptRegs_setReg (s : State) (r : RegId) (x : OperandReg) :
    SameExceptRegs [r] s (s.setReg r x) :=
  ⟨fun _ hq => State.reg_setReg_ne s x (by simpa using hq), rfl, rfl, rfl, rfl, rfl, rfl, rfl, rfl⟩

theorem sameExceptRegs_stage (s : State) (r : RegId) (k : Nat) (data : Word) :
    SameExceptRegs [r] s (s.stage r k data) :=
  sameExceptRegs_setReg s r _

/-- What staging leaves in the register it writes (R58). -/
theorem reg_stage_self (s : State) (r : RegId) (k : Nat) (data : Word) : (s.stage r k data).reg r =
    { s.reg r with valid := false, w := Memory.write (s.reg r).w k data } :=
  State.reg_setReg_self s r _

theorem read_reg_stage (s : State) (r : RegId) (k : Nat) (data : Word) (j : Nat) :
    Memory.read ((s.stage r k data).reg r).w j =
      if j = k then some data else Memory.read (s.reg r).w j := by
  rw [reg_stage_self, Memory.read_write]

/-- Settles O33, from what staging leaves in its register and outside it. -/
theorem stagingDefinesOneWord : Obligations.StagingDefinesOneWord := by
  intro s r k data rest he hk hp
  refine ⟨(s.accept rest).stage r k data,
    (step_cons hp).trans (hostWrite_word (s := s.accept rest) he r hk data), ?_, ?_, ?_, ?_,
    fun j hj => ?_, sameExceptRegs_stage _ r k data⟩
  · rw [reg_stage_self]
  · rw [reg_stage_self]; rfl
  · rw [reg_stage_self]; rfl
  · rw [read_reg_stage, if_pos rfl]
  · rw [read_reg_stage, if_neg hj, State.reg_accept]

/-! ### The seal (R59) -/

theorem signOfCode_code (c : Sign) : signOfCode c.code = some c := by cases c <;> rfl

theorem Sign.code_lt (c : Sign) : c.code < 4 := by cases c <;> decide

theorem Sign.code_eq_zero_iff (c : Sign) : c.code = 0 ↔ c = .zero := by cases c <;> decide

/-- A two-bit code other than 0b10 is that of a sign (R23). -/
theorem exists_sign_code {n : Nat} (hn : n < 4) (h2 : n ≠ 2) : ∃ c : Sign, c.code = n := by
  obtain rfl | rfl | rfl : n = 0 ∨ n = 1 ∨ n = 3 := by omega
  · exact ⟨.zero, rfl⟩
  · exact ⟨.pos, rfl⟩
  · exact ⟨.neg, rfl⟩

/-- The header words that a seal refuses before it looks at the register (R59). -/
def MalformedHeader (maxw : Nat) (data : Word) : Prop :=
  slice 15 2 data ≠ 0 ∨ slice 30 28 data ≠ 0 ∨ slice 1 0 data = 2 ∨ slice 27 16 data = 0 ∨
    maxw < slice 27 16 data

theorem not_malformedHeader_iff {maxw : Nat} {data : Word} : ¬ MalformedHeader maxw data ↔
    slice 15 2 data = 0 ∧ slice 30 28 data = 0 ∧ slice 1 0 data ≠ 2 ∧ slice 27 16 data ≠ 0 ∧
      slice 27 16 data ≤ maxw := by
  simp only [MalformedHeader, not_or, not_not, not_lt]

theorem OperandReg.sealed_malformed {maxw : Nat} {data : Word} (h : MalformedHeader maxw data)
    (r : OperandReg) : r.sealed maxw data = .error .format := by
  unfold OperandReg.sealed
  split
  · rfl
  · rename_i hres
    split
    · rfl
    · rename_i c hc
      have hsign : slice 1 0 data ≠ 2 := fun h2 => by rw [h2] at hc; cases hc
      rw [if_pos (by rw [MalformedHeader] at h; omega)]

section GoodHeader

variable {maxw : Nat} {data : Word} (hgood : ¬ MalformedHeader maxw data) {r : OperandReg}

include hgood

/-- A seal over an undefined word raises `Absent` (R59, R222). -/
theorem OperandReg.sealed_undefined (hm : Memory.collect r.w 0 (slice 27 16 data) = none) :
    r.sealed maxw data = .error .absent := by
  obtain ⟨hlow, hhigh, hsign, hzero, hle⟩ := not_malformedHeader_iff.mp hgood
  obtain ⟨c, hc⟩ := exists_sign_code (slice_lt 1 0 data) hsign
  simp [OperandReg.sealed, hlow, hhigh, ← hc, signOfCode_code, hzero, hle, hm]

variable {c : Sign} (hc : c.code = slice 1 0 data) {m : List Word}
  (hm : Memory.collect r.w 0 (slice 27 16 data) = some m)

include hc hm

/-- A seal whose sign disagrees with the magnitude raises `Format` (R59). -/
theorem OperandReg.sealed_disagrees (hz : ¬ (val m = 0 ↔ c = .zero)) :
    r.sealed maxw data = .error .format := by
  obtain ⟨hlow, hhigh, -, hzero, -⟩ := not_malformedHeader_iff.mp hgood
  have hcases : val m = 0 ∧ c ≠ .zero ∨ val m ≠ 0 ∧ c = .zero := by tauto
  rcases hcases with ⟨hv, hs⟩ | ⟨hv, hs⟩ <;>
    simp [OperandReg.sealed, hlow, hhigh, ← hc, signOfCode_code, hzero, hm, hv, hs]

/-- A seal that passes its checks gives the register its value (R59). -/
theorem OperandReg.sealed_agrees (hz : val m = 0 ↔ c = .zero) :
    r.sealed maxw data = .ok { r with valid := true, sign := c, len := (trim m).length } := by
  obtain ⟨hlow, hhigh, -, hzero, hle⟩ := not_malformedHeader_iff.mp hgood
  simp [OperandReg.sealed, hlow, hhigh, ← hc, signOfCode_code, hzero, hle, hm, hz]

end GoodHeader

theorem State.sealReg_of_error {s : State} {r : RegId} {data : Word} {f : FaultCode}
    (h : (s.reg r).sealed s.cfg.maxw data = .error f) (a : Addr) :
    s.sealReg r a data = s.raise f (addrInfo a) := by
  rw [State.sealReg, h]

theorem State.sealReg_of_ok {s : State} {r : RegId} {data : Word} {x : OperandReg}
    (h : (s.reg r).sealed s.cfg.maxw data = .ok x) (a : Addr) :
    s.sealReg r a data = s.setReg r x := by
  rw [State.sealReg, h]

section SealSteps

variable {s : State} {r : RegId} {data : Word} {rest : List PortEvent} (he : s.err = none)
  (hp : s.port = .write (hdrAddr r) data :: rest)

include he hp

/-- A seal that raises changes nothing but ERR and FINFO (R59, R231). -/
theorem step_seal_error {f : FaultCode} (hx : (s.reg r).sealed s.cfg.maxw data = .error f) :
    step s = .next { s with err := some f, finfo := (hdrAddr r).setWidth 32, port := rest,
                            answer := none } := by
  have hwrite := hostWrite_hdr (s := s.accept rest) he r data
  rw [State.sealReg_of_error (s := s.accept rest) hx, State.raise_of_none (s := s.accept rest) he]
    at hwrite
  exact (step_cons hp).trans hwrite

theorem step_seal_ok {x : OperandReg} (hx : (s.reg r).sealed s.cfg.maxw data = .ok x) :
    step s = .next ((s.accept rest).setReg r x) := by
  have hwrite := hostWrite_hdr (s := s.accept rest) he r data
  rw [State.sealReg_of_ok (s := s.accept rest) hx] at hwrite
  exact (step_cons hp).trans hwrite

end SealSteps

/-- Settles O34: each outcome of the checks, in their order. -/
theorem sealChecksAndSeals : Obligations.SealChecksAndSeals := by
  intro s r data rest he hp u formatFault bad
  refine ⟨fun hbad => ?_, fun hgood hundef => ?_, fun hgood m hlen hread => ?_⟩
  · exact step_seal_error he hp (OperandReg.sealed_malformed hbad _)
  · have hnone : Memory.collect (s.reg r).w 0 (slice 27 16 data) = none :=
      Memory.collect_eq_none.mpr (by simpa using hundef)
    exact step_seal_error he hp (OperandReg.sealed_undefined hgood hnone)
  · have hsome : Memory.collect (s.reg r).w 0 (slice 27 16 data) = some m :=
      Memory.collect_eq_some.mpr ⟨hlen, by simpa [hlen] using hread⟩
    refine ⟨fun hz => ?_, fun hz c hc => ?_⟩
    · obtain ⟨-, -, hsign, -, -⟩ := not_malformedHeader_iff.mp hgood
      obtain ⟨c, hc⟩ := exists_sign_code (slice_lt 1 0 data) hsign
      rw [← hc, c.code_eq_zero_iff] at hz
      exact step_seal_error he hp (OperandReg.sealed_disagrees hgood hc hsome hz)
    · rw [← hc, c.code_eq_zero_iff] at hz
      exact step_seal_ok he hp (OperandReg.sealed_agrees hgood hc hsome hz)

/-! ### The words that software reads (R27, R29, R68) -/

theorem State.errCode_le (s : State) : s.errCode ≤ 9 := by
  unfold State.errCode
  split
  · decide
  · rename_i f _
    cases f <;> decide

theorem State.slices_statusWord (s : State) :
    slice 3 0 s.statusWord = s.errCode ∧ slice 5 4 s.statusWord = s.cmp.code ∧
      slice 6 6 s.statusWord = s.cmpv.toNat ∧ slice 31 7 s.statusWord = 0 := by
  have herr := s.errCode_le
  have hcmp := s.cmp.code_lt
  have hcmpv := s.cmpv.toNat_lt
  simp only [slice, State.statusWord, BitVec.toNat_ofNat]
  norm_num
  omega

/-- CFG is the word it is after reset: it holds no state (R29). -/
theorem State.cfgWord_eq (s : State) : s.cfgWord = 0x20100000 + BitVec.ofNat 32 s.cfg.maxw := by
  obtain ⟨-, -, -, -, -, -, hcfg⟩ := stateAfterReset s.cfg
  exact hcfg

theorem OperandReg.header_of_invalid {r : OperandReg} (hv : r.valid = false) : r.header = 0 := by
  simp [OperandReg.header, hv]

theorem OperandReg.slices_header {r : OperandReg} (hv : r.valid = true) (hlen : r.len ≤ 2047) :
    slice 1 0 r.header = r.sign.code ∧ slice 15 2 r.header = 0 ∧ slice 27 16 r.header = r.len ∧
      slice 30 28 r.header = 0 ∧ slice 31 31 r.header = 1 := by
  have hsign := r.sign.code_lt
  simp only [slice, OperandReg.header, hv, if_true, BitVec.toNat_ofNat]
  norm_num
  omega

/-! ### Reads (R56) -/

theorem OperandReg.wordRead_of_lt {r : OperandReg} {k : Nat} (hv : r.valid = true)
    (hk : k < r.len) : r.wordRead k = Memory.read r.w k := by
  simp [OperandReg.wordRead, hv, hk]

theorem OperandReg.wordRead_of_len_le {r : OperandReg} {k : Nat} (hv : r.valid = true)
    (hk : r.len ≤ k) : r.wordRead k = some 0 := by
  simp [OperandReg.wordRead, hv, Nat.not_lt.mpr hk]

theorem OperandReg.wordRead_of_invalid {r : OperandReg} (hv : r.valid = false) (k : Nat) :
    r.wordRead k = Memory.read r.w k := by
  simp [OperandReg.wordRead, hv]

theorem hostRead_hdr (s : State) (r : RegId) :
    hostRead (hdrAddr r) s = s.answerWord (s.reg r).header := by
  rw [hostRead, targetOf_hdrAddr]

theorem hostRead_word_some {s : State} {r : RegId} {k : Nat} (hk : k < s.cfg.maxw) {v : Word}
    (hv : (s.reg r).wordRead k = some v) : hostRead (wordAddr r k) s = s.answerWord v := by
  simp only [hostRead, targetOf_wordAddr r hk s.cfg.maxw_le, hv]

theorem hostRead_word_none {s : State} {r : RegId} {k : Nat} (hk : k < s.cfg.maxw)
    (hv : (s.reg r).wordRead k = none) : hostRead (wordAddr r k) s = s.answerUnspecified := by
  simp only [hostRead, targetOf_wordAddr r hk s.cfg.maxw_le, hv]

/-- A read that selects nothing readable raises `Bus` and answers an unspecified word (R61). -/
theorem hostRead_bus {s : State} {a : Addr} (ha : a = 0x0000 ∨ IsUnmapped s.cfg.maxw a) :
    hostRead a s = (s.raise .bus (addrInfo a)).answerUnspecified := by
  rcases ha with rfl | ha
  · rw [hostRead, targetOf_cmd]
  · rw [hostRead, targetOf_of_isUnmapped ha]

section ReadSteps

variable {s : State} {a : Addr} {rest : List PortEvent} (hp : s.port = .read a :: rest)

include hp

theorem step_read {u : State} (h : hostRead a (s.accept rest) = u) : step s = .next u := by
  rw [step_cons hp, perform, h]

/-- A read of `WORD(r, k)`: the word where it is specified, else a free draw (R56). -/
theorem step_read_word (r : RegId) {k : Nat} (hk : k < s.cfg.maxw) (ha : a = wordAddr r k) :
    (∀ v, (s.reg r).wordRead k = some v →
      step s = .next { s with port := rest, answer := some v }) ∧
    ((s.reg r).wordRead k = none → step s = .next
      { s with port := rest, answer := some (Config.freeWord s.draws), draws := s.draws + 1 }) := by
  subst ha
  exact ⟨fun v hv => step_read hp (hostRead_word_some (s := s.accept rest) hk hv),
    fun hv => step_read hp (hostRead_word_none (s := s.accept rest) hk hv)⟩

end ReadSteps

/-- In a state that meets the invariant the words of a valid register below its `len` are defined
(R36). -/
theorem State.Inv.read_below_len {s : State} (h : s.Inv) {r : RegId} (hv : (s.reg r).valid = true)
    {k : Nat} (hk : k < (s.reg r).len) : ∃ v, Memory.read (s.reg r).w k = some v := by
  obtain ⟨z, -, -, -, hlen, hread, -⟩ := validRegisterHoldsItsValue s r h hv
  exact ⟨_, (hread k hk).trans (List.getElem?_eq_getElem (hlen ▸ hk))⟩

/-- Settles O35, address by address. -/
theorem readsAnswer : Obligations.ReadsAnswer := by
  intro s a rest hinv hp answers
  refine ⟨?_, ?_, ?_, ?_, ?_, fun r k hk ha => ?_, fun ha he => ?_, fun ha he => ?_⟩
  · rintro rfl
    exact ⟨s.statusWord, step_read hp rfl, s.slices_statusWord⟩
  · rintro rfl
    exact step_read hp rfl
  · rintro rfl
    rw [← s.cfgWord_eq]
    exact step_read hp rfl
  · rintro r rfl hv
    rw [← OperandReg.header_of_invalid hv]
    exact step_read hp (hostRead_hdr (s.accept rest) r)
  · rintro r rfl hv
    obtain ⟨hregs, -, -⟩ := hinv
    obtain ⟨-, -, hlen, -⟩ := hregs r
    exact ⟨(s.reg r).header, step_read hp (hostRead_hdr (s.accept rest) r),
      OperandReg.slices_header hv (hlen.trans s.cfg.maxw_le)⟩
  · obtain ⟨hsome, hnone⟩ := step_read_word hp r hk ha
    refine ⟨fun hv hlt => ?_, fun hv hle => ?_, fun hv v hread => ?_, fun hv hread => ?_⟩
    · obtain ⟨v, hread⟩ := hinv.read_below_len hv hlt
      exact ⟨v, hread, hsome v ((OperandReg.wordRead_of_lt hv hlt).trans hread)⟩
    · exact hsome 0 (OperandReg.wordRead_of_len_le hv hle)
    · exact hsome v ((OperandReg.wordRead_of_invalid hv k).trans hread)
    · exact hnone ((OperandReg.wordRead_of_invalid hv k).trans hread)
  · have hread := hostRead_bus (s := s.accept rest) ha
    rw [State.raise_of_none (s := s.accept rest) he] at hread
    exact step_read hp hread
  · obtain ⟨f, hf⟩ := Option.ne_none_iff_exists'.mp he
    have hread := hostRead_bus (s := s.accept rest) ha
    rw [State.raise_of_some (s := s.accept rest) hf] at hread
    exact step_read hp hread

/-! ### LOAD (R90) -/

/-- The state after the words `ws` are staged in register `r` from index `k` on (R58). -/
def State.stageWords (s : State) (r : RegId) : Nat → List Word → State
  | _, [] => s
  | k, v :: ws => (s.stage r k v).stageWords r (k + 1) ws

theorem sameExceptRegs_stageWords (s : State) (r : RegId) (k : Nat) (ws : List Word) :
    SameExceptRegs [r] s (s.stageWords r k ws) := by
  induction ws generalizing s k with
  | nil => exact SameExceptRegs.refl _ s
  | cons v ws ih => exact (sameExceptRegs_stage s r k v).trans (ih (s.stage r k v) (k + 1))

theorem read_reg_stageWords_of_lt (s : State) (r : RegId) {j k : Nat} (hj : j < k)
    (ws : List Word) :
    Memory.read ((s.stageWords r k ws).reg r).w j = Memory.read (s.reg r).w j := by
  induction ws generalizing s k with
  | nil => rfl
  | cons v ws ih =>
    rw [State.stageWords, ih (s.stage r k v) (by omega), read_reg_stage, if_neg (by omega)]

/-- The staged words are read back. -/
theorem read_reg_stageWords (s : State) (r : RegId) (k : Nat) (ws : List Word) {j : Nat}
    (hj : j < ws.length) : Memory.read ((s.stageWords r k ws).reg r).w (k + j) = ws[j]? := by
  induction ws generalizing s k j with
  | nil => cases hj
  | cons v ws ih =>
    rw [State.stageWords]
    cases j with
    | zero =>
      rw [Nat.add_zero k, read_reg_stageWords_of_lt _ r (by omega), read_reg_stage, if_pos rfl,
        List.getElem?_cons_zero]
    | succ j =>
      rw [show k + (j + 1) = k + 1 + j by omega, ih _ (k + 1) (Nat.lt_of_succ_lt_succ hj)]
      rfl

theorem length_loadWords (r : RegId) (k : Nat) (ws : List Word) :
    (loadWords r k ws).length = ws.length := by
  induction ws generalizing k with
  | nil => rfl
  | cons v ws ih => simp [loadWords, ih]

theorem run_succ_of_step {s t : State} (h : step s = .next t) (n : Nat) :
    Host.Core.run core (n + 1) s = Host.Core.run core n t := by
  have hcore : core.step s = .next t := h
  simp only [Host.Core.run, hcore]

/-- The transactions of LOAD stage their words and then seal the register (R90). -/
theorem run_loadWords {s : State} {r : RegId} {k : Nat} {ws : List Word} {data : Word}
    {rest : List PortEvent} (he : s.err = none) (hk : k + ws.length ≤ s.cfg.maxw)
    (hp : s.port = loadWords r k ws ++ .write (hdrAddr r) data :: rest) :
    Host.Core.run core (ws.length + 1) s =
      .next (((s.accept rest).stageWords r k ws).sealReg r (hdrAddr r) data) := by
  induction ws generalizing s k with
  | nil =>
    exact run_succ_of_step ((step_cons hp).trans (hostWrite_hdr (s := s.accept rest) he r data)) 0
  | cons v ws ih =>
    rw [List.length_cons] at hk ⊢
    have hkv : k < s.cfg.maxw := by omega
    have hks : k + 1 + ws.length ≤ s.cfg.maxw := by omega
    have hwrite := hostWrite_word
      (s := s.accept (loadWords r (k + 1) ws ++ .write (hdrAddr r) data :: rest)) he r hkv v
    rw [run_succ_of_step ((step_cons hp).trans hwrite)]
    exact ih he hks rfl

/-- The header word of LOAD (R90): the sign's code, the length and zeros. -/
theorem slices_loadHeader {n : Nat} (hn : n ≤ 2047) (c : Sign) :
    let data : Word := BitVec.ofNat 32 (n * 2 ^ 16 + c.code)
    slice 1 0 data = c.code ∧ slice 15 2 data = 0 ∧ slice 27 16 data = n ∧ slice 30 28 data = 0 := by
  have hc := c.code_lt
  simp only [slice, BitVec.toNat_ofNat]
  norm_num
  omega

/-- A seal with LOAD's header over the words of `|z|` gives the register the value `z` (R59, R90). -/
theorem OperandReg.sealed_load {maxw : Nat} {r : OperandReg} {z : Int} (hmax : maxw ≤ 2047)
    (hlen : wordLen z.natAbs ≤ maxw)
    (hm : Memory.collect r.w 0 (wordLen z.natAbs) = some (words z.natAbs)) :
    r.sealed maxw (BitVec.ofNat 32 (wordLen z.natAbs * 2 ^ 16 + (sgn z).code)) =
      .ok { r with valid := true, sign := sgn z, len := wordLen z.natAbs } := by
  obtain ⟨hsign, hlow, hLEN, hhigh⟩ := slices_loadHeader (hlen.trans hmax) (sgn z)
  have hpos := wordLen_pos z.natAbs
  have hgood : ¬ MalformedHeader maxw
      (BitVec.ofNat 32 (wordLen z.natAbs * 2 ^ 16 + (sgn z).code)) := by
    have h2 : (sgn z).code ≠ 2 := by cases sgn z <;> decide
    exact not_malformedHeader_iff.mpr ⟨hlow, hhigh, by rwa [hsign], by omega, by omega⟩
  rw [OperandReg.sealed_agrees hgood hsign.symm (hLEN.symm ▸ hm)
    (by rw [val_words, sgn_eq_zero_iff, Int.natAbs_eq_zero]), trim_eq_words (words_ne_nil _),
    val_words, length_words]

theorem collect_reg_stageWords (s : State) (r : RegId) (ws : List Word) :
    Memory.collect ((s.stageWords r 0 ws).reg r).w 0 ws.length = some ws :=
  Memory.collect_eq_some.mpr ⟨rfl, fun _ hj => read_reg_stageWords s r 0 ws hj⟩

/-- LOAD stages the words of `|z|`, and its seal makes the register valid with the sign and the
length of `z` (R90). -/
theorem run_load {s : State} {r : RegId} {z : Int} {rest : List PortEvent} (he : s.err = none)
    (hfits : z.natAbs < B ^ s.cfg.maxw) (hp : s.port = load r z ++ rest) :
    let u := (s.accept rest).stageWords r 0 (words z.natAbs)
    Host.Core.run core (load r z).length s = .next (u.setReg r
      { valid := true, sign := sgn z, len := wordLen z.natAbs, w := (u.reg r).w }) := by
  intro u
  have hlen : wordLen z.natAbs ≤ s.cfg.maxw := (wordLen_le_iff s.cfg.maxw_pos).mpr hfits
  obtain ⟨-, -, -, -, -, hcfg, -⟩ : SameExceptRegs [r] (s.accept rest) u :=
    sameExceptRegs_stageWords _ r 0 _
  have hcollect : Memory.collect (u.reg r).w 0 (wordLen z.natAbs) = some (words z.natAbs) := by
    rw [← length_words]
    exact collect_reg_stageWords _ r _
  have hseal := OperandReg.sealed_load u.cfg.maxw_le (hcfg.symm ▸ hlen) hcollect
  have hcount : (load r z).length = (words z.natAbs).length + 1 := by
    rw [load, List.length_append, length_loadWords, List.length_singleton]
  rw [hcount, ← State.sealReg_of_ok hseal (hdrAddr r)]
  exact run_loadWords he (by rwa [length_words, Nat.zero_add])
    (hp.trans (List.append_assoc _ _ _))

/-- Settles O37: the register sealed holds the words staged, which are those of `|z|`. -/
theorem loadEstablishesTheValue : Obligations.LoadEstablishesTheValue := by
  intro s r z rest he hfits hp
  have hcollect := collect_reg_stageWords (s.accept rest) r (words z.natAbs)
  obtain ⟨-, hread⟩ := Memory.collect_eq_some.mp hcollect
  refine ⟨_, run_load he hfits hp, ?_, ?_, ?_, ?_, ?_,
    (sameExceptRegs_stageWords _ r 0 _).trans (sameExceptRegs_setReg _ r _)⟩
  · rw [State.rd_eq_some, State.reg_setReg_self]
    exact ⟨rfl, words z.natAbs, by rw [← length_words]; exact hcollect,
      by rw [val_words, sgn_toInt_mul_natAbs]⟩
  · rw [State.reg_setReg_self]
  · rw [State.reg_setReg_self]
  · rw [State.reg_setReg_self, length_words]
  · rw [State.reg_setReg_self]
    simpa using hread

end Sys2Proof.Machine
end

section
/-!
PROOFS. Command words (30_encoding.md), second part: the two directions between legal commands and
their words (R84, R88), and which words are illegal and what they do (R85, R221, R256).
-/

namespace Sys2Proof.Machine

/-- Settles O1: the opcode's row reads the fields packed into the word. -/
theorem decodeOfEncode : Obligations.DecodeOfEncode :=
  fun _ => decode_encode

/-- Settles O2: the row that reads a word checks every field it does not use, so that packing the
fields gives the word back. -/
theorem encodeOfDecode : Obligations.EncodeOfDecode :=
  fun _ _ => encode_of_decode

/-- Settles O4: ten words are those of the commands, and three have no row or fail a check. -/
theorem sampleWordsDecode : Obligations.SampleWordsDecode :=
  ⟨decode_encode (i := .add 2 0 1) rfl, decode_encode (i := .neg 2 1) rfl,
    decode_encode (i := .cmpm 0 1) rfl, decode_encode (i := .mul 4 4 2) rfl,
    decode_encode (i := .divrem 2 3 0 1) rfl, decode_encode (i := .mod 2 0 1) rfl,
    decode_encode (i := .montmul 2 0 1 3) rfl, decode_encode (i := .montred 6 4 2) rfl,
    decode_encode (i := .modpow 3 0 1 2) rfl, decode_encode (i := .modinv 3 0 2) rfl,
    rfl, rfl, rfl⟩

/-! ### Legal words (R85) -/

/-- The only check of R85 on a row's command is DIVREM's (d). -/
theorem wf_build : ∀ r ∈ opRows, ∀ d e a b : RegId,
    (r.build d e a b).wf = true ↔ (r.op = 0x30 → d ≠ e) := by
  simp [opRows, rowsAdder, rowsMulDiv, rowsModular, Instr.wf]

/-- The opcodes of R84 are distinct: a row is the only one of its opcode. -/
theorem nodup_ops : (opRows.map OpRow.op).Nodup := by decide

theorem rowOf?_op {r : OpRow} (hr : r ∈ opRows) : rowOf? r.op = some r := by
  obtain ⟨q, hq⟩ : ∃ q, rowOf? r.op = some q :=
    Option.isSome_iff_exists.mp (List.find?_isSome.mpr ⟨r, hr, by simp⟩)
  have hop : q.op = r.op := by simpa using List.find?_some hq
  rw [hq, List.inj_on_of_nodup_map nodup_ops (List.mem_of_find?_eq_some hq) hr hop]

/-- Different values of a four-bit field name different registers (R81). -/
theorem regOf_inj {m n : Nat} (hm : m < 16) (hn : n < 16) : regOf m = regOf n ↔ m = n := by
  simp [regOf, Fin.ext_iff, Nat.mod_eq_of_lt hm, Nat.mod_eq_of_lt hn]

/-- A row accepts a word exactly when the opcode is the row's and no check of R85 fails. -/
theorem accepts_iff {r : OpRow} (hr : r ∈ opRows) (c : Word) : r.accepts c = true ↔
    r.op = slice 31 24 c ∧ slice 7 0 c = 0 ∧
      (r.usesD = false → slice 23 20 c = 0) ∧ (r.usesE = false → slice 19 16 c = 0) ∧
      (r.usesA = false → slice 15 12 c = 0) ∧ (r.usesB = false → slice 11 8 c = 0) ∧
      (r.op = 0x30 → slice 23 20 c ≠ slice 19 16 c) := by
  have hdivrem : (r.op != 0x30 || slice 23 20 c != slice 19 16 c) = true ↔
      (r.op = 0x30 → slice 23 20 c ≠ slice 19 16 c) := by
    simp [imp_iff_not_or]
  rw [OpRow.accepts, Bool.and_eq_true, hdivrem, matches_iff r hr, eq_comm (a := slice 31 24 c)]
  simp only [and_assoc]

/-- A row that accepts a word reads it: no check of R85 fails. -/
theorem read_of_accepts {r : OpRow} (hr : r ∈ opRows) {c : Word} (h : r.accepts c = true) :
    ∃ i, r.read c = .ok i := by
  obtain ⟨-, hz, hd, he, ha, hb, hne⟩ := (accepts_iff hr c).mp h
  have hne' : r.op = 0x30 → regOf (slice 23 20 c) ≠ regOf (slice 19 16 c) := fun hop =>
    (regOf_inj (slice_lt 23 20 c) (slice_lt 19 16 c)).not.mpr (hne hop)
  have hwf := (wf_build r hr _ _ (regOf (slice 15 12 c)) (regOf (slice 11 8 c))).mpr hne'
  rw [OpRow.read, if_neg (not_not.mpr hz), if_neg fun h => h.2 (hd h.1),
    if_neg fun h => h.2 (he h.1), if_neg fun h => h.2 (ha h.1), if_neg fun h => h.2 (hb h.1)]
  exact ⟨_, if_pos hwf⟩

/-- The row that reads a word accepts it. -/
theorem accepts_of_read {r : OpRow} (hr : r ∈ opRows) {c : Word} (hop : r.op = slice 31 24 c)
    {i : Instr} (h : r.read c = .ok i) : r.accepts c = true := by
  obtain ⟨hz, hd, he, ha, hb, hwf, rfl⟩ := OpRow.read_ok h
  exact (accepts_iff hr c).mpr ⟨hop, hz, hd, he, ha, hb, fun h30 heq =>
    (wf_build r hr _ _ _ _).mp hwf h30 (congrArg regOf heq)⟩

/-- A word decodes exactly when a row of R84 accepts it. -/
theorem decodes_iff_accepts (c : Word) :
    (∃ i, decode c = .ok i) ↔ ∃ r ∈ opRows, r.accepts c = true := by
  constructor
  · rintro ⟨i, hi⟩
    obtain ⟨r, hr, hop, hread⟩ := decode_ok hi
    exact ⟨r, hr, accepts_of_read hr hop hread⟩
  · rintro ⟨r, hr, hacc⟩
    obtain ⟨hop, -⟩ := (accepts_iff hr c).mp hacc
    rw [decode, ← hop, rowOf?_op hr]
    exact read_of_accepts hr hacc

/-- At most one row accepts a word: the one of its opcode. -/
theorem length_filter_accepts_le_one (c : Word) :
    (opRows.filter fun r => r.accepts c).length ≤ 1 :=
  calc (opRows.filter fun r => r.accepts c).length
      = opRows.countP fun r => r.accepts c := List.countP_eq_length_filter.symm
    _ ≤ opRows.countP fun r => r.op == slice 31 24 c :=
        List.countP_mono_left fun r hr hacc => by simpa using ((accepts_iff hr c).mp hacc).1
    _ = (opRows.map OpRow.op).count (slice 31 24 c) := by rw [List.count, List.countP_map]; rfl
    _ ≤ 1 := List.nodup_iff_count_le_one.mp nodup_ops _

/-- Some row accepts a word exactly when one does. -/
theorem exists_accepts_iff_length_eq_one (c : Word) :
    (∃ r ∈ opRows, r.accepts c = true) ↔ (opRows.filter fun r => r.accepts c).length = 1 := by
  have hle := length_filter_accepts_le_one c
  have hpos := List.length_filter_pos_iff (l := opRows) (p := fun r => r.accepts c)
  rw [← hpos]
  omega

/-! ### Illegal words (R221) -/

section IllegalWord

variable {c : Word} (hc : ¬ ∃ i, decode c = .ok i) {s : State} (he : s.err = none)

include hc he

/-- A word that does not decode latches `Illegal` with the word and does nothing else. -/
theorem executeWord_illegal :
    executeWord c s = .next { s with err := some .illegal, finfo := c } := by
  cases hd : decode c with
  | error x => rw [executeWord_error hd, State.raise_of_none he]
  | ok i => exact absurd ⟨i, hd⟩ hc

theorem step_illegal {rest : List PortEvent} (hp : s.port = .write 0x0000 c :: rest) :
    step s = .next { s with err := some .illegal, finfo := c, port := rest, answer := none } := by
  have hwrite := hostWrite_cmd (s := s.accept rest) he c
  rw [executeWord_illegal (s := s.accept rest) hc he] at hwrite
  exact (step_cons hp).trans hwrite

end IllegalWord

/-- Settles O3: a word decodes exactly when a row accepts it, by its fields or by match and mask. -/
theorem illegalEncodings : Obligations.IllegalEncodings := by
  intro c
  refine ⟨?_, ?_, fun hc s he => executeWord_illegal hc he, fun hc s rest he hp =>
    step_illegal hc he hp⟩
  · rw [decodes_iff_accepts]
    exact exists_congr fun r => and_congr_right fun hr => accepts_iff hr c
  · rw [decodes_iff_accepts, exists_accepts_iff_length_eq_one]

/-! ### DIVREM with one destination register (R256) -/

/-- No row accepts the word: the one of its opcode asks that `D` and `E` differ (R85 (d)). -/
theorem not_decodes_divrem_self (d a b : RegId) :
    ¬ ∃ i, decode (encode (.divrem d d a b)) = .ok i := by
  rw [decodes_iff_accepts]
  rintro ⟨r, hr, hacc⟩
  obtain ⟨hop, -, -, -, -, -, hne⟩ := (accepts_iff hr _).mp hacc
  obtain ⟨hOP, hD, hE, -⟩ := Laws.OpcodeByte.slices_packWord 0x30 d d a b (by norm_num)
  exact hne (hop.trans hOP) (hD.trans hE.symm)

/-- A term that is no command raises `Illegal`, whatever it would compute (log 12). -/
theorem command_of_not_wf {i : Instr} (hi : i.wf = false) (s : State) (k : Computed) :
    command i s k = .next (s.raise .illegal (encode i)) := by
  simp [command, hi]

/-- Settles O17: the word fails the check of R85 (d), and so does the term. -/
theorem divremToOneRegisterIsIllegal : Obligations.DivremToOneRegisterIsIllegal := by
  intro s d a b he
  refine ⟨not_decodes_divrem_self d a b, faultsWith_of_raise he ?_⟩
  rw [exec_divrem, command_of_not_wf (by simp [Instr.wf])]

end Sys2Proof.Machine
end

section
/-!
PROOFS. The adder/subtractor's commands (40_addsub.md R105 to R110): a command that computes one value
writes it or raises `Capacity`, and one that computes an order sets the flags.
-/

namespace Sys2Proof.Machine

/-! ### Commands that write one value (R91 steps 5 and 6) -/

section OneValue

variable {i : Instr} (hi : i.wf = true) {s : State} {d : RegId} {z : Int}
  (hx : exec i s = command i s (.ok (.value d z)))

include hi hx

theorem completes_of_fits (hz : z.natAbs < B ^ s.cfg.maxw) : Completes i s [(d, z)] :=
  completes_one (hx.trans (command_value hi hz))

theorem faultsWith_capacity (he : s.err = none) (hz : B ^ s.cfg.maxw ≤ z.natAbs) :
    FaultsWith i s .capacity :=
  faultsWith_of_raise he (hx.trans (command_value_capacity hi hz))

end OneValue

/-- Settles O8: ADD computes one value, the sum. -/
theorem addWritesTheSum : Obligations.AddWritesTheSum := by
  intro s d a b x y he ha hb
  have hx : exec (.add d a b) s = command (.add d a b) s (.ok (.value d (x + y))) := by
    rw [exec_add, withTwo_of_some ha hb]
  exact ⟨(Laws.OpcodeByte.add d a b).1, completes_of_fits rfl hx, faultsWith_capacity rfl hx he⟩

/-- Settles O9: SUB computes one value, the difference. -/
theorem subWritesTheDifference : Obligations.SubWritesTheDifference := by
  intro s d a b x y he ha hb
  have hx : exec (.sub d a b) s = command (.sub d a b) s (.ok (.value d (x - y))) := by
    rw [exec_sub, withTwo_of_some ha hb]
  exact ⟨(Laws.OpcodeByte.sub d a b).1, completes_of_fits rfl hx, faultsWith_capacity rfl hx he⟩

/-- Settles O10: the results have the magnitude of the source, which fits by the invariant. -/
theorem negAndAbsKeepTheMagnitude : Obligations.NegAndAbsKeepTheMagnitude := by
  intro s d a x hinv ha
  have hfits := hinv.natAbs_lt ha
  have hneg : exec (.neg d a) s = command (.neg d a) s (.ok (.value d (-x))) := by
    rw [exec_neg, withOne_of_some ha]
  have habs : exec (.abs d a) s = command (.abs d a) s (.ok (.value d |x|)) := by
    rw [exec_abs, withOne_of_some ha, Int.natCast_natAbs]
  exact ⟨(Laws.OpcodeByte.neg d a).1, (Laws.OpcodeByte.abs d a).1,
    completes_of_fits rfl hneg (by rwa [Int.natAbs_neg]),
    completes_of_fits rfl habs (by rwa [Int.natAbs_abs])⟩

/-! ### The order of two integers as a sign -/

theorem sgn_sub_of_lt {x y : Int} (h : x < y) : sgn (x - y) = .neg := by
  rw [sgn, if_pos (by omega)]

theorem sgn_sub_self (x : Int) : sgn (x - x) = .zero := by
  rw [sgn_eq_zero_iff, sub_self]

theorem sgn_sub_of_gt {x y : Int} (h : y < x) : sgn (x - y) = .pos := by
  rw [sgn, if_neg (by omega), if_neg (by omega)]

/-- A legal command that computes the order of two integers sets the flags to it. -/
theorem exec_compares {i : Instr} (hi : i.wf = true) {s : State} {x y : Int}
    (hx : exec i s = command i s (.ok (.compare (sgn (x - y))))) :
    (x < y → exec i s = .next { s with cmp := .neg, cmpv := true }) ∧
    (x = y → exec i s = .next { s with cmp := .zero, cmpv := true }) ∧
    (y < x → exec i s = .next { s with cmp := .pos, cmpv := true }) := by
  rw [hx, command_compare hi, State.setCompare]
  refine ⟨fun h => ?_, fun h => ?_, fun h => ?_⟩
  · rw [sgn_sub_of_lt h]
  · rw [h, sgn_sub_self]
  · rw [sgn_sub_of_gt h]

/-- Settles O11: CMPM computes the order of the absolute values. -/
theorem cmpmOrdersMagnitudes : Obligations.CmpmOrdersMagnitudes := by
  intro s a b x y ha hb
  have hx : exec (.cmpm a b) s = command (.cmpm a b) s (.ok (.compare (sgn (|x| - |y|)))) := by
    rw [exec_cmpm, withTwo_of_some ha hb, Int.natCast_natAbs, Int.natCast_natAbs]
  exact ⟨(Laws.OpcodeByte.cmpm a b).1, exec_compares rfl hx⟩

/-- Settles O12: CMP computes the order of the values. -/
theorem cmpOrdersValues : Obligations.CmpOrdersValues := by
  intro s a b x y ha hb
  have hx : exec (.cmp a b) s = command (.cmp a b) s (.ok (.compare (sgn (x - y)))) := by
    rw [exec_cmp, withTwo_of_some ha hb]
  exact ⟨(Laws.OpcodeByte.cmp a b).1, exec_compares rfl hx⟩

end Sys2Proof.Machine
end

section
/-!
PROOFS. The adder/subtractor's reference datapaths (40_addsub.md R101 to R104, R106, R110): the carry
chain, the borrow chain and the comparator meet the magnitudes' sum, difference and order, and the
signed adder, subtractor and comparator the integers'.
-/

namespace Sys2Proof.Machine

/-! ### Digits and canonical lengths (R6) -/

theorem digit_lt (m : List Word) (i : Nat) : digit m i < B := (m.getD i 0).isLt

/-- The words from index `i` on: word `i`, then those above it. -/
theorem val_drop (m : List Word) (i : Nat) :
    val (m.drop i) = digit m i + B * val (m.drop (i + 1)) := by
  rcases lt_or_ge i m.length with h | h
  · rw [List.drop_eq_getElem_cons h, val_cons, digit, List.getD_eq_getElem _ _ h]
  · rw [List.drop_of_length_le h, List.drop_of_length_le (by omega), digit,
      List.getD_eq_default _ _ h]
    rfl

/-- The words below index `n + 1`: those below `n`, then word `n`. -/
theorem val_take_succ (m : List Word) (n : Nat) :
    val (m.take (n + 1)) = val (m.take n) + B ^ n * digit m n := by
  rcases lt_or_ge n m.length with h | h
  · rw [List.take_succ_eq_append_getElem h, val_append, List.length_take_of_le h.le, digit,
      List.getD_eq_getElem _ _ h]
    simp
  · rw [List.take_of_length_le h, List.take_of_length_le (by omega), digit,
      List.getD_eq_default _ _ h]
    simp

theorem val_take_lt (m : List Word) (n : Nat) : val (m.take n) < B ^ n :=
  lt_of_lt_of_le (val_lt _) (Nat.pow_le_pow_right (by norm_num) (List.length_take_le n m))

theorem length_pos_of_canonical {m : List Word} (h : canonical m = true) : 1 ≤ m.length :=
  List.length_pos_iff.mpr (canonical_iff.mp h).1

/-- A canonical magnitude of at least two words is at least the base to its length less one. -/
theorem base_pow_le_val {m : List Word} (h : canonical m = true) (hl : 2 ≤ m.length) :
    B ^ (m.length - 1) ≤ val m := by
  obtain ⟨-, h1 | h1⟩ := canonical_iff.mp h
  · omega
  · exact h1

/-- The shorter of two canonical magnitudes is the smaller. -/
theorem val_lt_of_length_lt {a b : List Word} (ha : canonical a = true) (hb : canonical b = true)
    (h : a.length < b.length) : val a < val b := by
  have hpos := length_pos_of_canonical ha
  calc val a < B ^ a.length := val_lt a
    _ ≤ B ^ (b.length - 1) := Nat.pow_le_pow_right (by norm_num) (by omega)
    _ ≤ val b := base_pow_le_val hb (by omega)

/-! ### The carry chain (R101) -/

/-- From word `i` on, the carry chain gives the sum of the words from `i` on and the carry. -/
theorem val_addLoop {a b : List Word} {n i c : Nat} (hc : c ≤ 1) (ha : a.length ≤ i + n)
    (hb : b.length ≤ i + n) :
    val (addLoop a b n i c) = val (a.drop i) + val (b.drop i) + c := by
  induction n generalizing i c with
  | zero =>
    rw [List.drop_of_length_le (i := i) ha, List.drop_of_length_le (i := i) hb, addLoop]
    split <;> simp <;> omega
  | succ n ih =>
    have hda := digit_lt a i
    have hdb := digit_lt b i
    rw [val_drop a i, val_drop b i, addLoop, val_cons,
      ih (by rw [base_eq] at *; omega) (by omega) (by omega), BitVec.toNat_ofNat]
    simp only [base_eq]
    omega

/-- The carry chain has one word per position, and one more only for a carry out of the top. -/
theorem length_addLoop (a b : List Word) (n i c : Nat) :
    (addLoop a b n i c).length = n ∨
      (addLoop a b n i c).length = n + 1 ∧ B ^ n ≤ val (addLoop a b n i c) := by
  induction n generalizing i c with
  | zero => rw [addLoop]; split <;> simp
  | succ n ih =>
    rw [addLoop, List.length_cons, val_cons, pow_succ']
    refine (ih _ _).imp (congrArg (· + 1)) fun ⟨hlen, hval⟩ => ⟨congrArg (· + 1) hlen, ?_⟩
    exact le_add_left (Nat.mul_le_mul_left B hval)

theorem val_addmag (a b : List Word) : val (addmag a b) = val a + val b := by
  rw [addmag, val_addLoop (by omega) (by omega) (by omega)]
  simp

theorem canonical_addmag {a b : List Word} (ha : canonical a = true) (hb : canonical b = true) :
    canonical (addmag a b) = true := by
  have hpos := length_pos_of_canonical ha
  have hlen := length_addLoop a b (max a.length b.length) 0 0
  rw [← addmag] at hlen
  rw [canonical_iff, ← List.length_pos_iff]
  refine ⟨by omega, or_iff_not_imp_left.mpr fun hne => ?_⟩
  rcases hlen with hlen | ⟨hlen, hval⟩
  · rw [hlen, val_addmag]
    rcases le_total a.length b.length with h | h
    · rw [max_eq_right h] at hlen ⊢
      exact le_add_left (base_pow_le_val hb (by omega))
    · rw [max_eq_left h] at hlen ⊢
      exact le_add_right (base_pow_le_val ha (by omega))
  · rw [hlen]
    exact hval

/-- The carry chain adds canonical magnitudes (R101). -/
theorem addmag_eq_words {a b : List Word} (ha : canonical a = true) (hb : canonical b = true) :
    addmag a b = words (val a + val b) := by
  rw [← val_addmag, words_val (canonical_addmag ha hb)]

/-! ### The borrow chain (R102) -/

theorem length_subLoop (a b : List Word) (n i bw : Nat) : (subLoop a b n i bw).length = n := by
  induction n generalizing i bw with
  | zero => rfl
  | succ n ih => rw [subLoop, List.length_cons, ih]

/-- From word `i` on, the borrow chain gives the difference of the words from `i` on, less the borrow,
where that is not negative. -/
theorem val_subLoop {a b : List Word} {n i bw : Nat} (hbw : bw ≤ 1) (ha : a.length ≤ i + n)
    (hb : b.length ≤ i + n) (h : val (b.drop i) + bw ≤ val (a.drop i)) :
    val (subLoop a b n i bw) + (val (b.drop i) + bw) = val (a.drop i) := by
  induction n generalizing i bw with
  | zero =>
    rw [List.drop_of_length_le (i := i) ha, List.drop_of_length_le (i := i) hb, val_nil] at h ⊢
    rw [subLoop, val_nil]
    omega
  | succ n ih =>
    have hda := digit_lt a i
    have hdb := digit_lt b i
    rw [val_drop a i, val_drop b i] at h ⊢
    rw [subLoop, val_cons, BitVec.toNat_ofInt]
    simp only [base_eq] at *
    split
    · have := ih (i := i + 1) (bw := 1) (by omega) (by omega) (by omega) (by omega)
      omega
    · have := ih (i := i + 1) (bw := 0) (by omega) (by omega) (by omega) (by omega)
      omega

/-- The borrow chain subtracts canonical magnitudes (R102). -/
theorem submag_eq_words {a b : List Word} (ha : canonical a = true) (hb : canonical b = true)
    (h : val b ≤ val a) : submag a b = words (val a - val b) := by
  have hlen : b.length ≤ a.length := by
    by_contra hc
    have := val_lt_of_length_lt ha hb (by omega)
    omega
  have hval := val_subLoop (n := a.length) (i := 0) (bw := 0) (by omega) (by omega) (by omega)
    (show val (b.drop 0) + 0 ≤ val (a.drop 0) from h)
  have hne : subLoop a b a.length 0 0 ≠ [] := by
    rw [← List.length_pos_iff, length_subLoop]
    exact length_pos_of_canonical ha
  rw [List.drop_zero, List.drop_zero] at hval
  rw [submag, trim_eq_words hne, ← hval, Nat.add_zero, Nat.add_sub_cancel]

/-- Settles O48: the carry chain's result is canonical, the borrow chain's is trimmed, and each has the
value that its loop computes word by word. -/
theorem addAndSubtractMagnitudes : Obligations.AddAndSubtractMagnitudes :=
  fun _ _ ha hb => ⟨addmag_eq_words ha hb, submag_eq_words ha hb⟩

/-! ### The comparator (R103) -/

/-- The higher word decides: the words below it are less than its weight. -/
theorem add_mul_lt_add_mul {p x y c d : Nat} (hx : x < p) (h : c < d) : x + p * c < y + p * d := by
  have hle : p * (c + 1) ≤ p * d := Nat.mul_le_mul_left p h
  rw [Nat.mul_succ] at hle
  omega

/-- The comparison below index `n` is the order of what the words below `n` are worth. -/
theorem cmpLoop_eq_sgn (a b : List Word) (n : Nat) :
    cmpLoop a b n = sgn ((val (a.take n) : Int) - val (b.take n)) := by
  induction n with
  | zero => rfl
  | succ n ih =>
    have hlt {l m : List Word} (h : digit l n < digit m n) :
        (val (l.take (n + 1)) : Int) < val (m.take (n + 1)) := by
      rw [Int.ofNat_lt, val_take_succ, val_take_succ]
      exact add_mul_lt_add_mul (val_take_lt l n) h
    rw [cmpLoop]
    rcases lt_trichotomy (digit a n) (digit b n) with h | h | h
    · rw [if_neg (by omega), if_pos h, sgn_sub_of_lt (hlt h)]
    · rw [if_neg (by omega), if_neg (by omega), ih, val_take_succ, val_take_succ, h]
      push_cast
      rw [add_sub_add_right_eq_sub]
    · rw [if_pos h, sgn_sub_of_gt (hlt h)]

/-- The comparator orders canonical magnitudes (R103). -/
theorem cmpmag_eq_sgn {a b : List Word} (ha : canonical a = true) (hb : canonical b = true) :
    cmpmag a b = sgn ((val a : Int) - val b) := by
  rw [cmpmag]
  rcases lt_trichotomy a.length b.length with h | h | h
  · rw [if_neg (by omega), if_pos h, sgn_sub_of_lt (Int.ofNat_lt.mpr (val_lt_of_length_lt ha hb h))]
  · rw [if_neg (by omega), if_neg (by omega), cmpLoop_eq_sgn, List.take_length,
      List.take_of_length_le h.ge]
  · rw [if_pos h, sgn_sub_of_gt (Int.ofNat_lt.mpr (val_lt_of_length_lt hb ha h))]

/-! ### Signed values (R7) -/

/-- A sign and a number that agree on zero are the value of their product. -/
theorem mkValue_toInt_mul {c : Sign} {n : Nat} (h : c = .zero ↔ n = 0) :
    mkValue (c.toInt * (n : Int)) = { sign := c, mag := words n } := by
  rw [mkValue, sgn_toInt_mul h, natAbs_toInt_mul h]

theorem mkValue_zero : mkValue 0 = { sign := .zero, mag := [0] } := by
  rw [mkValue, Int.natAbs_zero, (words_eq_zero_iff 0).mpr rfl]
  rfl

/-- Exchanging the operands turns the order around. -/
theorem sgn_sub_comm (x y : Int) : sgn (y - x) = (sgn (x - y)).flip := by
  rcases lt_trichotomy x y with h | rfl | h
  · rw [sgn_sub_of_lt h, sgn_sub_of_gt h]; rfl
  · rw [sgn_sub_self]; rfl
  · rw [sgn_sub_of_gt h, sgn_sub_of_lt h]; rfl

/-- Under another sign than a nonzero one, a number has the opposite integer, or is zero. -/
theorem toInt_mul_of_ne {c e : Sign} {n : Nat} (hc : c ≠ .zero) (hne : c ≠ e)
    (he : e = .zero ↔ n = 0) : e.toInt * (n : Int) = -(c.toInt * (n : Int)) := by
  cases e with
  | zero => simp [he.mp rfl]
  | pos => cases c <;> simp [Sign.toInt] at *
  | neg => cases c <;> simp [Sign.toInt] at *

theorem Value.wf_flip {v : Value} (hv : v.wf = true) :
    Value.wf { v with sign := v.sign.flip } = true := by
  obtain ⟨hcv, hzv⟩ := Value.wf_iff.mp hv
  refine Value.wf_iff.mpr ⟨hcv, ?_⟩
  rw [← hzv]
  cases v.sign <;> simp [Sign.flip]

theorem Value.int_flip (v : Value) : Value.int { v with sign := v.sign.flip } = -v.int := by
  rw [Value.int, Value.int, ← neg_mul]
  cases v.sign <;> rfl

/-- The sign of a value is its integer's order against zero (R7). -/
theorem Value.sign_eq_sgn_int {v : Value} (hv : v.wf = true) : v.sign = sgn v.int := by
  obtain ⟨-, hzv⟩ := Value.wf_iff.mp hv
  rw [Value.int, sgn_toInt_mul hzv]

theorem Value.sign_eq_pos_iff {v : Value} (hv : v.wf = true) : v.sign = .pos ↔ 0 < v.int := by
  rw [Value.sign_eq_sgn_int hv, sgn]
  split_ifs <;> simp <;> omega

theorem Value.sign_eq_neg_iff {v : Value} (hv : v.wf = true) : v.sign = .neg ↔ v.int < 0 := by
  rw [Value.sign_eq_sgn_int hv, sgn]
  split_ifs <;> simp <;> omega

theorem Value.sign_eq_zero_iff {v : Value} (hv : v.wf = true) : v.sign = .zero ↔ v.int = 0 := by
  rw [Value.sign_eq_sgn_int hv, sgn_eq_zero_iff]

section SignedValues

variable {u v : Value} (hu : u.wf = true) (hv : v.wf = true)

include hu hv

/-! ### The signed adder and subtractor (R104, R106) -/

/-- Of two values of different signs the larger magnitude decides the sum's sign, and the sum's
magnitude is the difference. -/
theorem mkValue_add_of_val_lt (hne : u.sign ≠ v.sign) (h : val v.mag < val u.mag) :
    mkValue (u.int + v.int) = { sign := u.sign, mag := submag u.mag v.mag } := by
  obtain ⟨hcu, hzu⟩ := Value.wf_iff.mp hu
  obtain ⟨hcv, hzv⟩ := Value.wf_iff.mp hv
  have hsign : u.sign ≠ .zero := hzu.not.mpr (by omega)
  have hint : u.int + v.int = u.sign.toInt * ((val u.mag - val v.mag : Nat) : Int) := by
    rw [Value.int, Value.int, toInt_mul_of_ne hsign hne hzv, Nat.cast_sub h.le, mul_sub,
      sub_eq_add_neg]
  rw [hint, mkValue_toInt_mul (iff_of_false hsign (by omega)), submag_eq_words hcu hcv h.le]

/-- Two values of different signs and equal magnitudes cancel. -/
theorem add_eq_zero_of_val_eq (hne : u.sign ≠ v.sign) (h : val u.mag = val v.mag) :
    u.int + v.int = 0 := by
  obtain ⟨-, hzu⟩ := Value.wf_iff.mp hu
  obtain ⟨-, hzv⟩ := Value.wf_iff.mp hv
  have hsign : u.sign ≠ .zero := fun hz => hne (hz.trans (hzv.mpr (h ▸ hzu.mp hz)).symm)
  rw [Value.int, Value.int, toInt_mul_of_ne hsign hne hzv, h, add_neg_cancel]

/-- Two values of one sign add as their magnitudes do. -/
theorem mkValue_add_of_sign_eq (heq : u.sign = v.sign) (hsign : u.sign ≠ .zero) :
    mkValue (u.int + v.int) = { sign := u.sign, mag := addmag u.mag v.mag } := by
  obtain ⟨hcu, hzu⟩ := Value.wf_iff.mp hu
  obtain ⟨hcv, -⟩ := Value.wf_iff.mp hv
  have hint : u.int + v.int = u.sign.toInt * ((val u.mag + val v.mag : Nat) : Int) := by
    rw [Value.int, Value.int, ← heq, Nat.cast_add, mul_add]
  have hpos := hzu.not.mp hsign
  rw [hint, mkValue_toInt_mul (iff_of_false hsign (by omega)), addmag_eq_words hcu hcv]

theorem addSm_eq_mkValue : addSm u v = mkValue (u.int + v.int) := by
  obtain ⟨hcu, -⟩ := Value.wf_iff.mp hu
  obtain ⟨hcv, -⟩ := Value.wf_iff.mp hv
  rw [addSm]
  split_ifs with heq hz
  · rw [Value.int, Value.int, ← heq, hz, ← mkValue_zero]
    simp [Sign.toInt]
  · rw [mkValue_add_of_sign_eq hu hv heq hz]
  · rw [cmpmag_eq_sgn hcu hcv]
    rcases lt_trichotomy (val u.mag) (val v.mag) with h | h | h
    · rw [sgn_sub_of_lt (Int.ofNat_lt.mpr h), add_comm u.int,
        mkValue_add_of_val_lt hv hu (Ne.symm heq) h]
    · rw [h, sgn_sub_self, add_eq_zero_of_val_eq hu hv heq h, mkValue_zero]
    · rw [sgn_sub_of_gt (Int.ofNat_lt.mpr h), mkValue_add_of_val_lt hu hv heq h]

theorem subSm_eq_mkValue : subSm u v = mkValue (u.int - v.int) := by
  rw [subSm, addSm_eq_mkValue hu (Value.wf_flip hv), Value.int_flip, sub_eq_add_neg]

/-! ### The signed comparator (R110) -/

theorem cmpSm_eq_sgn : cmpSm u v = sgn (u.int - v.int) := by
  obtain ⟨hcu, -⟩ := Value.wf_iff.mp hu
  obtain ⟨hcv, -⟩ := Value.wf_iff.mp hv
  rw [cmpSm]
  -- the rows of R110: both positive, both negative, both zero, then the mixed signs
  split
  case h_1 hsu hsv =>
    rw [cmpmag_eq_sgn hcu hcv, Value.int, Value.int, hsu, hsv]
    simp [Sign.toInt]
  case h_2 hsu hsv =>
    rw [cmpmag_eq_sgn hcu hcv, ← sgn_sub_comm, Value.int, Value.int, hsu, hsv]
    simp [Sign.toInt, neg_add_eq_sub]
  case h_3 hsu hsv =>
    rw [(Value.sign_eq_zero_iff hu).mp hsu, (Value.sign_eq_zero_iff hv).mp hsv, sgn_sub_self]
  case h_4 hsu hsv =>
    have hup := (Value.sign_eq_pos_iff hu).mp hsu
    have hvp := (Value.sign_eq_pos_iff hv).not.mp hsv
    rw [sgn_sub_of_gt (by omega)]
  case h_5 hsu hsv =>
    have huz := (Value.sign_eq_zero_iff hu).mp hsu
    have hvn := (Value.sign_eq_neg_iff hv).mp hsv
    rw [sgn_sub_of_gt (by omega)]
  case h_6 hsu hsv =>
    have huz := (Value.sign_eq_zero_iff hu).mp hsu
    have hvp := (Value.sign_eq_pos_iff hv).mp hsv
    rw [sgn_sub_of_lt (by omega)]
  case h_7 hsu hsv =>
    have hun := (Value.sign_eq_neg_iff hu).mp hsu
    have hvn := (Value.sign_eq_neg_iff hv).not.mp hsv
    rw [sgn_sub_of_lt (by omega)]

end SignedValues

/-- Settles O49: from the comparator of magnitudes, and the magnitudes' sum and difference. -/
theorem signedDatapathMeetsTheIntegers : Obligations.SignedDatapathMeetsTheIntegers :=
  ⟨fun _ _ => cmpmag_eq_sgn, fun _ _ hu hv =>
    ⟨addSm_eq_mkValue hu hv, subSm_eq_mkValue hu hv, cmpSm_eq_sgn hu hv⟩⟩

end Sys2Proof.Machine
end

section
/-!
PROOFS. The schoolbook multiplier (41_multiply.md R130, R131): MUL writes the product or raises
`Capacity`, a row of word products adds the word times the multiplicand, and the rows make the product.
-/

namespace Sys2Proof.Machine

/-- Settles O13: MUL computes one value, the product. -/
theorem mulWritesTheProduct : Obligations.MulWritesTheProduct := by
  intro s d a b x y he ha hb
  have hx : exec (.mul d a b) s = command (.mul d a b) s (.ok (.value d (x * y))) := by
    rw [exec_mul, withTwo_of_some ha hb]
  exact ⟨(Laws.OpcodeByte.mul d a b).1, completes_of_fits rfl hx, faultsWith_capacity rfl hx he⟩

/-! ### Writing one word of an accumulator -/

theorem digit_set_ne {p : List Word} {i k : Nat} (w : Word) (h : i ≠ k) :
    digit (p.set i w) k = digit p k := by
  rw [digit, digit, List.getD_eq_getElem?_getD, List.getD_eq_getElem?_getD, List.getElem?_set_ne h]

/-- Writing word `i` replaces what it was worth. -/
theorem val_set {p : List Word} {i : Nat} (w : Word) (h : i < p.length) :
    val (p.set i w) + B ^ i * digit p i = val p + B ^ i * w.toNat := by
  induction p generalizing i with
  | nil => simp at h
  | cons v p ih =>
    cases i with
    | zero =>
      have hdigit : digit (v :: p) 0 = v.toNat := rfl
      rw [List.set_cons_zero, val_cons, val_cons, hdigit, pow_zero]
      ring
    | succ i =>
      have hrest := ih (Nat.lt_of_succ_lt_succ h)
      have hdigit : digit (v :: p) (i + 1) = digit p i := rfl
      rw [List.set_cons_succ, val_cons, val_cons, hdigit, pow_succ']
      linear_combination B * hrest

/-! ### One row of word products (R130) -/

@[simp] theorem length_mulRow (ai : Nat) (b : List Word) (i n j : Nat) (p : List Word) (c : Nat) :
    (mulRow ai b i n j p c).1.length = p.length := by
  induction n generalizing j p c with
  | zero => rfl
  | succ n ih => rw [mulRow, ih, List.length_set]

/-- A row leaves the words above its last position. -/
theorem digit_mulRow_of_le {i n j k : Nat} (ai : Nat) (b p : List Word) (c : Nat)
    (h : i + j + n ≤ k) : digit (mulRow ai b i n j p c).1 k = digit p k := by
  induction n generalizing j p c with
  | zero => rfl
  | succ n ih => rw [mulRow, ih _ _ (by omega), digit_set_ne _ (by omega)]

/-- The accumulating product never exceeds two words, so that the carry is one word (R130). -/
theorem carry_mulRow_lt {ai : Nat} (hai : ai < B) (b : List Word) (i n j : Nat) (p : List Word)
    {c : Nat} (hc : c < B) : (mulRow ai b i n j p c).2 < B := by
  induction n generalizing j p c with
  | zero => exact hc
  | succ n ih =>
    refine ih _ _ (Nat.div_lt_of_lt_mul ?_)
    have hb := digit_lt b j
    have hp := digit_lt p (i + j)
    nlinarith

/-- From word `j` of `b` on, a row adds `ai` times the words of `b` from `j` on and the carry into it,
counting the carry out of it. -/
theorem val_mulRow {ai i n j : Nat} {b p : List Word} (c : Nat) (hb : b.length ≤ j + n)
    (hp : i + j + n ≤ p.length) :
    val (mulRow ai b i n j p c).1 + B ^ (i + j + n) * (mulRow ai b i n j p c).2 =
      val p + B ^ (i + j) * (ai * val (b.drop j) + c) := by
  induction n generalizing j p c with
  | zero => simp [mulRow, List.drop_of_length_le (i := j) hb]
  | succ n ih =>
    rw [mulRow]
    set t := ai * digit b j + digit p (i + j) + c with ht
    have hset := val_set (p := p) (i := i + j) (BitVec.ofNat 32 (t % B)) (by omega)
    have hrest := ih (j := j + 1) (p := p.set (i + j) (BitVec.ofNat 32 (t % B))) (t / B) (by omega)
      (by rw [List.length_set]; omega)
    rw [BitVec.toNat_ofNat, ← base_eq_two_pow, Nat.mod_mod] at hset
    rw [show i + j + (n + 1) = i + (j + 1) + n by omega, hrest, val_drop b j, ← add_assoc i j 1,
      pow_succ]
    linear_combination hset + B ^ (i + j) * Nat.mod_add_div t B + B ^ (i + j) * ht

/-- A whole row, with its carry in the word above it, adds `ai` times `b` at word `i`. -/
theorem val_mulRow_set_carry {ai i : Nat} {b p : List Word} (hai : ai < B)
    (hp : i + b.length < p.length) (hzero : digit p (i + b.length) = 0) :
    val ((mulRow ai b i b.length 0 p 0).1.set (i + b.length)
      (BitVec.ofNat 32 (mulRow ai b i b.length 0 p 0).2)) = val p + B ^ i * (ai * val b) := by
  have hset := val_set (BitVec.ofNat 32 (mulRow ai b i b.length 0 p 0).2)
    (hp.trans_eq (length_mulRow ai b i b.length 0 p 0).symm)
  have hrow := val_mulRow (ai := ai) (i := i) (j := 0) (b := b) 0 (Nat.le_add_left _ _) hp.le
  have hcarry := carry_mulRow_lt hai b i b.length 0 p (c := 0) (by norm_num)
  rw [digit_mulRow_of_le (j := 0) _ _ _ _ (le_refl (i + b.length)), hzero, BitVec.toNat_ofNat, ← base_eq_two_pow,
    Nat.mod_eq_of_lt hcarry] at hset
  exact hset.trans hrow

/-! ### All rows (R130) -/

@[simp] theorem length_mulRows (a b : List Word) (n i : Nat) (p : List Word) :
    (mulRows a b n i p).length = p.length := by
  induction n generalizing i p with
  | zero => rfl
  | succ n ih => rw [mulRows, ih, List.length_set, length_mulRow]

/-- The rows from row `i` on add the words of `a` from `i` on times `b`: each row ends at a word that is
still zero, which receives its carry. -/
theorem val_mulRows {a b p : List Word} {n i : Nat} (ha : a.length ≤ i + n)
    (hp : i + n + b.length ≤ p.length) (hzero : ∀ k, i + b.length ≤ k → digit p k = 0) :
    val (mulRows a b n i p) = val p + B ^ i * (val (a.drop i) * val b) := by
  induction n generalizing i p with
  | zero => simp [mulRows, List.drop_of_length_le (i := i) ha]
  | succ n ih =>
    have hword := hzero (i + b.length) le_rfl
    rw [mulRows, ih (by omega) (by rw [List.length_set, length_mulRow]; omega) fun k hk => by
      rw [digit_set_ne _ (by omega), digit_mulRow_of_le _ _ _ _ (by omega), hzero k (by omega)],
      val_mulRow_set_carry (digit_lt a i) (by omega) hword, val_drop a i, pow_succ]
    ring

theorem digit_replicate_zero (n k : Nat) : digit (List.replicate n (0 : Word)) k = 0 := by
  simp [digit]

theorem val_replicate_zero (n : Nat) : val (List.replicate n (0 : Word)) = 0 := by
  induction n with
  | zero => rfl
  | succ n ih => rw [List.replicate_succ, val_cons, ih]; rfl

/-- The schoolbook loop multiplies magnitudes (R130). -/
theorem mulmag_eq_words {a b : List Word} (ha : canonical a = true) :
    mulmag a b = words (val a * val b) := by
  have hpos := length_pos_of_canonical ha
  have hne : mulRows a b a.length 0 (List.replicate (a.length + b.length) 0) ≠ [] := by
    rw [← List.length_pos_iff, length_mulRows, List.length_replicate]
    omega
  rw [mulmag, trim_eq_words hne, val_mulRows (by omega) (by rw [List.length_replicate]; omega)
    fun k _ => digit_replicate_zero _ k, val_replicate_zero]
  simp

/-! ### The multiplier on values (R131) -/

theorem Sign.toInt_times (c e : Sign) : (c.times e).toInt = c.toInt * e.toInt := by
  cases c <;> cases e <;> rfl

theorem Sign.times_ne_zero {c e : Sign} (hc : c ≠ .zero) (he : e ≠ .zero) : c.times e ≠ .zero := by
  cases c <;> cases e <;> trivial

theorem mulSm_eq_mkValue {u v : Value} (hu : u.wf = true) (hv : v.wf = true) :
    mulSm u v = mkValue (u.int * v.int) := by
  obtain ⟨hcu, hzu⟩ := Value.wf_iff.mp hu
  obtain ⟨-, hzv⟩ := Value.wf_iff.mp hv
  rw [mulSm]
  split_ifs with hz
  · rw [Value.sign_eq_zero_iff hu, Value.sign_eq_zero_iff hv, ← mul_eq_zero] at hz
    rw [hz, mkValue_zero]
  · obtain ⟨hsu, hsv⟩ := not_or.mp hz
    have hint : u.int * v.int =
        (u.sign.times v.sign).toInt * ((val u.mag * val v.mag : Nat) : Int) := by
      rw [Value.int, Value.int, Sign.toInt_times, Nat.cast_mul, mul_mul_mul_comm]
    have hne : val u.mag * val v.mag ≠ 0 := mul_ne_zero (hzu.not.mp hsu) (hzv.not.mp hsv)
    rw [hint, mkValue_toInt_mul (iff_of_false (Sign.times_ne_zero hsu hsv) hne), mulmag_eq_words hcu]

/-- Settles O50: the product of magnitudes is the rows' value, trimmed, and the sign is the signs'
product. -/
theorem schoolbookMultiplies : Obligations.SchoolbookMultiplies :=
  ⟨fun _ _ ha _ => mulmag_eq_words ha, fun _ _ => mulSm_eq_mkValue⟩

end Sys2Proof.Machine
end

section
/-!
PROOFS. The divider's contracts and commands (42_divide.md R140, R150 to R154): what R140 and R150 say of
a quotient and remainder and of a residue determines them, and DIVREM, DIV, REM and MOD write them. They
always fit, because operands bound them.
-/

namespace Sys2Proof.Machine

/-! ### Truncating division (R140) -/

/-- The quotient is that of the magnitudes, under the product of the signs. -/
theorem tdiv_toInt_mul (c e : Sign) (m n : Nat) :
    (c.toInt * (m : Int)).tdiv (e.toInt * (n : Int)) =
      c.toInt * e.toInt * ((m / n : Nat) : Int) := by
  cases c <;> cases e <;> simp [Sign.toInt]

/-- The remainder is that of the magnitudes, under the sign of the dividend. -/
theorem tmod_toInt_mul (c : Sign) {e : Sign} (he : e ≠ .zero) (m n : Nat) :
    (c.toInt * (m : Int)).tmod (e.toInt * (n : Int)) = c.toInt * ((m % n : Nat) : Int) := by
  cases e with
  | zero => exact absurd rfl he
  | neg | pos => cases c <;> simp [Sign.toInt] <;> rfl

theorem divrem_fst_eq (x d : Int) : (divrem x d).1 =
    (sgn x).toInt * (sgn d).toInt * ((x.natAbs / d.natAbs : Nat) : Int) := by
  rw [← tdiv_toInt_mul, sgn_toInt_mul_natAbs, sgn_toInt_mul_natAbs, divrem]

theorem divrem_snd_eq (x : Int) {d : Int} (hd : d ≠ 0) :
    (divrem x d).2 = (sgn x).toInt * ((x.natAbs % d.natAbs : Nat) : Int) := by
  rw [← tmod_toInt_mul (sgn x) ((sgn_eq_zero_iff d).not.mpr hd), sgn_toInt_mul_natAbs,
    sgn_toInt_mul_natAbs, divrem]

theorem isDivRem_divrem (x : Int) {d : Int} (hd : d ≠ 0) :
    IsDivRem (divrem x d).1 (divrem x d).2 x d := by
  refine ⟨(Int.tdiv_mul_add_tmod x d).symm, natAbs_tmod_lt x hd, or_iff_not_imp_left.mpr fun hr => ?_⟩
  rw [divrem_snd_eq x hd] at hr ⊢
  obtain ⟨hsgn, hmod⟩ := mul_ne_zero_iff.mp hr
  refine sgn_toInt_mul (iff_of_false (fun hz => hsgn ?_) (Nat.cast_ne_zero.mp hmod))
  rw [hz]
  rfl

/-- A remainder lies on the dividend's side of zero. -/
theorem IsDivRem.remainder_side {q r x d : Int} (h : IsDivRem q r x d) :
    (0 ≤ x → 0 ≤ r) ∧ (x ≤ 0 → r ≤ 0) := by
  obtain ⟨-, -, rfl | hsgn⟩ := h
  · exact ⟨fun _ => le_rfl, fun _ => le_rfl⟩
  · rw [sgn, sgn] at hsgn
    split_ifs at hsgn <;> omega

/-- Only the truncating quotient and remainder meet R140. -/
theorem IsDivRem.eq_divrem {q r x d : Int} (hd : d ≠ 0) (h : IsDivRem q r x d) :
    q = (divrem x d).1 ∧ r = (divrem x d).2 := by
  obtain ⟨hnonneg, hnonpos⟩ := h.remainder_side
  obtain ⟨hx, hlt, -⟩ := h
  have hsum : r + d * q = x := by rw [hx, mul_comm, add_comm]
  rcases le_total 0 x with hside | hside
  · obtain ⟨hq, hr⟩ := (Int.tdiv_tmod_unique hside hd).mpr ⟨hsum, hnonneg hside, by omega⟩
    exact ⟨hq.symm, hr.symm⟩
  · obtain ⟨hq, hr⟩ := (Int.tdiv_tmod_unique' hside hd).mpr ⟨hsum, by omega, hnonpos hside⟩
    exact ⟨hq.symm, hr.symm⟩

/-- Settles O14: the signs go through the division of magnitudes, and the library's uniqueness of
truncating division covers either side of zero. -/
theorem truncatingDivisionIsUnique : Obligations.TruncatingDivisionIsUnique :=
  fun x d hd => ⟨isDivRem_divrem x hd, fun _ _ h => h.eq_divrem hd, divrem_fst_eq x d,
    divrem_snd_eq x hd⟩

/-! ### The residue (R150) -/

theorem isResidue_modulo (x : Int) {m : Int} (hm : 0 < m) : IsResidue (modulo x m) x m := by
  rw [modulo_eq_emod x hm]
  exact ⟨Int.emod_nonneg x hm.ne', Int.emod_lt_of_pos x hm, Int.dvd_self_sub_emod⟩

theorem natAbs_modulo_lt (x : Int) {m : Int} (hm : 0 < m) : (modulo x m).natAbs < m.natAbs := by
  obtain ⟨hnonneg, hlt, -⟩ := isResidue_modulo x hm
  exact Int.natAbs_lt_natAbs_of_nonneg_of_lt hnonneg hlt

/-- Only one number is the residue: that in `[0, m)` with the operand's remainder. -/
theorem IsResidue.eq_modulo {z x m : Int} (h : IsResidue z x m) : z = modulo x m := by
  obtain ⟨hnonneg, hlt, hdvd⟩ := h
  rw [modulo_eq_emod x (hnonneg.trans_lt hlt)]
  exact (Int.emod_eq_of_lt hnonneg hlt).symm.trans (Int.modEq_iff_dvd.mpr hdvd)

/-- Settles O15: `modulo` is built from the truncating remainder, and is the integer remainder that is
never negative. -/
theorem residueIsUnique : Obligations.ResidueIsUnique := by
  intro x m hm
  refine ⟨isResidue_modulo x hm, fun z hz => hz.eq_modulo, fun q r h => ?_⟩
  obtain ⟨-, rfl⟩ := h.eq_divrem hm.ne'
  rw [modulo]

/-! ### The commands (R151 to R154) -/

/-- Settles O16: the quotient is no larger than the dividend and the remainder smaller than the divisor,
so both fit. -/
theorem divremWritesBoth : Obligations.DivremWritesBoth := by
  intro s d e a b x y hinv he hde ha hb
  have hwf : (Instr.divrem d e a b).wf = true := by simpa [Instr.wf] using hde
  have hx := exec_divrem d e a b s
  rw [withTwo_of_some ha hb] at hx
  refine ⟨(Laws.OpcodeByte.divrem d e a b).1, fun hy => ?_, fun hy => ?_⟩
  · rw [if_pos hy, command_error hwf] at hx
    exact faultsWith_of_raise he hx
  · have hq : (divrem x y).1.natAbs < B ^ s.cfg.maxw :=
      (natAbs_tdiv_le x y).trans_lt (hinv.natAbs_lt ha)
    have hr : (divrem x y).2.natAbs < B ^ s.cfg.maxw :=
      (natAbs_tmod_lt x hy).trans (hinv.natAbs_lt hb)
    rw [if_neg hy, command_pair hwf hq hr] at hx
    exact ⟨_, _, isDivRem_divrem x hy, completes_two hde hx⟩

/-- Settles O18: each command computes one value of the pair, which fits. -/
theorem divAndRemWriteOne : Obligations.DivAndRemWriteOne := by
  intro s d a b x y hinv he ha hb
  have hdiv := exec_div d a b s
  have hrem := exec_rem d a b s
  rw [withTwo_of_some ha hb] at hdiv hrem
  refine ⟨(Laws.OpcodeByte.div d a b).1, (Laws.OpcodeByte.rem d a b).1, fun hy => ?_, fun hy => ?_⟩
  · rw [if_pos hy, command_error rfl] at hdiv hrem
    exact ⟨faultsWith_of_raise he hdiv, faultsWith_of_raise he hrem⟩
  · rw [if_neg hy] at hdiv hrem
    exact ⟨_, _, isDivRem_divrem x hy,
      completes_of_fits rfl hdiv ((natAbs_tdiv_le x y).trans_lt (hinv.natAbs_lt ha)),
      completes_of_fits rfl hrem ((natAbs_tmod_lt x hy).trans (hinv.natAbs_lt hb))⟩

/-- Settles O19: the residue is smaller than the modulus, so it fits. -/
theorem modWritesTheResidue : Obligations.ModWritesTheResidue := by
  intro s d a b x m hinv he ha hb
  have hx := exec_mod d a b s
  rw [withTwo_of_some ha hb] at hx
  refine ⟨(Laws.OpcodeByte.mod d a b).1, fun hm => ?_, fun hm => ?_⟩
  · rw [if_pos hm, command_error rfl] at hx
    exact faultsWith_of_raise he hx
  · rw [if_neg (not_le.mpr hm)] at hx
    exact ⟨_, isResidue_modulo x hm,
      completes_of_fits rfl hx ((natAbs_modulo_lt x hm).trans (hinv.natAbs_lt hb))⟩

end Sys2Proof.Machine
end

section
/-!
PROOFS. Division by a single word (42_divide.md R143): the loop divides the words from the most
significant down, carrying the remainder.
-/

namespace Sys2Proof.Machine

theorem words_of_lt_base {k : Nat} (hk : k < B) : words k = [BitVec.ofNat 32 k] := by
  have hval : val [BitVec.ofNat 32 k] = k := by
    rw [val_cons, val_nil, BitVec.toNat_ofNat, ← base_eq_two_pow, Nat.mod_eq_of_lt hk]
    rfl
  rw [← words_val (m := [BitVec.ofNat 32 k]) rfl, hval]

/-- A new most significant word that fits adds its weight. -/
theorem val_append_ofNat (l : List Word) {k : Nat} (hk : k < B) :
    val (l ++ [BitVec.ofNat 32 k]) = val l + B ^ l.length * k := by
  rw [val_append, ← words_of_lt_base hk, val_words]

@[simp] theorem length_divwordLoop (u : List Word) (d n rem : Nat) :
    (divwordLoop u d n rem).1.length = n := by
  induction n generalizing rem with
  | zero => rfl
  | succ n ih => simp [divwordLoop, ih]

/-- The loop divides the running remainder followed by the words below index `n`. -/
theorem divwordLoop_divides (u : List Word) {d n rem : Nat} (hrem : rem < d) :
    val (divwordLoop u d n rem).1 = (val (u.take n) + B ^ n * rem) / d ∧
      (divwordLoop u d n rem).2 = (val (u.take n) + B ^ n * rem) % d := by
  induction n generalizing rem with
  | zero => simp [divwordLoop, Nat.div_eq_of_lt hrem, Nat.mod_eq_of_lt hrem]
  | succ n ih =>
    have hpos : 0 < d := hrem.pos
    have hdigit := digit_lt u n
    rw [divwordLoop]
    set num := rem * B + digit u n with hnum
    obtain ⟨hquot, hmod⟩ := ih (Nat.mod_lt num hpos)
    have hword : num / d < B := Nat.div_lt_of_lt_mul (by nlinarith)
    have hsplit : val (u.take (n + 1)) + B ^ (n + 1) * rem =
        val (u.take n) + B ^ n * (num % d) + d * (B ^ n * (num / d)) := by
      rw [val_take_succ, pow_succ]
      linear_combination B ^ n * (hnum - Nat.mod_add_div num d)
    rw [hsplit, Nat.add_mul_div_left _ _ hpos, Nat.add_mul_mod_self_left,
      val_append_ofNat _ hword, length_divwordLoop, hquot]
    exact ⟨rfl, hmod⟩

theorem divword_eq_words {u : List Word} {d : Word} (hu : u ≠ []) (hd : d ≠ 0) :
    divword u d = (words (val u / d.toNat), words (val u % d.toNat)) := by
  have hpos : 0 < d.toNat := Nat.pos_of_ne_zero (BitVec.toNat_ne.mp hd)
  obtain ⟨hquot, hmod⟩ := divwordLoop_divides u (n := u.length) hpos
  have hne : (divwordLoop u d.toNat u.length 0).1 ≠ [] := by
    rwa [← List.length_pos_iff, length_divwordLoop, List.length_pos_iff]
  rw [List.take_length, mul_zero, add_zero] at hquot hmod
  rw [divword, trim_eq_words hne, hquot, hmod,
    words_of_lt_base ((Nat.mod_lt _ hpos).trans d.isLt)]

/-- Settles O51, from what the loop's quotient words and last remainder are worth. -/
theorem singleWordDivision : Obligations.SingleWordDivision :=
  fun _ _ => divword_eq_words

end Sys2Proof.Machine
end

section
/-!
PROOFS. One step of Algorithm D (42_divide.md R145 to R148): it looks at its window only, its trial digit
is the true one or one too large, and it leaves the window's remainder.
-/

namespace Sys2Proof.Machine

/-! ### The step looks at its window only (R145 to R148) -/

section Window

variable (p s : List Word) {w vn : List Word}

theorem digit_append_window {i k : Nat} (hk : k = i + p.length) (hi : i < w.length) :
    digit (p ++ (w ++ s)) k = digit w i := by
  subst hk
  rw [digit, digit, List.getD_append_right _ _ _ _ (by omega), Nat.add_sub_cancel,
    List.getD_append _ _ _ _ hi]

theorem set_append_window {i k : Nat} (x : Word) (hk : k = i + p.length) (hi : i < w.length) :
    (p ++ (w ++ s)).set k x = p ++ (w.set i x ++ s) := by
  subst hk
  rw [List.set_append_right _ _ (by omega), Nat.add_sub_cancel, List.set_append_left _ _ hi]

@[simp] theorem length_mulSubLoop (qhat : Nat) (vn : List Word) (j n i : Nat) (un : List Word)
    (c b : Nat) : (mulSubLoop qhat vn j n i un c b).1.length = un.length := by
  induction n generalizing i un c b with
  | zero => rfl
  | succ n ih => rw [mulSubLoop, ih, List.length_set]

@[simp] theorem length_mulSub (qhat : Nat) (un vn : List Word) (j : Nat) :
    (mulSub qhat un vn j).1.length = un.length := by
  simp [mulSub]

@[simp] theorem length_addBackLoop (vn : List Word) (j n i : Nat) (un : List Word) (c : Nat) :
    (addBackLoop vn j n i un c).1.length = un.length := by
  induction n generalizing i un c with
  | zero => rfl
  | succ n ih => rw [addBackLoop, ih, List.length_set]

@[simp] theorem length_addBack (un vn : List Word) (j : Nat) :
    (addBack un vn j).length = un.length := by
  simp [addBack]

theorem mulSubLoop_window (qhat : Nat) {n i : Nat} (c b : Nat) (hw : i + n ≤ w.length) :
    mulSubLoop qhat vn p.length n i (p ++ (w ++ s)) c b =
      (p ++ ((mulSubLoop qhat vn 0 n i w c b).1 ++ s), (mulSubLoop qhat vn 0 n i w c b).2) := by
  induction n generalizing i w c b with
  | zero => rfl
  | succ n ih =>
    rw [mulSubLoop, mulSubLoop, digit_append_window p s rfl (by omega),
      set_append_window p s _ rfl (by omega), ih _ _ (by rw [List.length_set]; omega)]
    rfl

theorem addBackLoop_window {n i : Nat} (c : Nat) (hw : i + n ≤ w.length) :
    addBackLoop vn p.length n i (p ++ (w ++ s)) c =
      (p ++ ((addBackLoop vn 0 n i w c).1 ++ s), (addBackLoop vn 0 n i w c).2) := by
  induction n generalizing i w c with
  | zero => rfl
  | succ n ih =>
    rw [addBackLoop, addBackLoop, digit_append_window p s rfl (by omega),
      set_append_window p s _ rfl (by omega), ih _ (by rw [List.length_set]; omega)]
    rfl

variable (hw : w.length = vn.length + 1)

include hw

theorem mulSub_window (qhat : Nat) : mulSub qhat (p ++ (w ++ s)) vn p.length =
    (p ++ ((mulSub qhat w vn 0).1 ++ s), (mulSub qhat w vn 0).2) := by
  rw [mulSub, mulSubLoop_window p s qhat 0 0 (by omega), mulSub]
  rw [digit_append_window p s (Nat.add_comm _ _) (by rw [length_mulSubLoop]; omega),
    set_append_window p s _ (Nat.add_comm _ _) (by rw [length_mulSubLoop]; omega), Nat.zero_add]

theorem addBack_window : addBack (p ++ (w ++ s)) vn p.length = p ++ (addBack w vn 0 ++ s) := by
  rw [addBack, addBackLoop_window p s 0 (by omega), addBack]
  rw [digit_append_window p s (Nat.add_comm _ _) (by rw [length_addBackLoop]; omega),
    set_append_window p s _ (Nat.add_comm _ _) (by rw [length_addBackLoop]; omega), Nat.zero_add]

theorem trialDigit_window (hv : 2 ≤ vn.length) :
    trialDigit (p ++ (w ++ s)) vn p.length = trialDigit w vn 0 := by
  rw [trialDigit, trialDigit,
    digit_append_window p s (i := 0 + vn.length) (k := p.length + vn.length) (by omega) (by omega),
    digit_append_window p s (i := 0 + vn.length - 1) (k := p.length + vn.length - 1) (by omega)
      (by omega),
    digit_append_window p s (i := 0 + vn.length - 2) (k := p.length + vn.length - 2) (by omega)
      (by omega)]

theorem knuthStep_window (hv : 2 ≤ vn.length) : knuthStep (p ++ (w ++ s)) vn p.length =
    (p ++ ((knuthStep w vn 0).1 ++ s), (knuthStep w vn 0).2) := by
  rw [knuthStep, knuthStep, trialDigit_window p s hw hv, mulSub_window p s hw,
    addBack_window p s (by rw [length_mulSub, hw])]
  split_ifs <;> rfl

end Window

/-! ### Correcting the trial digit (R145, R146) -/

/-- The test of R146 compares the digit times the divisor's top two words with the window's top three:
the digit's part of the window's top two words cancels. -/
theorem trialTest_iff {num u0 v1 v2 qhat rhat : Nat} (hnum : qhat * v1 + rhat = num) :
    qhat * v2 ≤ rhat * B + u0 ↔ qhat * (v1 * B + v2) ≤ num * B + u0 := by
  rw [← hnum, mul_add, add_mul, ← mul_assoc, add_assoc]
  exact (Nat.add_le_add_iff_left).symm

/-- What a trial digit sees of a window of value `W` and a divisor of value `V`: the window's top two
words `num` and its third word `u0`, and the divisor's top two words `v1` and `v2`, all above words of
weight less than `P`; the divisor is normalized and the window below `B` times it. -/
structure TrialPrefixes (num u0 v1 v2 P W V : Nat) : Prop where
  window_ge : (num * B + u0) * P ≤ W
  window_lt : W < (num * B + u0 + 1) * P
  divisor_ge : (v1 * B + v2) * P ≤ V
  divisor_lt : V < (v1 * B + v2 + 1) * P
  normalized : B ≤ 2 * v1
  third_lt : u0 < B
  second_lt : v2 < B
  below : W < V * B

namespace TrialPrefixes

variable {num u0 v1 v2 P W V : Nat} (h : TrialPrefixes num u0 v1 v2 P W V)

include h

theorem weight_pos : 0 < P := by
  have := h.window_lt
  exact Nat.pos_of_ne_zero fun hP => by rw [hP] at this; omega

theorem divisor_pos : 0 < V := Nat.pos_of_mul_pos_right (h.below.pos)

/-- The window's top two words are below the divisor's top word and one, times the base. -/
theorem num_lt : num < (v1 + 1) * B := by
  have hsecond := h.second_lt
  refine Nat.lt_of_mul_lt_mul_right (a := B * P) ?_
  calc num * (B * P) ≤ (num * B + u0) * P := by rw [add_mul, mul_assoc]; exact Nat.le_add_right _ _
    _ ≤ W := h.window_ge
    _ < V * B := h.below
    _ ≤ (v1 * B + v2 + 1) * P * B := Nat.mul_le_mul_right B h.divisor_lt.le
    _ ≤ (v1 + 1) * B * P * B := by gcongr; rw [add_one_mul]; omega
    _ = (v1 + 1) * B * (B * P) := by ring

/-- A digit that fails the test of R146 is too large. -/
theorem quotient_lt {q : Nat} (hq : num * B + u0 < q * (v1 * B + v2)) : W / V < q := by
  refine Nat.div_lt_of_lt_mul ?_
  calc W < (num * B + u0 + 1) * P := h.window_lt
    _ ≤ q * (v1 * B + v2) * P := Nat.mul_le_mul_right P hq
    _ = (v1 * B + v2) * P * q := by ring
    _ ≤ V * q := Nat.mul_le_mul_right q h.divisor_ge

/-- The first trial digit is not below the true one (R145). -/
theorem quotient_le_trial : W / V ≤ num / v1 := by
  have hnorm := h.normalized
  have hthird := h.third_lt
  have htrial : num < v1 * (num / v1 + 1) := Nat.lt_mul_div_succ num (by rw [base_eq] at hnorm; omega)
  refine Nat.lt_succ_iff.mp (h.quotient_lt ?_)
  calc num * B + u0 < (num + 1) * B := by rw [add_one_mul]; omega
    _ ≤ v1 * (num / v1 + 1) * B := Nat.mul_le_mul_right B htrial
    _ ≤ (num / v1 + 1) * (v1 * B + v2) := by rw [mul_comm v1, mul_assoc]; gcongr; omega

/-- A digit of at most `B` that passes the test of R146 is at most one too large: what the test does
not see of the product is less than the divisor. -/
theorem le_quotient_succ {q : Nat} (hB : q ≤ B) (hq : q * (v1 * B + v2) ≤ num * B + u0) :
    q ≤ W / V + 1 := by
  have htop : B ≤ v1 * B + v2 := by
    have := h.normalized
    simp only [base_eq] at *
    omega
  have hprod : q * V ≤ W + V := calc
    q * V ≤ q * ((v1 * B + v2 + 1) * P) := Nat.mul_le_mul_left q h.divisor_lt.le
    _ = q * (v1 * B + v2) * P + q * P := by ring
    _ ≤ (num * B + u0) * P + (v1 * B + v2) * P :=
      add_le_add (Nat.mul_le_mul_right P hq) (Nat.mul_le_mul_right P (hB.trans htop))
    _ ≤ W + V := add_le_add h.window_ge h.divisor_ge
  rw [← Nat.sub_le_iff_le_add, Nat.le_div_iff_mul_le h.divisor_pos, Nat.sub_mul, one_mul]
  exact Nat.sub_le_of_le_add hprod

/-- A digit whose remainder has grown to `B` passes the test (R146). -/
theorem le_quotient_succ_of_base_le {qhat rhat : Nat} (hnum : qhat * v1 + rhat = num)
    (hr : B ≤ rhat) : qhat ≤ W / V + 1 := by
  have hlt : qhat < B := by
    have := h.num_lt
    rw [add_one_mul, ← hnum] at this
    exact Nat.lt_of_mul_lt_mul_right (a := v1) (by rw [mul_comm B]; omega)
  refine h.le_quotient_succ hlt.le ((trialTest_iff hnum).mp ?_)
  exact (Nat.mul_le_mul (hlt.le.trans hr) h.second_lt.le).trans (Nat.le_add_right _ _)

/-- The corrections end at the true digit or one above it: none goes below the true digit, and they go
on until the digit passes the test, at the latest when the remainder has grown to `B`. -/
theorem correctDigit_bounds {n qhat rhat : Nat} (hnum : qhat * v1 + rhat = num)
    (hge : W / V ≤ qhat) (hn : B ≤ rhat + n * v1) :
    W / V ≤ correctDigit v1 v2 u0 n qhat rhat ∧
      correctDigit v1 v2 u0 n qhat rhat ≤ W / V + 1 := by
  induction n generalizing qhat rhat with
  | zero => exact ⟨hge, h.le_quotient_succ_of_base_le hnum (by omega)⟩
  | succ n ih =>
    rw [correctDigit]
    split
    case isTrue htest =>
      have hlt : W / V < qhat := by
        rcases htest with hB | hprod
        · exact (Nat.div_lt_of_lt_mul h.below).trans_le hB
        · exact h.quotient_lt (not_le.mp ((trialTest_iff hnum).not.mp (not_le.mpr hprod)))
      have hnext : (qhat - 1) * v1 + (rhat + v1) = num := by
        rw [← hnum, Nat.sub_mul, one_mul]
        have := Nat.le_mul_of_pos_left v1 hlt.pos
        omega
      split
      case isTrue hr => exact ⟨by omega, h.le_quotient_succ_of_base_le hnext hr⟩
      case isFalse => exact ih hnext (by omega) (by rw [add_one_mul] at hn; omega)
    case isFalse htest =>
      obtain ⟨hB, hprod⟩ := not_or.mp htest
      exact ⟨hge, h.le_quotient_succ (by omega) ((trialTest_iff hnum).mp (not_lt.mp hprod))⟩

end TrialPrefixes

/-- The three top words of a magnitude above the words below index `k`. -/
theorem val_take_add_three (m : List Word) (k : Nat) : val (m.take (k + 3)) =
    val (m.take k) + ((digit m (k + 2) * B + digit m (k + 1)) * B + digit m k) * B ^ k := by
  rw [val_take_succ, val_take_succ, val_take_succ]
  ring

theorem val_take_add_two (m : List Word) (k : Nat) : val (m.take (k + 2)) =
    val (m.take k) + (digit m (k + 1) * B + digit m k) * B ^ k := by
  rw [val_take_succ, val_take_succ]
  ring

section WindowStep

variable {w vn : List Word} (hw : w.length = vn.length + 1)

include hw

/-- The trial digit of a window looks at its three top words and the divisor's two (R145). -/
theorem trialPrefixes_of_window {k : Nat} (hk : vn.length = k + 2) (htop : 2 ^ 31 ≤ digit vn (k + 1))
    (hbelow : val w < val vn * B) :
    TrialPrefixes (digit w (k + 2) * B + digit w (k + 1)) (digit w k) (digit vn (k + 1))
      (digit vn k) (B ^ k) (val w) (val vn) := by
  have hwin := val_take_add_three w k
  have hdiv := val_take_add_two vn k
  rw [List.take_of_length_le (by omega)] at hwin hdiv
  have hwlow := val_take_lt w k
  have hvlow := val_take_lt vn k
  exact {
    window_ge := by omega
    window_lt := by rw [add_one_mul]; omega
    divisor_ge := by omega
    divisor_lt := by rw [add_one_mul]; omega
    normalized := by rw [base_eq]; omega
    second_lt := digit_lt vn k
    third_lt := digit_lt w k
    below := hbelow }

/-- The corrected trial digit is the true digit or one too large (R146). -/
theorem trialDigit_bounds (hv : 2 ≤ vn.length) (htop : 2 ^ 31 ≤ digit vn (vn.length - 1))
    (hbelow : val w < val vn * B) : val w / val vn ≤ trialDigit w vn 0 ∧
      trialDigit w vn 0 ≤ val w / val vn + 1 := by
  obtain ⟨k, hk⟩ := Nat.exists_eq_add_of_le' hv
  rw [hk] at htop
  have h := trialPrefixes_of_window hw hk htop hbelow
  have htrial : trialDigit w vn 0 = correctDigit (digit vn (k + 1)) (digit vn k) (digit w k) 2
      ((digit w (k + 2) * B + digit w (k + 1)) / digit vn (k + 1))
      ((digit w (k + 2) * B + digit w (k + 1)) % digit vn (k + 1)) := by
    simp [trialDigit, hk]
  have hnorm := h.normalized
  rw [htrial]
  exact h.correctDigit_bounds (Nat.div_add_mod' _ _) h.quotient_le_trial (by omega)

end WindowStep

/-! ### Multiply and subtract (R147) -/

/-- One word of a borrow chain: the difference modulo the base, and a borrow where it is negative. -/
theorem toNat_ofInt_sub {d p b : Nat} (hd : d < B) (hpb : p + b ≤ B) :
    (BitVec.ofInt 32 ((d : Int) - p - b)).toNat + p + b =
      d + B * (if (d : Int) - p - b < 0 then 1 else 0) := by
  rw [BitVec.toNat_ofInt]
  rw [base_eq] at *
  split <;> omega

section MulSub

variable {qhat : Nat} {vn : List Word}

/-- With a digit of at most `B` the carry is one word (R147). -/
theorem carry_mulSubLoop_lt (hq : qhat ≤ B) {n i c b : Nat} {w : List Word} (hc : c < B) :
    (mulSubLoop qhat vn 0 n i w c b).2.1 < B := by
  induction n generalizing i w c b with
  | zero => exact hc
  | succ n ih =>
    have hdigit := digit_lt vn i
    exact ih (Nat.div_lt_of_lt_mul (by nlinarith))

theorem borrow_mulSubLoop_le {n i c b : Nat} {w : List Word} (hb : b ≤ 1) :
    (mulSubLoop qhat vn 0 n i w c b).2.2 ≤ 1 := by
  induction n generalizing i w c b with
  | zero => exact hb
  | succ n ih => exact ih (by split <;> omega)

/-- From word `i` on, the loop takes `qhat` times the divisor's words from `i` on, the carry and the
borrow from the window, counting the carry and the borrow out of it. -/
theorem val_mulSubLoop {n i c b : Nat} {w : List Word} (hb : b ≤ 1) (hv : vn.length ≤ i + n)
    (hw : i + n ≤ w.length) :
    val (mulSubLoop qhat vn 0 n i w c b).1 + B ^ i * (qhat * val (vn.drop i) + c + b) =
      val w + B ^ (i + n) *
        ((mulSubLoop qhat vn 0 n i w c b).2.1 + (mulSubLoop qhat vn 0 n i w c b).2.2) := by
  induction n generalizing i w c b with
  | zero => simp [mulSubLoop, List.drop_of_length_le (i := i) hv]
  | succ n ih =>
    rw [mulSubLoop, add_zero]
    set p := qhat * digit vn i + c with hp
    set t : Int := (digit w i : Int) - (p % B : Nat) - b with ht
    have hword := toNat_ofInt_sub (digit_lt w i) (p := p % B) (b := b)
      (by have := Nat.mod_lt p (show 0 < B by norm_num); omega)
    rw [← ht] at hword
    have hset := val_set (p := w) (i := i) (BitVec.ofInt 32 t) (by omega)
    have hrest := ih (i := i + 1) (w := w.set i (BitVec.ofInt 32 t)) (c := p / B)
      (b := if t < 0 then 1 else 0) (by split <;> omega) (by omega) (by rw [List.length_set]; omega)
    rw [show i + (n + 1) = i + 1 + n by omega, val_drop vn i]
    rw [pow_succ] at hrest
    linear_combination hrest + hset + B ^ i * (hword - hp - Nat.mod_add_div p B)

/-- The step takes `qhat` times the divisor from the window, with a borrow out where that is negative. -/
theorem val_mulSub (hq : qhat ≤ B) {w : List Word} (hw : w.length = vn.length + 1) :
    val (mulSub qhat w vn 0).1 + qhat * val vn =
      val w + B ^ (vn.length + 1) * (mulSub qhat w vn 0).2 := by
  have hloop := val_mulSubLoop (qhat := qhat) (vn := vn) (n := vn.length) (i := 0) (c := 0) (b := 0)
    (w := w) (by omega) (by omega) (by omega)
  have hcarry := carry_mulSubLoop_lt hq (vn := vn) (n := vn.length) (i := 0) (c := 0) (b := 0) (w := w)
    (by norm_num)
  have hborrow := borrow_mulSubLoop_le (qhat := qhat) (vn := vn) (n := vn.length) (i := 0) (c := 0)
    (b := 0) (w := w) (by omega)
  have hlen := length_mulSubLoop qhat vn 0 vn.length 0 w 0 0
  rw [mulSub]
  set r := mulSubLoop qhat vn 0 vn.length 0 w 0 0
  have hword := toNat_ofInt_sub (digit_lt r.1 vn.length) (p := r.2.1) (b := r.2.2) (by omega)
  have hset := val_set (p := r.1) (i := vn.length)
    (BitVec.ofInt 32 ((digit r.1 vn.length : Int) - r.2.1 - r.2.2)) (by omega)
  simp only [Nat.zero_add, pow_zero, one_mul, List.drop_zero, add_zero] at hloop ⊢
  rw [pow_succ]
  linear_combination hloop + hset + B ^ vn.length * hword

end MulSub

theorem borrow_mulSub_le (qhat : Nat) (un vn : List Word) (j : Nat) : (mulSub qhat un vn j).2 ≤ 1 := by
  rw [mulSub]
  dsimp only
  split <;> omega

/-! ### Add back (R148) -/

/-- From word `i` on, the loop adds the divisor's words from `i` on and the carry to the window,
counting the carry out of it. -/
theorem val_addBackLoop {n i c : Nat} {w vn : List Word} (hv : vn.length ≤ i + n)
    (hw : i + n ≤ w.length) :
    val (addBackLoop vn 0 n i w c).1 + B ^ (i + n) * (addBackLoop vn 0 n i w c).2 =
      val w + B ^ i * (val (vn.drop i) + c) := by
  induction n generalizing i w c with
  | zero => simp [addBackLoop, List.drop_of_length_le (i := i) hv]
  | succ n ih =>
    rw [addBackLoop, add_zero]
    set t := digit w i + digit vn i + c with ht
    have hset := val_set (p := w) (i := i) (BitVec.ofNat 32 (t % B)) (by omega)
    have hrest := ih (i := i + 1) (w := w.set i (BitVec.ofNat 32 (t % B))) (c := t / B) (by omega)
      (by rw [List.length_set]; omega)
    rw [BitVec.toNat_ofNat, ← base_eq_two_pow, Nat.mod_mod] at hset
    rw [show i + (n + 1) = i + 1 + n by omega, hrest, val_drop vn i, pow_succ]
    linear_combination hset + B ^ i * (Nat.mod_add_div t B + ht)

/-- The step adds the divisor to the window, without the carry out of it. -/
theorem val_addBack {w vn : List Word} (hw : w.length = vn.length + 1) :
    val (addBack w vn 0) = (val w + val vn) % B ^ (vn.length + 1) := by
  have hloop := val_addBackLoop (vn := vn) (n := vn.length) (i := 0) (c := 0) (w := w) (by omega)
    (by omega)
  have hlen := length_addBackLoop vn 0 vn.length 0 w 0
  have hlt := val_lt (addBack w vn 0)
  rw [length_addBack, hw] at hlt
  rw [← Nat.mod_eq_of_lt hlt, addBack]
  set r := addBackLoop vn 0 vn.length 0 w 0
  set t := digit r.1 vn.length + r.2 with ht
  have hset := val_set (p := r.1) (i := vn.length) (BitVec.ofNat 32 (t % B)) (by omega)
  rw [BitVec.toNat_ofNat, ← base_eq_two_pow, Nat.mod_mod] at hset
  simp only [Nat.zero_add, pow_zero, one_mul, List.drop_zero, add_zero] at hloop ⊢
  have hsum : val (r.1.set vn.length (BitVec.ofNat 32 (t % B))) + B ^ (vn.length + 1) * (t / B) =
      val w + val vn := by
    rw [pow_succ]
    linear_combination hset + hloop + B ^ vn.length * (Nat.mod_add_div t B + ht)
  rw [← hsum, Nat.add_mul_mod_self_left]

/-! ### One digit (R145 to R148) -/

section OneDigit

variable {w vn : List Word} (hw : w.length = vn.length + 1)

include hw

theorem val_mulSub_lt (qhat : Nat) : val (mulSub qhat w vn 0).1 < B ^ (vn.length + 1) := by
  rw [← hw, ← length_mulSub qhat w vn 0]
  exact val_lt _

/-- With the true digit nothing is borrowed, and the window holds the remainder. -/
theorem knuthStep_of_trial_exact (hq : val w / val vn ≤ B)
    (htrial : trialDigit w vn 0 = val w / val vn) :
    (knuthStep w vn 0).2 = val w / val vn ∧ val (knuthStep w vn 0).1 = val w % val vn := by
  have hdiv := Nat.div_add_mod' (val w) (val vn)
  have hms := val_mulSub hq hw
  have hlt := val_mulSub_lt hw (val w / val vn)
  have hle := borrow_mulSub_le (val w / val vn) w vn 0
  have hborrow : (mulSub (val w / val vn) w vn 0).2 = 0 := by
    by_contra hne
    rw [show (mulSub (val w / val vn) w vn 0).2 = 1 by omega] at hms
    omega
  rw [hborrow] at hms
  rw [knuthStep, htrial, if_neg (by omega)]
  exact ⟨rfl, by dsimp only; omega⟩

/-- With a digit one too large the window turns negative, which the borrow tells, and adding one divisor
back leaves the remainder. -/
theorem knuthStep_of_trial_succ (hv : 0 < val vn) (hq : val w / val vn + 1 ≤ B)
    (htrial : trialDigit w vn 0 = val w / val vn + 1) :
    (knuthStep w vn 0).2 = val w / val vn ∧ val (knuthStep w vn 0).1 = val w % val vn := by
  have hdiv := Nat.div_add_mod' (val w) (val vn)
  have hmod := Nat.mod_lt (val w) hv
  have hdivisor : val vn < B ^ (vn.length + 1) :=
    (val_lt vn).trans_le (Nat.pow_le_pow_right (by norm_num) (by omega))
  have hms := val_mulSub hq hw
  have hle := borrow_mulSub_le (val w / val vn + 1) w vn 0
  rw [add_one_mul] at hms
  have hborrow : (mulSub (val w / val vn + 1) w vn 0).2 = 1 := by
    by_contra hne
    rw [show (mulSub (val w / val vn + 1) w vn 0).2 = 0 by omega] at hms
    omega
  have hsum : val (mulSub (val w / val vn + 1) w vn 0).1 + val vn =
      val w % val vn + B ^ (vn.length + 1) := by
    rw [hborrow] at hms
    omega
  rw [knuthStep, htrial, if_pos hborrow]
  refine ⟨rfl, ?_⟩
  dsimp only
  rw [val_addBack (by rw [length_mulSub, hw]), hsum, Nat.add_mod_right,
    Nat.mod_eq_of_lt (hmod.trans hdivisor)]

/-- On a window below `B` times the normalized divisor the step gives the true digit and leaves the
remainder. -/
theorem knuthStep_divides (hv : 2 ≤ vn.length) (htop : 2 ^ 31 ≤ digit vn (vn.length - 1))
    (hbelow : val w < val vn * B) :
    (knuthStep w vn 0).2 = val w / val vn ∧ val (knuthStep w vn 0).1 = val w % val vn := by
  have hquot : val w / val vn < B := Nat.div_lt_of_lt_mul hbelow
  obtain ⟨hge, hle⟩ := trialDigit_bounds hw hv htop hbelow
  rcases hge.eq_or_lt with hexact | hlarge
  · exact knuthStep_of_trial_exact hw hquot.le hexact.symm
  · exact knuthStep_of_trial_succ hw (Nat.pos_of_mul_pos_right hbelow.pos) hquot (by omega)

end OneDigit

/-! ### The step on the running remainder (R145 to R148) -/

/-- The window `un[j..j+lv]` of the running remainder (R145). -/
def window (un vn : List Word) (j : Nat) : List Word := (un.drop j).take (vn.length + 1)

@[simp] theorem length_knuthStep (un vn : List Word) (j : Nat) :
    (knuthStep un vn j).1.length = un.length := by
  rw [knuthStep]
  split_ifs <;> simp

section RunningRemainder

variable {un vn : List Word} {j : Nat} (hv : 2 ≤ vn.length) (hj : j + vn.length < un.length)

theorem append_window (un vn : List Word) (j : Nat) :
    un.take j ++ (window un vn j ++ (un.drop j).drop (vn.length + 1)) = un := by
  rw [window, List.take_append_drop, List.take_append_drop]

include hj

theorem length_window : (window un vn j).length = vn.length + 1 := by
  rw [window, List.length_take, List.length_drop]
  omega

theorem length_take_window : (un.take j).length = j := List.length_take_of_le (by omega)

include hv

theorem trialDigit_eq_window : trialDigit un vn j = trialDigit (window un vn j) vn 0 := by
  have h := trialDigit_window (un.take j) ((un.drop j).drop (vn.length + 1)) (length_window hj) hv
  rwa [append_window, length_take_window hj] at h

/-- The step replaces the window and leaves the words below and above it. -/
theorem knuthStep_eq_window : knuthStep un vn j = (un.take j ++ ((knuthStep (window un vn j) vn 0).1 ++
    (un.drop j).drop (vn.length + 1)), (knuthStep (window un vn j) vn 0).2) := by
  have h := knuthStep_window (un.take j) ((un.drop j).drop (vn.length + 1)) (length_window hj) hv
  rwa [append_window, length_take_window hj] at h

theorem window_knuthStep :
    window (knuthStep un vn j).1 vn j = (knuthStep (window un vn j) vn 0).1 := by
  rw [knuthStep_eq_window hv hj, window, List.drop_left' (length_take_window hj),
    List.take_left' (by rw [length_knuthStep, length_window hj])]

end RunningRemainder

/-- Settles O52: the step looks at its window only, and there the trial digit is the true one or one too
large. -/
theorem trialDigitIsAtMostOneTooLarge : Obligations.TrialDigitIsAtMostOneTooLarge := by
  intro un vn j hv hj htop _ hbelow
  obtain ⟨hge, hle⟩ := trialDigit_bounds (length_window hj) hv htop hbelow
  obtain ⟨hquot, hrest⟩ := knuthStep_divides (length_window hj) hv htop hbelow
  rw [← trialDigit_eq_window hv hj] at hge hle
  refine ⟨hge, hle, ?_, ?_⟩
  · rw [knuthStep_eq_window hv hj]
    exact hquot
  · exact (congrArg val (window_knuthStep hv hj)).trans hrest

end Sys2Proof.Machine
end

section
/-!
PROOFS. The long division as a whole (42_divide.md R141, R142, R144 to R149, R156): Algorithm D digit by
digit on normalized operands, the fast paths, and the divider on values.
-/

namespace Sys2Proof.Machine

/-! ### Low and high words -/

theorem val_take_add_drop (m : List Word) (n : Nat) :
    val m = val (m.take n) + B ^ n * val (m.drop n) := by
  rcases le_total n m.length with h | h
  · conv_lhs => rw [← List.take_append_drop n m]
    rw [val_append, List.length_take_of_le h]
  · rw [List.take_of_length_le h, List.drop_of_length_le h, val_nil, mul_zero, add_zero]

/-- A magnitude below the weight of word `n` has only zero words from there on. -/
theorem val_drop_eq_zero {m : List Word} {n : Nat} (h : val m < B ^ n) : val (m.drop n) = 0 := by
  have hsplit := val_take_add_drop m n
  by_contra hne
  have := Nat.le_mul_of_pos_right (B ^ n) (Nat.pos_of_ne_zero hne)
  omega

theorem val_take_of_lt {m : List Word} {n : Nat} (h : val m < B ^ n) : val (m.take n) = val m := by
  have hsplit := val_take_add_drop m n
  rwa [val_drop_eq_zero h, mul_zero, add_zero, eq_comm] at hsplit

/-! ### The digits from the most significant down (R145 to R148) -/

theorem length_knuthLoop (vn : List Word) (n : Nat) (un : List Word) :
    (knuthLoop vn n un).2.length = n := by
  induction n generalizing un with
  | zero => rfl
  | succ n ih => simp [knuthLoop, ih]

section Loop

variable {vn : List Word} (hv : 2 ≤ vn.length) (htop : 2 ^ 31 ≤ digit vn (vn.length - 1))

include hv htop

/-- Where the words above index `j` are below the divisor, one digit takes its multiple of the divisor
from the running remainder, and then the words from `j` on are below the divisor (R145, R148). -/
theorem knuthStep_keeps {un : List Word} {j : Nat} (hj : j + vn.length < un.length)
    (hbelow : val (un.drop (j + 1)) < val vn) :
    (knuthStep un vn j).2 < B ∧ val ((knuthStep un vn j).1.drop j) < val vn ∧
      val un = val (knuthStep un vn j).1 + val vn * (B ^ j * (knuthStep un vn j).2) := by
  have hhigh : val (un.drop j) < val vn * B := by
    have hdigit := digit_lt un j
    rw [val_drop un j]
    rw [base_eq] at *
    omega
  have hfits : val (un.drop j) < B ^ (vn.length + 1) :=
    hhigh.trans (Nat.mul_lt_mul_of_pos_right (val_lt vn) (by norm_num))
  have habove : val ((un.drop j).drop (vn.length + 1)) = 0 := val_drop_eq_zero hfits
  have hwin : val (window un vn j) < val vn * B := (val_take_of_lt hfits).trans_lt hhigh
  obtain ⟨hquot, hrest⟩ := knuthStep_divides (length_window hj) hv htop hwin
  have hparts (l : List Word) : val (un.take j ++ (l ++ (un.drop j).drop (vn.length + 1))) =
      val (un.take j) + B ^ j * val l := by
    rw [val_append, val_append, habove, mul_zero, add_zero, length_take_window hj]
  have hun := hparts (window un vn j)
  rw [append_window] at hun
  rw [knuthStep_eq_window hv hj]
  dsimp only
  refine ⟨?_, ?_, ?_⟩
  · rw [hquot]
    exact Nat.div_lt_of_lt_mul hwin
  · rw [List.drop_left' (length_take_window hj), val_append, habove, mul_zero, add_zero, hrest]
    exact Nat.mod_lt _ (Nat.pos_of_mul_pos_right hwin.pos)
  · rw [hun, hparts, hquot, hrest]
    linear_combination B ^ j * (Nat.mod_add_div (val (window un vn j)) (val vn)).symm

/-- The digits below index `n` divide a running remainder whose words from `n` on are below the
divisor. -/
theorem knuthLoop_divides {un : List Word} {n : Nat} (hn : n + vn.length ≤ un.length)
    (hbelow : val (un.drop n) < val vn) :
    val (knuthLoop vn n un).1 = val un % val vn ∧ val (knuthLoop vn n un).2 = val un / val vn := by
  induction n generalizing un with
  | zero =>
    rw [List.drop_zero] at hbelow
    rw [Nat.mod_eq_of_lt hbelow, Nat.div_eq_of_lt hbelow]
    exact ⟨rfl, rfl⟩
  | succ j ih =>
    obtain ⟨hdigit, hrest, hsum⟩ := knuthStep_keeps hv htop (by omega) hbelow
    obtain ⟨hmod, hquot⟩ := ih (by rw [length_knuthStep]; omega) hrest
    rw [knuthLoop, hsum, Nat.add_mul_mod_self_left, Nat.add_mul_div_left _ _ hbelow.pos]
    dsimp only
    rw [val_append_ofNat _ hdigit, length_knuthLoop, hquot]
    exact ⟨hmod, rfl⟩

end Loop

/-! ### Normalizing (R144) -/

theorem clz32_le (w : Word) : clz32 w ≤ 32 := by rw [clz32]; omega

/-- Shifted by its leading zeros, a nonzero word has its top bit set and still fits. -/
theorem clz32_normalizes {w : Word} (hw : w.toNat ≠ 0) :
    2 ^ 31 ≤ w.toNat * 2 ^ clz32 w ∧ (w.toNat + 1) * 2 ^ clz32 w ≤ B := by
  have hlog : w.toNat.log2 < 32 := (Nat.log2_lt hw).mpr w.isLt
  have hclz : clz32 w = 31 - w.toNat.log2 := by rw [clz32, bitlen, if_neg hw]; omega
  rw [hclz, base_eq_two_pow]
  constructor
  · calc 2 ^ 31 = 2 ^ w.toNat.log2 * 2 ^ (31 - w.toNat.log2) := by
          rw [← pow_add, Nat.add_sub_cancel' (by omega)]
      _ ≤ _ := Nat.mul_le_mul_right _ (Nat.log2_self_le hw)
  · calc (w.toNat + 1) * 2 ^ (31 - w.toNat.log2)
        ≤ 2 ^ (w.toNat.log2 + 1) * 2 ^ (31 - w.toNat.log2) :=
          Nat.mul_le_mul_right _ (Nat.lt_log2_self (n := w.toNat))
      _ = 2 ^ 32 := by rw [← pow_add]; congr 1; omega

theorem val_shl {m : List Word} {s n : Nat} (h : val m * 2 ^ s < B ^ n) :
    val (shl m s n) = val m * 2 ^ s := by
  rw [shl, val_wordsN, Nat.mod_eq_of_lt h]

@[simp] theorem length_shl (m : List Word) (s n : Nat) : (shl m s n).length = n := by
  rw [shl, length_wordsN]

/-- Shifted by the leading zeros of its top word, a divisor loses no bit and is normalized. -/
theorem shl_divisor {v : List Word} (hv : canonical v = true) (hlv : 2 ≤ v.length) {s : Nat}
    (hs : s = clz32 (v.getD (v.length - 1) 0)) :
    val (shl v s v.length) = val v * 2 ^ s ∧ 2 ^ 31 ≤ digit (shl v s v.length) (v.length - 1) := by
  obtain ⟨k, hk⟩ := Nat.exists_eq_add_of_le' (show 1 ≤ v.length by omega)
  have htop := val_take_succ v k
  have hlow := val_take_lt v k
  have hge := base_pow_le_val hv hlv
  rw [List.take_of_length_le hk.le] at htop
  rw [hk, Nat.add_sub_cancel] at hge hs ⊢
  have hne : digit v k ≠ 0 := fun h => by rw [h] at htop; omega
  obtain ⟨hbit, hfit⟩ : 2 ^ 31 ≤ digit v k * 2 ^ s ∧ (digit v k + 1) * 2 ^ s ≤ B := by
    rw [hs]
    exact clz32_normalizes hne
  have hval : val (shl v s (k + 1)) = val v * 2 ^ s := by
    refine val_shl ?_
    calc val v * 2 ^ s < B ^ k * (digit v k + 1) * 2 ^ s := by
          gcongr; rw [htop, mul_add_one]; omega
      _ = B ^ k * ((digit v k + 1) * 2 ^ s) := mul_assoc _ _ _
      _ ≤ B ^ (k + 1) := Nat.mul_le_mul_left _ hfit
  refine ⟨hval, Nat.lt_succ_iff.mp (Nat.lt_of_mul_lt_mul_left (a := B ^ k) ?_)⟩
  have hshl := val_take_succ (shl v s (k + 1)) k
  have hshllow := val_take_lt (shl v s (k + 1)) k
  rw [List.take_of_length_le (by rw [length_shl])] at hshl
  calc B ^ k * 2 ^ 31 ≤ B ^ k * (digit v k * 2 ^ s) := Nat.mul_le_mul_left _ hbit
    _ ≤ val v * 2 ^ s := by rw [← mul_assoc]; gcongr; omega
    _ = val (shl v s (k + 1)) := hval.symm
    _ < B ^ k * (digit (shl v s (k + 1)) k + 1) := by rw [hshl, mul_add_one]; omega

/-- The dividend has one word more for the bits shifted out of its top word. -/
theorem val_shl_dividend (u : List Word) {s : Nat} (hs : s ≤ 32) :
    val (shl u s (u.length + 1)) = val u * 2 ^ s := by
  refine val_shl (Nat.mul_lt_mul_of_lt_of_le (val_lt u) ?_ (by positivity))
  exact base_eq_two_pow ▸ Nat.pow_le_pow_right (by norm_num) hs

/-- Before the first digit the words above its window are below the divisor (R145). -/
theorem val_drop_shl_dividend_lt {u v : List Word} (hv : canonical v = true) (hlv : 2 ≤ v.length)
    (hlen : v.length ≤ u.length) {s : Nat} (hs : s ≤ 32) :
    val ((shl u s (u.length + 1)).drop (u.length - v.length + 1)) < val v * 2 ^ s := by
  have hsplit := val_take_add_drop (shl u s (u.length + 1)) (u.length - v.length + 1)
  rw [val_shl_dividend u hs] at hsplit
  refine Nat.lt_of_mul_lt_mul_left (a := B ^ (u.length - v.length + 1)) ?_
  calc B ^ (u.length - v.length + 1) * _ ≤ val u * 2 ^ s := hsplit ▸ Nat.le_add_left _ _
    _ < B ^ u.length * 2 ^ s := Nat.mul_lt_mul_of_pos_right (val_lt u) (by positivity)
    _ = B ^ (u.length - v.length + 1) * (B ^ (v.length - 1) * 2 ^ s) := by
      rw [← mul_assoc, ← pow_add]
      congr 2
      omega
    _ ≤ _ := Nat.mul_le_mul_left _ (Nat.mul_le_mul_right _ (base_pow_le_val hv hlv))

/-! ### Algorithm D (R144 to R149) -/

/-- Algorithm D divides: both operands are shifted alike, so the quotient is theirs and the remainder is
shifted back (R144, R149). -/
theorem knuthD_eq_words {u v : List Word} (hv : canonical v = true) (hlv : 2 ≤ v.length)
    (hlen : v.length ≤ u.length) :
    knuthD u v = (words (val u / val v), words (val u % val v)) := by
  rw [knuthD]
  set s := clz32 (v.getD (v.length - 1) 0) with hs
  have hs32 : s ≤ 32 := clz32_le _
  have hpow : 0 < 2 ^ s := by positivity
  obtain ⟨hvalv, htop⟩ := shl_divisor hv hlv hs
  have hlvn := length_shl v s v.length
  have hlun := length_shl u s (u.length + 1)
  set vn := shl v s v.length
  have hbelow := val_drop_shl_dividend_lt hv hlv hlen hs32
  rw [← hvalv] at hbelow
  obtain ⟨hmod, hquot⟩ := knuthLoop_divides (hlvn.symm ▸ hlv) (hlvn.symm ▸ htop)
    (by omega) hbelow
  set r := knuthLoop vn (u.length - v.length + 1) (shl u s (u.length + 1)) with hr
  have hne : r.2 ≠ [] := by
    rw [← List.length_pos_iff, hr, length_knuthLoop]
    omega
  have hfits : val r.1 < B ^ v.length := by
    rw [hmod, ← hlvn]
    exact (Nat.mod_lt _ hbelow.pos).trans (val_lt vn)
  rw [trim_eq_words hne, shr, val_take_of_lt hfits, hquot, hmod, val_shl_dividend u hs32, hvalv,
    Nat.mul_div_mul_right _ _ hpow, Nat.mul_mod_mul_right, Nat.mul_div_cancel _ hpow]

/-! ### The divider (R141, R142, R156) -/

theorem sgn_sub_eq_neg_iff {x y : Int} : sgn (x - y) = .neg ↔ x < y := by
  rw [sgn]
  split_ifs <;> simp <;> omega

theorem divmag_eq_words {u v : List Word} (hu : canonical u = true) (hv : canonical v = true)
    (hv0 : val v ≠ 0) : divmag u v = (words (val u / val v), words (val u % val v)) := by
  rw [divmag, cmpmag_eq_sgn hu hv]
  split_ifs with hlt hone
  · have hval := sgn_sub_eq_neg_iff.mp hlt
    rw [Int.ofNat_lt] at hval
    rw [Nat.div_eq_of_lt hval, Nat.mod_eq_of_lt hval, words_val hu, (words_eq_zero_iff 0).mpr rfl]
  · obtain ⟨d, rfl⟩ := List.length_eq_one_iff.mp hone
    have hvd : val [d] = d.toNat := by simp
    have hd : d ≠ 0 := fun h => hv0 (by rw [hvd, h]; rfl)
    rw [hvd]
    exact divword_eq_words (canonical_iff.mp hu).1 hd
  · have hpos := length_pos_of_canonical hv
    refine knuthD_eq_words hv (by omega) (not_lt.mp fun hshort => hlt (sgn_sub_eq_neg_iff.mpr ?_))
    exact Int.ofNat_lt.mpr (val_lt_of_length_lt hu hv hshort)

/-- A magnitude under a sign that is zero for zero only is a value. -/

theorem signedMag_words {c : Sign} {n : Nat} (hc : c = .zero → n = 0) :
    signedMag c (words n) = mkValue (c.toInt * (n : Int)) := by
  rw [signedMag]
  split_ifs with hn <;> rw [words_eq_zero_iff] at hn
  · rw [hn, Nat.cast_zero, mul_zero, mkValue_zero]
  · rw [mkValue_toInt_mul (iff_of_false (fun h => hn (hc h)) hn)]

theorem divSm_eq_mkValue {u v : Value} (hu : u.wf = true) (hv : v.wf = true) (hv0 : v.int ≠ 0) :
    divSm u v = (mkValue (u.int.tdiv v.int), mkValue (u.int.tmod v.int)) := by
  obtain ⟨hcu, hzu⟩ := Value.wf_iff.mp hu
  obtain ⟨hcv, hzv⟩ := Value.wf_iff.mp hv
  have hsv : v.sign ≠ .zero := (Value.sign_eq_zero_iff hv).not.mpr hv0
  have hquot (h : u.sign.times v.sign = .zero) : val u.mag / val v.mag = 0 := by
    rw [hzu.mp (not_not.mp fun hsu => Sign.times_ne_zero hsu hsv h), Nat.zero_div]
  have hmod (h : u.sign = .zero) : val u.mag % val v.mag = 0 := by rw [hzu.mp h, Nat.zero_mod]
  rw [divSm, divmag_eq_words hcu hcv (hzv.not.mp hsv)]
  dsimp only
  rw [signedMag_words hquot, signedMag_words hmod, Value.int, Value.int, tdiv_toInt_mul,
    tmod_toInt_mul _ hsv, Sign.toInt_times]

/-- Settles O53: each path of the divider gives the quotient and remainder of the magnitudes, and the
signs go through truncating division. -/
theorem longDivisionDivides : Obligations.LongDivisionDivides :=
  ⟨fun _ _ => divmag_eq_words, fun _ _ => divSm_eq_mkValue⟩

end Sys2Proof.Machine
end

section
/-!
PROOFS. The modular inverse (44_modexp.md R190, R192): the Euclidean loop ends at the greatest common
divisor with its cofactor, so the inverse is found exactly where there is one.
-/

namespace Sys2Proof.Machine

/-- The loop keeps each remainder congruent to its cofactor times the operand, and ends at the greatest
common divisor: the second remainder strictly decreases. -/
theorem euclid_gcd {n : Nat} {a m r0 r1 t0 t1 : Int} (hr0 : 0 ≤ r0) (hr1 : 0 ≤ r1) (hn : r1 < n)
    (ht0 : a * t0 ≡ r0 [ZMOD m]) (ht1 : a * t1 ≡ r1 [ZMOD m]) :
    (euclid n r0 r1 t0 t1).1 = r0.gcd r1 ∧
      a * (euclid n r0 r1 t0 t1).2 ≡ (euclid n r0 r1 t0 t1).1 [ZMOD m] := by
  induction n generalizing r0 r1 t0 t1 with
  | zero => omega
  | succ n ih =>
    rw [euclid]
    split_ifs with hz
    · rw [hz, Int.gcd_zero_right]
      exact ⟨(Int.natAbs_of_nonneg hr0).symm, ht0⟩
    · have hpos : 0 < r1 := lt_of_le_of_ne hr1 (Ne.symm hz)
      have hmod : (divrem r0 r1).2 = r0 % r1 := Int.tmod_eq_emod_of_nonneg hr0
      have hlt := Int.emod_lt_of_pos r0 hpos
      have hcofactor : a * (t0 - (divrem r0 r1).1 * t1) ≡ (divrem r0 r1).2 [ZMOD m] := by
        obtain ⟨hsum, -, -⟩ := isDivRem_divrem r0 hz
        have h := ht0.sub (ht1.mul_left (divrem r0 r1).1)
        rw [show r0 - (divrem r0 r1).1 * r1 = (divrem r0 r1).2 by omega] at h
        rwa [show a * (t0 - (divrem r0 r1).1 * t1) = a * t0 - (divrem r0 r1).1 * (a * t1) by ring]
      have hgcd : (divrem r0 r1).2.gcd r1 = r0.gcd r1 := by rw [hmod, Int.gcd_emod]
      rw [← hgcd, Int.gcd_comm]
      exact ih hr1 (hmod ▸ Int.emod_nonneg r0 hz) (by omega) ht1 hcofactor

theorem modulo_modEq (x : Int) {m : Int} (hm : 0 < m) : modulo x m ≡ x [ZMOD m] := by
  rw [modulo_eq_emod x hm]
  exact Int.mod_modEq x m

/-- What the loop of R192 ends with, for the operand reduced by the modulus. -/
theorem euclid_modulo (a : Int) {m : Int} (hm : 0 < m) :
    (euclid (m.toNat + 1) m (modulo a m) 0 1).1 = a.gcd m ∧
      a * (euclid (m.toNat + 1) m (modulo a m) 0 1).2 ≡ a.gcd m [ZMOD m] := by
  obtain ⟨hnonneg, hlt, -⟩ := isResidue_modulo a hm
  have hzero : a * 0 ≡ m [ZMOD m] := by
    rw [mul_zero]
    exact (Int.emod_self (a := m)).symm
  have hone : a * 1 ≡ modulo a m [ZMOD m] := by
    rw [mul_one]
    exact (modulo_modEq a hm).symm
  have hgcd : m.gcd (modulo a m) = a.gcd m := by
    rw [modulo_eq_emod a hm, Int.gcd_comm, Int.gcd_emod]
  have h := euclid_gcd (n := m.toNat + 1) hm.le hnonneg (by omega) hzero hone
  rw [hgcd] at h
  exact ⟨h.1, h.1 ▸ h.2⟩

/-- The inverse fails exactly for the modulus 1 and for an operand with a factor in common with the
modulus (R190). -/
theorem modinv_eq_none_iff (a : Int) {m : Int} (hm : 0 < m) :
    modinv a m = none ↔ a.gcd m ≠ 1 ∨ m = 1 := by
  obtain ⟨hgcd, -⟩ := euclid_modulo a hm
  rw [modinv]
  split_ifs with h <;> rw [hgcd, Nat.cast_ne_one] at h <;> simp [h]

/-- What `modinv` finds is the inverse (R190). -/
theorem isInverse_of_modinv {a m z : Int} (hm : 0 < m) (h : modinv a m = some z) :
    IsInverse z a m := by
  have hfound := (modinv_eq_none_iff a hm).not.mp (by rw [h]; exact Option.some_ne_none z)
  obtain ⟨hcoprime, hne⟩ := not_or.mp hfound
  obtain ⟨hgcd, hcofactor⟩ := euclid_modulo a hm
  rw [not_not.mp hcoprime] at hgcd hcofactor
  rw [modinv, if_neg (by rw [hgcd]; exact fun hc => hc.elim (· rfl) hne), Option.some_inj] at h
  obtain ⟨hnonneg, hlt, -⟩ := isResidue_modulo (euclid (m.toNat + 1) m (modulo a m) 0 1).2 hm
  have hinv := ((modulo_modEq _ hm).mul_left a).trans hcofactor
  rw [h] at hnonneg hlt hinv
  have hz : z ≠ 0 := by
    rintro rfl
    rw [mul_zero] at hinv
    exact hne (Int.eq_one_of_dvd_one hm.le (by simpa using hinv.dvd))
  exact ⟨by omega, by omega, hinv.symm.dvd⟩

end Sys2Proof.Machine
end

section
/-!
PROOFS. The Montgomery contracts (43_montgomery.md R170, R172, R173, R178): for an odd modulus the scale
has an inverse, so `monred` is the one residue whose product with the scale is the operand.
-/

namespace Sys2Proof.Machine

section OddModulus

variable {m : Int} (hm : 0 < m) (hodd : m % 2 = 1)

include hm hodd

/-- The scale is a power of two, so an odd modulus has no factor in common with it (R170). -/
theorem montR_gcd : (montR m).gcd m = 1 := by
  have htwo : Nat.Coprime 2 m.natAbs := Nat.coprime_two_left.mpr (Nat.odd_iff.mpr (by omega))
  rw [montR, Int.gcd, Int.natAbs_pow, Int.natAbs_natCast, base_pow]
  exact htwo.pow_left _

/-- `Rinv` is the inverse of the scale (R170), for the modulus 1 included. -/
theorem montR_mul_montRinv : montR m * montRinv m ≡ 1 [ZMOD m] := by
  rw [montRinv]
  rcases hinv : modinv (montR m) m with _ | z
  · rcases (modinv_eq_none_iff (montR m) hm).mp hinv with hgcd | rfl
    · exact absurd (montR_gcd hm hodd) hgcd
    · exact Int.modEq_one
  · obtain ⟨-, -, hdvd⟩ := isInverse_of_modinv hm hinv
    exact (Int.modEq_iff_dvd.mpr hdvd).symm

/-- `monred` undoes the scale (R172). -/
theorem monred_mul_montR (t : Int) : monred t m * montR m ≡ t [ZMOD m] := by
  rw [monred]
  calc modulo (t * montRinv m) m * montR m ≡ t * montRinv m * montR m [ZMOD m] :=
        (modulo_modEq _ hm).mul_right _
    _ = t * (montR m * montRinv m) := by ring
    _ ≡ t * 1 [ZMOD m] := (montR_mul_montRinv hm hodd).mul_left t
    _ = t := mul_one t

/-- Whatever the scale brings to the operand has the reduction as its residue (R172: `monred` is
unique). -/
theorem monred_eq_modulo {r t : Int} (h : r * montR m ≡ t [ZMOD m]) : monred t m = modulo r m := by
  rw [monred, modulo_eq_emod _ hm, modulo_eq_emod _ hm]
  calc t * montRinv m ≡ r * montR m * montRinv m [ZMOD m] := h.symm.mul_right _
    _ = r * (montR m * montRinv m) := mul_assoc _ _ _
    _ ≡ r * 1 [ZMOD m] := (montR_mul_montRinv hm hodd).mul_left r
    _ = r := mul_one r

/-- The reduction in the terms of the command statements: in `[0, m)`, and `m` divides the difference
(R172). -/
theorem monred_contract (t : Int) : 0 ≤ monred t m ∧ monred t m < m ∧
    m ∣ monred t m * (B : Int) ^ (words m.natAbs).length - t := by
  obtain ⟨hnonneg, hlt, -⟩ := isResidue_modulo (t * montRinv m) hm
  refine ⟨hnonneg, hlt, ?_⟩
  rw [length_words]
  exact (monred_mul_montR hm hodd t).symm.dvd

end OddModulus

/-- Settles O23: in each identity the scale brings the right side to what the left side reduces. -/
theorem montgomeryIdentities : Obligations.MontgomeryIdentities := by
  intro a b m hm hodd
  have hform (x : Int) : modulo (x * montR m) m ≡ x * montR m [ZMOD m] := modulo_modEq _ hm
  refine ⟨monred_eq_modulo hm hodd (hform a).symm, monred_eq_modulo hm hodd ?_,
    fun _ _ => by rw [monpro, mul_one], fun _ _ => monred_eq_modulo hm hodd ?_⟩
  · calc a * b * montR m * montR m = a * montR m * (b * montR m) := by ring
      _ ≡ _ [ZMOD m] := ((hform a).mul (hform b)).symm
  · calc a * montR m * montR m = a * (montR m * montR m) := mul_assoc _ _ _
      _ ≡ _ [ZMOD m] := ((hform (montR m)).mul_left a).symm

/-! ### The commands (R174 to R177) -/

theorem withOddModulus_of_nonpos {m : Int} (hm : m ≤ 0) (k : Computed) :
    withOddModulus m k = .error .modulus := if_pos hm

theorem withOddModulus_of_odd {m : Int} (hm : 0 < m) (hodd : m % 2 = 1) (k : Computed) :
    withOddModulus m k = k := by
  rw [withOddModulus, if_neg (not_le.mpr hm), isEven, decide_eq_false (by omega)]
  rfl

/-- An even modulus faults as an operand out of range does (R174). -/
theorem withOddModulus_range {m : Int} {out : Prop} [Decidable out] (hm : 0 < m)
    (h : m % 2 = 0 ∨ out) (k : Computed) :
    withOddModulus m (if out then .error .range else k) = .error .range := by
  rcases Int.emod_two_eq_zero_or_one m with heven | hodd
  · rw [withOddModulus, if_neg (not_le.mpr hm), isEven, decide_eq_true heven]
    rfl
  · rw [withOddModulus_of_odd hm hodd, if_pos (h.resolve_left (by omega))]

/-- How a command ends that computes one value by an odd modulus from operands that are not out of
range (R174, R91 steps 4 to 6). -/
theorem exec_montgomery {i : Instr} (hi : i.wf = true) {s : State} (he : s.err = none) {m z : Int}
    {d : RegId} {out : Prop} [Decidable out] (hx : exec i s = command i s
      (withOddModulus m (if out then .error .range else .ok (.value d z)))) :
    (m ≤ 0 → FaultsWith i s .modulus) ∧
    (0 < m → m % 2 = 0 ∨ out → FaultsWith i s .range) ∧
    (0 < m → m % 2 = 1 → ¬ out → z.natAbs < B ^ s.cfg.maxw → Completes i s [(d, z)]) := by
  refine ⟨fun hm => ?_, fun hm hout => ?_, fun hm hodd hin hz => ?_⟩
  · rw [withOddModulus_of_nonpos hm, command_error hi] at hx
    exact faultsWith_of_raise he hx
  · rw [withOddModulus_range hm hout, command_error hi] at hx
    exact faultsWith_of_raise he hx
  · rw [withOddModulus_of_odd hm hodd, if_neg hin] at hx
    exact completes_of_fits hi hx hz

/-- Settles O20: the product's reduction is below the modulus, so it fits. -/
theorem montmulWritesTheMontgomeryProduct : Obligations.MontmulWritesTheMontgomeryProduct := by
  intro s d a b k x y m hinv he ha hb hk
  have hx := exec_montmul d a b k s
  rw [withThree_of_some ha hb hk] at hx
  obtain ⟨hmodulus, hrange, hdone⟩ := exec_montgomery rfl he hx
  refine ⟨(Laws.OpcodeByte.montmul d a b k).1, hmodulus, hrange, fun hm hodd hx0 hxm hy0 hym => ?_⟩
  obtain ⟨hnonneg, hlt, hdvd⟩ := monred_contract hm hodd (x * y)
  exact ⟨_, hnonneg, hlt, hdvd, hdone hm hodd (by omega)
    ((natAbs_modulo_lt _ hm).trans (hinv.natAbs_lt hk))⟩

/-- Settles O21: the reduction is below the modulus, so it fits. -/
theorem montredLeavesMontgomeryForm : Obligations.MontredLeavesMontgomeryForm := by
  intro s d a k t m hinv he ha hk
  have hx := exec_montred d a k s
  rw [withTwo_of_some ha hk, montR, ← length_words] at hx
  obtain ⟨hmodulus, hrange, hdone⟩ := exec_montgomery rfl he hx
  refine ⟨(Laws.OpcodeByte.montred d a k).1, hmodulus, hrange, fun hm hodd ht0 htm => ?_⟩
  obtain ⟨hnonneg, hlt, hdvd⟩ := monred_contract hm hodd t
  exact ⟨_, hnonneg, hlt, hdvd, hdone hm hodd (by omega)
    ((natAbs_modulo_lt _ hm).trans (hinv.natAbs_lt hk))⟩

/-- Settles O22: no operand is out of range, and the residue is below the modulus, so it fits. -/
theorem montinEntersMontgomeryForm : Obligations.MontinEntersMontgomeryForm := by
  intro s d a k x m hinv he ha hk
  have hx : exec (.montin d a k) s = command (.montin d a k) s (withOddModulus m
      (if False then .error .range else .ok (.value d (modulo (x * montR m) m)))) := by
    rw [exec_montin, withTwo_of_some ha hk, if_false]
  obtain ⟨hmodulus, hrange, hdone⟩ := exec_montgomery rfl he hx
  refine ⟨(Laws.OpcodeByte.montin d a k).1, hmodulus, fun hm heven => hrange hm (.inl heven),
    fun hm hodd => ?_⟩
  rw [length_words]
  exact ⟨_, isResidue_modulo _ hm, hdone hm hodd not_false
    ((natAbs_modulo_lt _ hm).trans (hinv.natAbs_lt hk))⟩

end Sys2Proof.Machine
end

section
/-!
PROOFS. The word-serial Montgomery reduction (43_montgomery.md R171, R172): the Newton lifting squares
the error of the word inverse, each pass adds a multiple of the modulus that zeroes one more low word,
and what is left above the zeroed words is below twice the modulus.
-/

namespace Sys2Proof.Machine

/-! ### The word constant (R171) -/

/-- Each Newton step squares the error `1 - m0 * y`, modulo the base. -/
theorem newtonWord_error (m0 y : Int) (k : Nat) :
    1 - m0 * newtonWord m0 k y ≡ (1 - m0 * y) ^ 2 ^ k [ZMOD B] := by
  induction k generalizing y with
  | zero => rw [newtonWord, pow_zero, pow_one]
  | succ k ih =>
    have hstep : 1 - m0 * modulo (y * (2 - m0 * y)) B ≡ (1 - m0 * y) ^ 2 [ZMOD B] := by
      calc _ ≡ 1 - m0 * (y * (2 - m0 * y)) [ZMOD B] :=
            ((modulo_modEq _ (by norm_num)).mul_left m0).sub_left 1
        _ = (1 - m0 * y) ^ 2 := by ring
    rw [newtonWord, pow_succ', pow_mul]
    exact (ih _).trans (hstep.pow _)

/-- An odd word is its own inverse modulo 8, and four steps make that 48 bits (R171). -/
theorem newtonWord_inverts {m0 : Int} (h : m0 % 2 = 1) : m0 * newtonWord m0 4 m0 ≡ 1 [ZMOD B] := by
  have hself : 8 ∣ 1 - m0 * m0 := by
    rw [← dvd_neg, neg_sub, ← pow_two]
    exact Int.eight_dvd_sq_sub_one_of_odd (Int.odd_iff.mpr h)
  have hpow : (B : Int) ∣ (1 - m0 * m0) ^ 2 ^ 4 :=
    dvd_trans (by norm_num) (pow_dvd_pow_of_dvd hself (2 ^ 4))
  have hzero := (newtonWord_error m0 m0 4).trans (Int.modEq_zero_iff_dvd.mpr hpow)
  exact Int.modEq_iff_dvd.mpr (Int.modEq_zero_iff_dvd.mp hzero)

/-- Settles O54: the constant is the negated inverse that the Newton steps find. -/
theorem negInverseWord : Obligations.NegInverseWord := by
  intro m0 hodd
  have hinv := newtonWord_inverts (m0 := m0.toNat) (by omega)
  have hword : ((neginvword m0).toNat : Int) ≡ B - newtonWord m0.toNat 4 m0.toNat [ZMOD B] := by
    rw [neginvword, BitVec.toNat_ofInt, Int.toNat_of_nonneg (Int.emod_nonneg _ (by norm_num))]
    exact Int.mod_modEq _ _
  have hsum : ((m0.toNat * (neginvword m0).toNat + 1 : Nat) : Int) ≡ 0 [ZMOD B] := by
    push_cast
    calc (m0.toNat : Int) * (neginvword m0).toNat + 1
        ≡ m0.toNat * (B - newtonWord m0.toNat 4 m0.toNat) + 1 [ZMOD B] :=
          (hword.mul_left _).add_right 1
      _ = m0.toNat * B - m0.toNat * newtonWord m0.toNat 4 m0.toNat + 1 := by ring
      _ ≡ 0 - 1 + 1 [ZMOD B] :=
          ((Int.modEq_zero_iff_dvd.mpr (dvd_mul_left _ _)).sub hinv).add_right 1
      _ = 0 := by norm_num
  exact Nat.mod_eq_zero_of_dvd (Int.natCast_dvd_natCast.mp (Int.modEq_zero_iff_dvd.mp hsum))

/-! ### One pass (R172) -/

/-- The inner loop is the multiplier's row: it adds a word times the modulus into the accumulator. -/
theorem monredRow_eq_mulRow (u : Nat) (m : List Word) (i n j : Nat) (acc : List Word) (c : Nat) :
    monredRow u m i n j acc c = mulRow u m i n j acc c := by
  induction n generalizing j acc c with
  | zero => rfl
  | succ n ih => rw [monredRow, mulRow, ih]

@[simp] theorem length_rippleCarry (n k : Nat) (acc : List Word) (c : Nat) :
    (rippleCarry n k acc c).length = acc.length := by
  induction n generalizing k acc c with
  | zero => rfl
  | succ n ih =>
    rw [rippleCarry]
    split_ifs
    · rfl
    · rw [ih, List.length_set]

/-- Where the accumulator has room for the sum, the ripple adds the carry at word `k`. -/
theorem val_rippleCarry {n k c : Nat} {acc : List Word} (hlen : acc.length = k + n)
    (hroom : val acc + B ^ k * c < B ^ acc.length) :
    val (rippleCarry n k acc c) = val acc + B ^ k * c := by
  induction n generalizing k acc c with
  | zero =>
    rw [hlen, add_zero] at hroom
    have hc : c = 0 := by
      by_contra hne
      have := Nat.le_mul_of_pos_right (B ^ k) (Nat.pos_of_ne_zero hne)
      omega
    rw [rippleCarry, hc, mul_zero, add_zero]
  | succ n ih =>
    rw [rippleCarry]
    split_ifs with hc
    · rw [hc, mul_zero, add_zero]
    · set t := digit acc k + c with ht
      have hset := val_set (p := acc) (i := k) (BitVec.ofNat 32 (t % B)) (by omega)
      rw [BitVec.toNat_ofNat, ← base_eq_two_pow, Nat.mod_mod] at hset
      have hsum : val (acc.set k (BitVec.ofNat 32 (t % B))) + B ^ (k + 1) * (t / B) =
          val acc + B ^ k * c := by
        rw [pow_succ]
        linear_combination hset + B ^ k * (Nat.mod_add_div t B + ht)
      dsimp only
      rw [ih (by rw [List.length_set]; omega) (by rwa [hsum, List.length_set]), hsum]

/-- One pass of R172 at word `i`. -/
def monredPass (m : List Word) (n0 : Word) (i : Nat) (acc : List Word) : List Word :=
  let row := monredRow (digit acc i * n0.toNat % B) m i m.length 0 acc 0
  rippleCarry (acc.length - (i + m.length)) (i + m.length) row.1 row.2

theorem monredPasses_succ (m : List Word) (n0 : Word) (k i : Nat) (acc : List Word) :
    monredPasses m n0 (k + 1) i acc = monredPasses m n0 k (i + 1) (monredPass m n0 i acc) := rfl

@[simp] theorem length_monredPass (m : List Word) (n0 : Word) (i : Nat) (acc : List Word) :
    (monredPass m n0 i acc).length = acc.length := by
  rw [monredPass, length_rippleCarry, monredRow_eq_mulRow, length_mulRow]

/-- Where the accumulator has room for the sum, a pass adds its multiple of the modulus at word `i`. -/
theorem val_monredPass {m acc : List Word} {n0 : Word} {i : Nat} (hlen : i + m.length ≤ acc.length)
    (hroom : val acc + B ^ i * (digit acc i * n0.toNat % B * val m) < B ^ acc.length) :
    val (monredPass m n0 i acc) = val acc + B ^ i * (digit acc i * n0.toNat % B * val m) := by
  rw [monredPass, monredRow_eq_mulRow]
  set u := digit acc i * n0.toNat % B
  have hrow := val_mulRow (ai := u) (i := i) (n := m.length) (j := 0) (b := m) (p := acc) 0
    (Nat.le_add_left _ _) hlen
  have hrowlen := length_mulRow u m i m.length 0 acc 0
  simp only [add_zero, List.drop_zero] at hrow
  rw [val_rippleCarry (by omega) (by rwa [hrow, hrowlen]), hrow]

/-- A word of a number is its quotient by the word's weight, modulo the base. -/
theorem digit_eq_div_mod (m : List Word) (i : Nat) : digit m i = val m / B ^ i % B := by
  have hsplit := val_take_add_drop m i
  rw [hsplit, Nat.add_mul_div_left _ _ (by positivity), Nat.div_eq_of_lt (val_take_lt m i), zero_add,
    val_drop, Nat.add_mul_mod_self_left, Nat.mod_eq_of_lt (digit_lt m i)]

/-- The multiple of the modulus that a pass adds cancels the low word (R172: "chosen so that word `i`
is 0"). -/
theorem base_dvd_add_mul {m n0 : Nat} (hn0 : B ∣ m * n0 + 1) (q : Nat) :
    B ∣ q + q % B * n0 % B * m := by
  have hu : q % B * n0 % B ≡ q * n0 [MOD B] :=
    (Nat.mod_modEq _ B).trans ((Nat.mod_modEq q B).mul_right n0)
  have hsum : q + q % B * n0 % B * m ≡ q * (m * n0 + 1) [MOD B] := by
    calc q + q % B * n0 % B * m ≡ q + q * n0 * m [MOD B] := (hu.mul_right m).add_left q
      _ = q * (m * n0 + 1) := by ring
  exact (hsum.dvd_iff dvd_rfl).mpr (hn0.mul_left q)

/-! ### All passes (R172) -/

/-- From pass `i` on, with the words below `i` zero and room for what is still to be added, `k` passes
add a multiple of the modulus below `B^k` times it and leave the words below `i + k` zero. -/
theorem val_monredPasses {m acc : List Word} {n0 : Word} {k i : Nat}
    (hn0 : B ∣ val m * n0.toNat + 1) (hlen : i + k + m.length ≤ acc.length)
    (hzero : B ^ i ∣ val acc)
    (hroom : val acc + B ^ (i + k) * val m < B ^ acc.length + B ^ i * val m) :
    B ^ (i + k) ∣ val (monredPasses m n0 k i acc) ∧
      ∃ u < B ^ k, val (monredPasses m n0 k i acc) = val acc + B ^ i * (u * val m) := by
  induction k generalizing i acc with
  | zero => exact ⟨hzero, 0, by simp, by simp [monredPasses]⟩
  | succ k ih =>
    set u := digit acc i * n0.toNat % B with hu
    have hword : u < B := Nat.mod_lt _ (by norm_num)
    have hadd : B ^ i * (u * val m) + B ^ i * val m ≤ B ^ (i + 1) * val m := by
      rw [← mul_add, ← Nat.succ_mul, pow_succ, mul_assoc]
      gcongr
      exact hword
    have hmono : B ^ (i + 1) * val m ≤ B ^ (i + 1 + k) * val m :=
      Nat.mul_le_mul_right _ (Nat.pow_le_pow_right (by norm_num) (by omega))
    rw [show i + (k + 1) = i + 1 + k by omega] at hroom ⊢
    have hpass : val (monredPass m n0 i acc) = val acc + B ^ i * (u * val m) :=
      val_monredPass (by omega) (by rw [← hu]; omega)
    have hnext : B ^ (i + 1) ∣ val (monredPass m n0 i acc) := by
      obtain ⟨q, hq⟩ := hzero
      rw [digit_eq_div_mod, hq, Nat.mul_div_cancel_left _ (by positivity)] at hu
      rw [hpass, hq, hu, ← mul_add, pow_succ]
      exact Nat.mul_dvd_mul_left _ (base_dvd_add_mul hn0 q)
    obtain ⟨hdvd, v, hv, hval⟩ := ih (i := i + 1) (acc := monredPass m n0 i acc)
      (by rw [length_monredPass]; omega) hnext (by rw [hpass, length_monredPass]; omega)
    rw [monredPasses_succ]
    refine ⟨hdvd, u + B * v, ?_, ?_⟩
    · rw [pow_succ']
      have := Nat.mul_le_mul_left B hv
      rw [Nat.mul_succ] at this
      omega
    · rw [hval, hpass, pow_succ]
      ring

/-- The word constant of an odd modulus, for the modulus as a whole (R171). -/
theorem base_dvd_val_mul_neginvword {m : List Word} (hodd : val m % 2 = 1) :
    B ∣ val m * (neginvword (m.getD 0 0)).toNat + 1 := by
  have hlow : (m.getD 0 0).toNat = val m % B := by
    rw [← digit, digit_eq_div_mod, pow_zero, Nat.div_one]
  have hinv := negInverseWord (m.getD 0 0) (by rw [hlow, base_eq]; omega)
  rw [hlow] at hinv
  have hsum := ((Nat.mod_modEq (val m) B).mul_right (neginvword (m.getD 0 0)).toNat).add_right 1
  exact (hsum.dvd_iff dvd_rfl).mp (Nat.dvd_of_mod_eq_zero hinv)

/-- Where its words below `n` are zero, a magnitude is its words from `n` on, shifted. -/
theorem mul_val_drop_of_dvd {m : List Word} {n : Nat} (h : B ^ n ∣ val m) :
    B ^ n * val (m.drop n) = val m := by
  have hsplit := val_take_add_drop m n
  rw [hsplit] at h
  have hlow := Nat.eq_zero_of_dvd_of_lt ((Nat.dvd_add_left (dvd_mul_right _ _)).mp h)
    (val_take_lt m n)
  rw [hsplit, hlow, zero_add]

/-- What the passes leave above the zeroed words, times the scale, is the operand and a multiple of the
modulus by a number below the scale (R172). -/
theorem val_drop_monredPasses {m : List Word} {t : Nat} (hodd : val m % 2 = 1)
    (ht : t < val m * B ^ m.length) :
    ∃ u < B ^ m.length, B ^ m.length * val ((monredPasses m (neginvword (m.getD 0 0)) m.length 0
      (wordsN (2 * m.length + 1) t)).drop m.length) = t + u * val m := by
  have hm := val_lt m
  set n := m.length
  have hpow : B ^ (2 * n + 1) = B * (B ^ n * B ^ n) := by rw [pow_succ', two_mul, pow_add]
  have hroom : t + B ^ n * val m < B ^ (2 * n + 1) := by
    rw [hpow, base_eq] at *
    nlinarith
  have hacc : val (wordsN (2 * n + 1) t) = t := by
    rw [val_wordsN, Nat.mod_eq_of_lt (by omega)]
  obtain ⟨hdvd, u, hu, hval⟩ := val_monredPasses (base_dvd_val_mul_neginvword hodd)
    (acc := wordsN (2 * n + 1) t) (k := n) (i := 0) (by rw [length_wordsN]; omega) (by simp)
    (by rw [hacc, length_wordsN, zero_add]; omega)
  rw [zero_add] at hdvd
  exact ⟨u, hu, by rw [mul_val_drop_of_dvd hdvd, hval, hacc, pow_zero, one_mul]⟩

/-- The word-serial reduction is below the modulus, after at most one subtraction, and undoes the scale
(R172). -/
theorem monredWords_reduces {m : List Word} {t : Nat} (hodd : val m % 2 = 1)
    (ht : t < val m * B ^ m.length) :
    monredWords t m < val m ∧ monredWords t m * B ^ m.length ≡ t [MOD val m] := by
  obtain ⟨u, hu, hval⟩ := val_drop_monredPasses hodd ht
  rw [monredWords]
  set r := val ((monredPasses m (neginvword (m.getD 0 0)) m.length 0
    (wordsN (2 * m.length + 1) t)).drop m.length)
  have hbound : r < 2 * val m := by
    refine Nat.lt_of_mul_lt_mul_left (a := B ^ m.length) ?_
    calc B ^ m.length * r = t + u * val m := hval
      _ < val m * B ^ m.length + B ^ m.length * val m :=
        add_lt_add_of_lt_of_le ht (Nat.mul_le_mul_right _ hu.le)
      _ = B ^ m.length * (2 * val m) := by ring
  have hscale : r * B ^ m.length ≡ t [MOD val m] := by
    rw [mul_comm, hval]
    exact Nat.add_mul_modulus_modEq_iff.mpr rfl
  split_ifs with hge
  · have hsub : r - val m ≡ r [MOD val m] := (Nat.sub_modulus_modEq_iff hge).mpr rfl
    exact ⟨by omega, (hsub.mul_right _).trans hscale⟩
  · exact ⟨by omega, hscale⟩

/-- Settles O55: the word-serial reduction undoes the scale, and only the contract's `monred` does. -/
theorem wordSerialReductionReduces : Obligations.WordSerialReductionReduces := by
  intro m t hodd ht
  have hunique {r : Nat} (hlt : r < m) (hr : r * B ^ wordLen m ≡ t [MOD m]) :
      (r : Int) = monred t m := by
    have hmod : (r : Int) * montR m ≡ t [ZMOD m] := by
      rw [montR, Int.natAbs_natCast]
      exact_mod_cast Int.natCast_modEq_iff.mpr hr
    rw [monred_eq_modulo (by omega) (by omega) hmod, modulo_eq_emod _ (by omega),
      Int.emod_eq_of_lt (by omega) (by omega)]
  obtain ⟨hlt, hmod⟩ := monredWords_reduces (m := words m) (t := t) (by rwa [val_words])
    (by rwa [val_words, length_words])
  rw [val_words] at hlt hmod
  rw [length_words] at hmod
  exact ⟨hlt, hmod, fun r hr hrt => Int.ofNat_inj.mp ((hunique hr hrt).trans (hunique hlt hmod).symm),
    hunique hlt hmod⟩

end Sys2Proof.Machine
end

section
/-!
PROOFS. MODINV and MODPOW (44_modexp.md R190, R191, R193, R194): `modinv` is the inverse exactly where
there is one, `modpow` is the residue of the power, and both are below the modulus, so they fit.
-/

namespace Sys2Proof.Machine

/-! ### The inverse (R190) -/

/-- An operand with an inverse has no factor in common with the modulus. -/
theorem IsInverse.gcd_eq_one {z a m : Int} (h : IsInverse z a m) : a.gcd m = 1 := by
  obtain ⟨-, -, c, hc⟩ := h
  exact Int.isCoprime_iff_gcd_eq_one.mp ⟨z, -c, by linear_combination hc⟩

/-- Two inverses are congruent, and both lie below the modulus. -/
theorem IsInverse.unique {y z a m : Int} (hy : IsInverse y a m) (hz : IsInverse z a m) : y = z := by
  have hcoprime := hz.gcd_eq_one
  obtain ⟨hy1, hym, hydvd⟩ := hy
  obtain ⟨hz1, hzm, hzdvd⟩ := hz
  have hmul : m ∣ a * (y - z) := by
    rw [show a * (y - z) = a * y - 1 - (a * z - 1) by ring]
    exact hydvd.sub hzdvd
  have hdvd : m ∣ y - z :=
    Int.dvd_of_dvd_mul_right_of_gcd_one hmul (by rwa [Int.gcd_comm])
  have hzero := Int.eq_zero_of_abs_lt_dvd hdvd (abs_sub_lt_iff.mpr ⟨by omega, by omega⟩)
  omega

/-- `modinv` finds the inverse, and finds one wherever there is one (R190). -/
theorem modinv_eq_some_iff {a m z : Int} (hm : 0 < m) : modinv a m = some z ↔ IsInverse z a m := by
  refine ⟨isInverse_of_modinv hm, fun hz => ?_⟩
  rcases hfound : modinv a m with _ | y
  · rcases (modinv_eq_none_iff a hm).mp hfound with hgcd | rfl
    · exact absurd hz.gcd_eq_one hgcd
    · obtain ⟨hz1, hzm, -⟩ := hz
      omega
  · rw [(isInverse_of_modinv hm hfound).unique hz]

theorem modinv_eq_none_iff_not_exists {a m : Int} (hm : 0 < m) :
    modinv a m = none ↔ ¬ ∃ z, IsInverse z a m := by
  rw [Option.eq_none_iff_forall_ne_some, not_exists]
  exact forall_congr' fun z => (modinv_eq_some_iff hm).not

/-! ### The power (R193) -/

theorem lt_two_pow_bitlen (e : Nat) : e < 2 ^ bitlen e := by
  rw [bitlen]
  split_ifs with h
  · simp [h]
  · exact Nat.lt_log2_self

section Scan

variable {α : Type} {P : Nat → α → Prop} {square multiply : α → α}
  (hsquare : ∀ k a, P k a → P (2 * k) (square a))
  (hmultiply : ∀ k a, P k a → P (k + 1) (multiply a))

include hsquare hmultiply

/-- What the left-to-right scan keeps: where squaring doubles and multiplying adds one to the exponent of
which the accumulator is the power, the loop goes from the bits of `e` above `n` to all of `e`. -/
theorem expLoop_power {e n : Nat} {acc : α} (h : P (e / 2 ^ n) acc) :
    P e (expLoop square multiply e n acc) := by
  induction n generalizing acc with
  | zero => simpa [expLoop] using h
  | succ n ih =>
    have hhalf : e / 2 ^ (n + 1) = e / 2 ^ n / 2 := by rw [pow_succ, Nat.div_div_eq_div_mul]
    have hbit : e.testBit n = decide (e / 2 ^ n % 2 = 1) := Nat.testBit_eq_decide_div_mod_eq
    have hsq := hsquare _ _ h
    rw [expLoop, hbit]
    apply ih
    by_cases hone : e / 2 ^ n % 2 = 1
    · rw [if_pos (decide_eq_true hone), show e / 2 ^ n = 2 * (e / 2 ^ (n + 1)) + 1 by omega]
      exact hmultiply _ _ hsq
    · rwa [if_neg (by simpa using hone), show e / 2 ^ n = 2 * (e / 2 ^ (n + 1)) by omega]

/-- The whole scan, from the power with exponent 0. -/
theorem expLoop_bitlen_power {acc : α} (h : P 0 acc) (e : Nat) :
    P e (expLoop square multiply e (bitlen e) acc) :=
  expLoop_power hsquare hmultiply (by rwa [Nat.div_eq_of_lt (lt_two_pow_bitlen e)])

end Scan

theorem powMod_eq (b e m : Nat) : powMod b e m = b ^ e % m := by
  refine expLoop_bitlen_power (P := fun k acc => acc = b ^ k % m) ?_ ?_ (by rw [pow_zero]) e
  · rintro k _ rfl
    rw [← Nat.mul_mod, ← pow_add, two_mul]
  · rintro k _ rfl
    rw [Nat.mod_mul_mod, pow_succ]

/-- The residue of a power is that of the base's residue (R201). -/
theorem modulo_pow_eq {x m : Int} (hm : 0 < m) (e : Nat) :
    modulo (x ^ e) m = (((modulo x m).toNat ^ e % m.toNat : Nat) : Int) := by
  obtain ⟨hnonneg, -, -⟩ := isResidue_modulo x hm
  push_cast
  rw [Int.toNat_of_nonneg hnonneg, Int.toNat_of_nonneg hm.le, modulo_eq_emod _ hm]
  exact ((modulo_modEq x hm).pow e).symm

theorem IsInverse.modulo_eq {z a m : Int} (h : IsInverse z a m) : modulo z m = z := by
  obtain ⟨hz1, hzm, -⟩ := h
  exact (IsResidue.eq_modulo ⟨by omega, by omega, by simp⟩).symm

theorem modpow_of_nonneg (x : Int) {e m : Int} (hm : 0 < m) (he : 0 ≤ e) :
    modpow x e m = some (modulo (x ^ e.natAbs) m) := by
  rw [modpow, if_neg (not_lt.mpr he), powMod_eq, modulo_pow_eq hm]

theorem modpow_of_isInverse {x y e m : Int} (hm : 0 < m) (he : e < 0) (hy : IsInverse y x m) :
    modpow x e m = some (modulo (y ^ e.natAbs) m) := by
  rw [modpow, if_pos he, (modinv_eq_some_iff hm).mpr hy, Option.map_some, powMod_eq, modulo_pow_eq hm,
    hy.modulo_eq]

theorem modpow_of_not_invertible {x e m : Int} (hm : 0 < m) (he : e < 0)
    (h : ¬ ∃ y, IsInverse y x m) : modpow x e m = none := by
  rw [modpow, if_pos he, (modinv_eq_none_iff_not_exists hm).mpr h, Option.map_none]

/-! ### The commands (R191, R194) -/

/-- How a command ends that checks its modulus and then computes one value or finds no inverse (R191,
R194). -/
theorem exec_invertible {i : Instr} (hi : i.wf = true) {s : State} (he : s.err = none) {m : Int}
    {d : RegId} {found : Option Int} (hx : exec i s = command i s (if m ≤ 0 then .error .modulus else
      match found with
      | none => .error .noInverse
      | some z => .ok (.value d z))) :
    (m ≤ 0 → FaultsWith i s .modulus) ∧
    (0 < m → found = none → FaultsWith i s .noInverse) ∧
    (∀ z, 0 < m → found = some z → z.natAbs < B ^ s.cfg.maxw → Completes i s [(d, z)]) := by
  refine ⟨fun hm => ?_, fun hm hnone => ?_, fun z hm hsome hz => ?_⟩
  · rw [if_pos hm, command_error hi] at hx
    exact faultsWith_of_raise he hx
  · subst hnone
    rw [if_neg (not_le.mpr hm), command_error hi] at hx
    exact faultsWith_of_raise he hx
  · subst hsome
    rw [if_neg (not_le.mpr hm)] at hx
    exact completes_of_fits hi hx hz

/-- Settles O24: `modinv` finds what there is, and what it finds is below the modulus, so it fits. -/
theorem modinvWritesTheInverse : Obligations.ModinvWritesTheInverse := by
  intro s d a k x m hinv he ha hk
  have hx := exec_modinv d a k s
  rw [withTwo_of_some ha hk] at hx
  obtain ⟨hmodulus, hnone, hsome⟩ := exec_invertible rfl he hx
  refine ⟨(Laws.OpcodeByte.modinv d a k).1, hmodulus, fun hm hfail => ?_, fun hm hgcd => ?_⟩
  · have hnot := (modinv_eq_none_iff x hm).mpr hfail.symm
    exact ⟨(modinv_eq_none_iff_not_exists hm).mp hnot, hnone hm hnot⟩
  · have hpos : 0 < m := by omega
    obtain ⟨z, hz⟩ : ∃ z, modinv x m = some z := Option.ne_none_iff_exists'.mp fun hnot =>
      ((modinv_eq_none_iff x hpos).mp hnot).elim (· hgcd) (by omega)
    have hzinv := (modinv_eq_some_iff hpos).mp hz
    have hfits : z.natAbs < m.natAbs := hzinv.modulo_eq ▸ natAbs_modulo_lt z hpos
    exact ⟨z, hzinv, fun y hy => hy.unique hzinv,
      hsome z hpos hz (hfits.trans (hinv.natAbs_lt hk))⟩

/-- Settles O25: `modpow` is the residue of the power of the base or of its inverse, and a residue is
below the modulus, so it fits. -/
theorem modpowWritesThePower : Obligations.ModpowWritesThePower := by
  intro s d a b k x e m hinv he ha hb hk
  have hx := exec_modpow d a b k s
  rw [withThree_of_some ha hb hk] at hx
  obtain ⟨hmodulus, hnone, hsome⟩ := exec_invertible rfl he hx
  have hwrites {y : Int} (hm : 0 < m) (hy : modpow x e m = some (modulo y m)) :
      ∃ z, IsResidue z y m ∧ Completes (.modpow d a b k) s [(d, z)] :=
    ⟨_, isResidue_modulo y hm,
      hsome _ hm hy ((natAbs_modulo_lt y hm).trans (hinv.natAbs_lt hk))⟩
  exact ⟨(Laws.OpcodeByte.modpow d a b k).1, hmodulus,
    fun hm hneg hnot => hnone hm (modpow_of_not_invertible hm hneg hnot),
    fun hm hnonneg => hwrites hm (modpow_of_nonneg x hm hnonneg),
    fun hm hneg y hy => hwrites hm (modpow_of_isInverse hm hneg hy)⟩

end Sys2Proof.Machine
end

section
/-!
PROOFS. The square-and-multiply paths (44_modexp.md R196, R198): each keeps, before the iteration for a
bit, the power with the exponent's bits above it, in the Montgomery domain or as a plain residue.
-/

namespace Sys2Proof.Machine

/-- `a` is the Montgomery form of `x` modulo `q` (R170). -/
def MontForm (q x a : Nat) : Prop := a < q ∧ a ≡ x * B ^ wordLen q [MOD q]

theorem montForm_mod {q : Nat} (hq : 0 < q) (x : Nat) : MontForm q x (x * B ^ wordLen q % q) :=
  ⟨Nat.mod_lt _ hq, Nat.mod_modEq _ _⟩

/-- The word-serial reduction of a product of residues (R172). -/
theorem monredWords_words {q t : Nat} (hodd : q % 2 = 1) (ht : t < q * B ^ wordLen q) :
    monredWords t (words q) < q ∧ monredWords t (words q) * B ^ wordLen q ≡ t [MOD q] := by
  simpa using monredWords_reduces (m := words q) (t := t) (by rwa [val_words])
    (by rwa [val_words, length_words])

theorem coprime_scale {q : Nat} (hodd : q % 2 = 1) : q.gcd (B ^ wordLen q) = 1 := by
  rw [Nat.gcd_comm, base_pow]
  exact (Nat.coprime_two_left.mpr (Nat.odd_iff.mpr hodd)).pow_left _

/-- The Montgomery product of two forms is the form of the product (R173). -/
theorem MontForm.mul {q x y a c : Nat} (hodd : q % 2 = 1) (ha : MontForm q x a)
    (hc : MontForm q y c) : MontForm q (x * y) (monproWords a c q) := by
  obtain ⟨haq, hax⟩ := ha
  obtain ⟨hcq, hcy⟩ := hc
  have hscale := lt_base_pow_wordLen q
  obtain ⟨hlt, hmod⟩ := monredWords_words hodd (t := a * c)
    ((Nat.mul_lt_mul'' haq hcq).trans (Nat.mul_lt_mul_of_pos_left hscale (by omega)))
  rw [monproWords, mulmag_eq_words (canonical_words a), val_words, val_words, val_words]
  refine ⟨hlt, Nat.ModEq.cancel_right_of_coprime (coprime_scale hodd) (hmod.trans ?_)⟩
  calc a * c ≡ x * B ^ wordLen q * (y * B ^ wordLen q) [MOD q] := hax.mul hcy
    _ = x * y * B ^ wordLen q * B ^ wordLen q := by ring

/-- Reduction brings a form back to the residue it is of (R172). -/
theorem MontForm.monredWords_eq {q x a : Nat} (hodd : q % 2 = 1) (ha : MontForm q x a) :
    monredWords a (words q) = x % q := by
  obtain ⟨haq, hax⟩ := ha
  obtain ⟨hlt, hmod⟩ := monredWords_words hodd (t := a)
    (haq.trans_le (Nat.le_mul_of_pos_right q (by positivity)))
  have hx : monredWords a (words q) ≡ x [MOD q] :=
    Nat.ModEq.cancel_right_of_coprime (coprime_scale hodd) (hmod.trans hax)
  rw [← hx, Nat.mod_eq_of_lt hlt]

theorem oddpow_eq {q : Nat} (hodd : q % 2 = 1) (b e : Nat) : oddpow b e q = b ^ e % q := by
  have hq : 0 < q := by omega
  have hform : MontForm q b (b * B ^ wordLen q % q) := montForm_mod hq b
  have hone : MontForm q (b ^ 0) (B ^ wordLen q % q) := by
    simpa using montForm_mod hq 1
  refine (expLoop_bitlen_power (P := fun k acc => MontForm q (b ^ k) acc) ?_ ?_ hone e).monredWords_eq hodd
  · intro k acc hacc
    rw [two_mul, pow_add]
    exact hacc.mul hodd hacc
  · intro k acc hacc
    rw [pow_succ]
    exact hacc.mul hodd hform

/-- The loop modulo `2^k` is the square-and-multiply loop on the base's low bits. -/
theorem pow2pow_eq (b e : Nat) {k : Nat} (hk : 1 ≤ k) : pow2pow b e k = b ^ e % 2 ^ k := by
  have hone : 1 % 2 ^ k = 1 := Nat.mod_eq_of_lt (Nat.one_lt_two_pow (by omega))
  have hpow : pow2pow b e k = powMod (b % 2 ^ k) e (2 ^ k) := by rw [pow2pow, powMod, hone]
  rw [hpow, powMod_eq, ← Nat.pow_mod]

/-- Settles O56, by what each loop keeps. -/
theorem squareAndMultiplyPaths : Obligations.SquareAndMultiplyPaths :=
  ⟨fun b e _ hodd _ => oddpow_eq hodd b e, fun b e _ hk => pow2pow_eq b e hk⟩

end Sys2Proof.Machine
end

section
/-!
PROOFS. The even-modulus path and the sequencer (44_modexp.md R195, R197, R199 to R201): the lifting
squares the error of the inverse, and the recombined number is the one residue that the two paths give
modulo the odd part and modulo the power of two.
-/

namespace Sys2Proof.Machine

/-! ### The lifted inverse (R199) -/

/-- A lifting step squares the error `1 - q * y`, so it doubles the number of correct low bits, up to
`k`; the fuel is enough for the doubling to reach `k`. -/
theorem pow2invLoop_inverts {q y : Int} {k n bits : Nat} (hfuel : k ≤ bits * 2 ^ n)
    (h : q * y ≡ 1 [ZMOD 2 ^ min bits k]) : q * pow2invLoop q k n bits y ≡ 1 [ZMOD 2 ^ k] := by
  induction n generalizing bits y with
  | zero => rwa [pow2invLoop, ← min_eq_right (by simpa using hfuel : k ≤ bits)]
  | succ n ih =>
    rw [pow2invLoop]
    split_ifs with hlt
    · refine ih (by rwa [mul_comm 2 bits, mul_assoc, ← pow_succ']) ?_
      rw [min_eq_left hlt.le] at h
      have hsquare : (2 : Int) ^ min (2 * bits) k ∣ (1 - q * y) ^ 2 := by
        refine (pow_dvd_pow 2 (min_le_left (2 * bits) k)).trans ?_
        rw [mul_comm, pow_mul]
        exact pow_dvd_pow_of_dvd h.dvd 2
      calc q * modulo (y * (2 - q * y)) (2 ^ min (2 * bits) k)
          ≡ q * (y * (2 - q * y)) [ZMOD 2 ^ min (2 * bits) k] :=
            (modulo_modEq _ (by positivity)).mul_left q
        _ = 1 - (1 - q * y) ^ 2 := by ring
        _ ≡ 1 - 0 [ZMOD 2 ^ min (2 * bits) k] := (Int.modEq_zero_iff_dvd.mpr hsquare).sub_left 1
        _ = 1 := sub_zero 1
    · rwa [← min_eq_right (not_lt.mp hlt)]

/-- An odd number is its own inverse modulo 2, from which the lifting starts. -/
theorem pow2inv_inverts {q k : Nat} (hodd : q % 2 = 1) (hk : 1 ≤ k) :
    (q : Int) * pow2inv q k ≡ 1 [ZMOD 2 ^ k] := by
  have hstart : (q : Int) * 1 ≡ 1 [ZMOD 2 ^ min 1 k] := by
    rw [min_eq_left hk, pow_one, mul_one, Int.ModEq]
    omega
  have hfuel : k ≤ 1 * 2 ^ k := by
    rw [one_mul]
    exact Nat.lt_two_pow_self.le
  exact ((modulo_modEq _ (by positivity)).mul_left _).trans (pow2invLoop_inverts hfuel hstart)

/-! ### Recombination (R200) -/

theorem natCast_crtJoin (x1 x2 q k : Nat) :
    (crtJoin x1 x2 q k : Int) = x1 + q * modulo ((x2 - x1) * pow2inv q k) (2 ^ k) := by
  obtain ⟨hnonneg, -, -⟩ := isResidue_modulo ((x2 - x1) * pow2inv q k) (m := 2 ^ k) (by positivity)
  rw [crtJoin, Nat.cast_add, Nat.cast_mul, Int.toNat_of_nonneg hnonneg]

theorem crtJoin_lt {x1 q : Nat} (hx1 : x1 < q) (x2 k : Nat) : crtJoin x1 x2 q k < q * 2 ^ k := by
  obtain ⟨-, hlt, -⟩ := isResidue_modulo ((x2 - x1) * pow2inv q k) (m := 2 ^ k) (by positivity)
  have hmul := mul_le_mul_of_nonneg_left (Int.add_one_le_of_lt hlt) q.cast_nonneg
  rw [mul_add_one] at hmul
  zify at hx1 ⊢
  rw [natCast_crtJoin]
  linarith

theorem crtJoin_modEq_odd (x1 x2 q k : Nat) : crtJoin x1 x2 q k ≡ x1 [MOD q] := by
  rw [crtJoin]
  exact Nat.add_modulus_mul_modEq_iff.mpr rfl

theorem crtJoin_modEq_pow2 {q k : Nat} (hodd : q % 2 = 1) (hk : 1 ≤ k) (x1 x2 : Nat) :
    crtJoin x1 x2 q k ≡ x2 [MOD 2 ^ k] := by
  rw [← Int.natCast_modEq_iff, natCast_crtJoin, Nat.cast_pow]
  calc (x1 : Int) + q * modulo ((x2 - x1) * pow2inv q k) (2 ^ k)
      ≡ x1 + q * ((x2 - x1) * pow2inv q k) [ZMOD 2 ^ k] :=
        ((modulo_modEq _ (by positivity)).mul_left _).add_left _
    _ = x1 + (x2 - x1) * (q * pow2inv q k) := by ring
    _ ≡ x1 + (x2 - x1) * 1 [ZMOD 2 ^ k] := ((pow2inv_inverts hodd hk).mul_left _).add_left _
    _ = x2 := by ring

/-- Settles O57: the lifting inverts, and the recombination adds to the first residue the multiple of
`q` that brings the second. -/
theorem evenModulusRecombination : Obligations.EvenModulusRecombination := by
  refine ⟨fun q k hodd hk => ?_, fun x1 x2 q k hodd hk hx1 hx2 => ⟨crtJoin_lt hx1 x2 k, ?_, ?_⟩⟩
  · obtain ⟨hnonneg, hlt, -⟩ := isResidue_modulo (pow2invLoop q k k 1 1) (m := 2 ^ k) (by positivity)
    exact ⟨hnonneg, hlt, (pow2inv_inverts hodd hk).symm.dvd⟩
  · exact Eq.trans (crtJoin_modEq_odd x1 x2 q k) (Nat.mod_eq_of_lt hx1)
  · exact Eq.trans (crtJoin_modEq_pow2 hodd hk x1 x2) (Nat.mod_eq_of_lt hx2)

/-! ### The split (R197) -/

/-- Halving while the number is even finds the lowest set bit, when one is among the bits looked at. -/
theorem exists_odd_eq_two_pow_tzWithin_mul {n k : Nat} (hpos : 0 < k) (hk : k < 2 ^ n) :
    ∃ q, q % 2 = 1 ∧ k = 2 ^ tzWithin n k * q := by
  induction n generalizing k with
  | zero => omega
  | succ n ih =>
    rw [tzWithin]
    split_ifs with hbit
    · exact ⟨k, hbit, by rw [pow_zero, one_mul]⟩
    · obtain ⟨q, hodd, hq⟩ := ih (k := k / 2) (by omega) (by omega)
      refine ⟨q, hodd, ?_⟩
      rw [add_comm, pow_succ', mul_assoc, ← hq]
      omega

/-- A positive number is its odd part times the power of two of its trailing zeros. -/
theorem exists_odd_eq_two_pow_tz_mul {m : Nat} (hm : 0 < m) : ∃ q, q % 2 = 1 ∧ m = 2 ^ tz m * q :=
  exists_odd_eq_two_pow_tzWithin_mul hm (lt_two_pow_bitlen m)

/-! ### The sequencer (R195, R201) -/

theorem sequencerPower_of_odd (x : Int) (e : Nat) {m : Nat} (hodd : m % 2 = 1) :
    sequencerPower x e m = (modulo x m).toNat ^ e % m := by
  simp only [sequencerPower, if_pos hodd, if_true, pow_zero, Nat.div_one]
  rw [oddpow_eq hodd, ← Nat.pow_mod]

/-- The power has the two residues that are recombined, and they determine it below the modulus. -/
theorem sequencerPower_of_even (x : Int) (e : Nat) {m : Nat} (hm : 0 < m) (heven : m % 2 ≠ 1) :
    sequencerPower x e m = (modulo x m).toNat ^ e % m := by
  obtain ⟨q, hodd, hq⟩ := exists_odd_eq_two_pow_tz_mul hm
  have hk : tz m ≠ 0 := by
    intro hzero
    rw [hzero, pow_zero, one_mul] at hq
    exact heven (hq ▸ hodd)
  have hdiv : m / 2 ^ tz m = q := Nat.div_eq_of_eq_mul_right (by positivity) hq
  simp only [sequencerPower, if_neg heven, if_neg hk, hdiv]
  rw [oddpow_eq hodd, ← Nat.pow_mod, pow2pow_eq _ _ (by omega)]
  set p := (modulo x m).toNat ^ e
  have hcoprime : Nat.Coprime (2 ^ tz m) q :=
    (Nat.coprime_two_left.mpr (Nat.odd_iff.mpr hodd)).pow_left _
  have hlt : crtJoin (p % q) (p % 2 ^ tz m) q (tz m) < m := by
    rw [mul_comm] at hq
    exact (crtJoin_lt (Nat.mod_lt _ (by omega)) _ _).trans_eq hq.symm
  have hmod : crtJoin (p % q) (p % 2 ^ tz m) q (tz m) ≡ p [MOD 2 ^ tz m * q] :=
    (Nat.modEq_and_modEq_iff_modEq_mul hcoprime).mp
      ⟨(crtJoin_modEq_pow2 hodd (by omega) _ _).trans (Nat.mod_modEq _ _),
        (crtJoin_modEq_odd _ _ _ _).trans (Nat.mod_modEq _ _)⟩
  rw [← hq] at hmod
  rw [← hmod, Nat.mod_eq_of_lt hlt]

/-- Phases REDUCE to CRT compute the residue of the power, for an odd and an even modulus (R201). -/
theorem sequencerPower_eq_modulo (x : Int) (e : Nat) {m : Int} (hm : 0 < m) :
    (sequencerPower x e m.toNat : Int) = modulo (x ^ e) m := by
  have hpower : sequencerPower x e m.toNat = (modulo x m.toNat).toNat ^ e % m.toNat := by
    by_cases hodd : m.toNat % 2 = 1
    · exact sequencerPower_of_odd x e hodd
    · exact sequencerPower_of_even x e (by omega) hodd
  rw [hpower, modulo_pow_eq hm, Int.toNat_of_nonneg hm.le]

/-- Settles O58: with a positive modulus and the exponent made non-negative, the sequencer's power and the
contract's are one residue. -/
theorem sequencerMeetsTheContract : Obligations.SequencerMeetsTheContract := by
  intro x e m
  rw [sequencer]
  split_ifs with hm hneg
  · rfl
  · rcases hinv : modinv x m with _ | y
    · rw [modpow, if_pos hneg, hinv, Option.map_none]
    · have hy := (modinv_eq_some_iff (not_le.mp hm)).mp hinv
      rw [modpow_of_isInverse (not_le.mp hm) hneg hy]
      exact congrArg Except.ok (sequencerPower_eq_modulo y _ (not_le.mp hm))
  · rw [modpow_of_nonneg x (not_le.mp hm) (not_lt.mp hneg), sequencerPower_eq_modulo x _ (not_le.mp hm)]

end Sys2Proof.Machine
end

section
/-!
PROOFS. Exceptions (60_exceptions.md): a command's fault is precise (R233), only ADD, SUB and MUL can
raise `Capacity` (R227), and clearing is the only way out of the faulted state but reset (R235).
-/

namespace Sys2Proof.Machine

/-! ### Precise faults (R233) -/

/-- Settles O27: a command that does not keep ERR latches a fault, and does nothing else. -/
theorem commandFaultsArePrecise : Obligations.CommandFaultsArePrecise := by
  intro i s t hs h herr
  obtain ⟨f, hformat, hbus, -, rfl⟩ :=
    (exec_fault h).resolve_left fun ⟨hkept, _⟩ => herr (hkept.trans hs)
  exact ⟨f, hformat, hbus, rfl⟩

/-! ### Leaving the faulted state (R235) -/

/-- A write to STATUS clears the fault where bit 31 is set, in the faulted state or not, and does
nothing where it is not (R57, R235). -/
theorem hostWrite_status (s : State) (data : Word) : hostWrite 0x0001 data s =
    .next (if isClear 0x0001 data then s.clearFault else s) := by
  rw [hostWrite, targetOf_status]
  cases isClear 0x0001 data <;> simp

/-- In the faulted state reset and the clearing write are the only events that unlatch the fault: by
R234 every other one keeps ERR. -/
theorem event_of_step_leaves_faulted {s t : State} {e : PortEvent} {rest : List PortEvent}
    (hs : s.err ≠ none) (hp : s.port = e :: rest) (h : step s = .next t) (ht : t.err = none) :
    e = .reset ∨ ∃ data, e = .write 0x0001 data ∧ slice 31 31 data = 1 := by
  obtain ⟨f, hf⟩ := Option.ne_none_iff_exists'.mp hs
  obtain ⟨hwrites, hreads⟩ := faultedStateIsFrozen s f rest hf
  cases e with
  | reset => exact Or.inl rfl
  | read a =>
    obtain ⟨v, n, hstep⟩ := hreads a hp
    rw [hstep] at h
    cases h
    exact absurd ht hs
  | write a data =>
    by_cases hclear : a = 0x0001 ∧ slice 31 31 data = 1
    · obtain ⟨rfl, hbit⟩ := hclear
      exact Or.inr ⟨data, rfl, hbit⟩
    · rw [hwrites a data hp hclear] at h
      cases h
      exact absurd ht hs

/-- Settles O31, from what a write to STATUS does and what leaves the faulted state. -/
theorem clearingLeavesTheFaultedState : Obligations.ClearingLeavesTheFaultedState := by
  refine ⟨fun s data rest hp => ⟨fun hbit => ?_, fun hbit => ?_⟩, fun s t e rest =>
    event_of_step_leaves_faulted⟩
  · have hclear : isClear 0x0001 data = true := by simp [isClear, hbit]
    have hwrite := hostWrite_status (s.accept rest) data
    rw [if_pos hclear] at hwrite
    exact (step_cons hp).trans hwrite
  · have hclear : isClear 0x0001 data = false := isClear_eq_false (by simp [hbit])
    have hwrite := hostWrite_status (s.accept rest) data
    rw [hclear] at hwrite
    exact (step_cons hp).trans hwrite

/-! ### Capacity (R227) -/

/-- What a command computes fits the registers of `s`: it is a fault other than `Capacity`, or every
integer that it writes fits. -/
def ComputesFitting (s : State) : Computed → Prop
  | .error f => f ≠ .capacity
  | .ok (.value _ z) => z.natAbs < B ^ s.cfg.maxw
  | .ok (.pair _ q _ r) => q.natAbs < B ^ s.cfg.maxw ∧ r.natAbs < B ^ s.cfg.maxw
  | .ok (.compare _) => True

/-- Where the results fit, R91 step 5 finds nothing, and no other step raises `Capacity`. -/
theorem command_err_ne_capacity {i : Instr} {s t : State} {k : Computed}
    (hk : ComputesFitting s k) (hs : s.err = none) (h : command i s k = .next t) :
    t.err ≠ some .capacity := by
  by_cases hi : i.wf = true
  · match k, hk with
    | .error f, hk =>
      rw [command_error hi, State.raise_of_none hs] at h
      cases h
      exact fun hcap => hk (Option.some_inj.mp hcap)
    | .ok (.value d z), hz =>
      rw [command_value hi hz] at h
      cases h
      simp [hs]
    | .ok (.pair d q e r), ⟨hq, hr⟩ =>
      rw [command_pair hi hq hr] at h
      cases h
      simp [hs]
    | .ok (.compare c), _ =>
      rw [command_compare hi] at h
      cases h
      simp [hs]
  · rw [command_of_not_wf (by simpa using hi), State.raise_of_none hs] at h
    cases h
    nofun

theorem computesFitting_ite_error {s : State} {p : Prop} [Decidable p] {f : FaultCode}
    {k : Computed} (hf : f ≠ .capacity) (hk : ¬ p → ComputesFitting s k) :
    ComputesFitting s (if p then .error f else k) := by
  split
  · exact hf
  · exact hk ‹_›

/-- The checks of a Montgomery command leave a positive modulus (R174). -/
theorem computesFitting_withOddModulus {s : State} {m : Int} {k : Computed}
    (hk : 0 < m → ComputesFitting s k) : ComputesFitting s (withOddModulus m k) :=
  computesFitting_ite_error nofun fun hm =>
    computesFitting_ite_error nofun fun _ => hk (not_le.mp hm)

/-- What `modinv` finds is a residue (R190). -/
theorem natAbs_modinv_lt {a m z : Int} (hm : 0 < m) (h : modinv a m = some z) :
    z.natAbs < m.natAbs :=
  (isInverse_of_modinv hm h).modulo_eq ▸ natAbs_modulo_lt z hm

/-- What `modpow` gives is a residue, of a power of the base or of its inverse (R193). -/
theorem natAbs_modpow_lt {x e m z : Int} (hm : 0 < m) (h : modpow x e m = some z) :
    z.natAbs < m.natAbs := by
  obtain ⟨y, hy⟩ : ∃ y, modpow x e m = some (modulo y m) := by
    rcases lt_or_ge e 0 with hneg | hnonneg
    · by_cases hinv : ∃ y, IsInverse y x m
      · obtain ⟨y, hy⟩ := hinv
        exact ⟨_, modpow_of_isInverse hm hneg hy⟩
      · rw [modpow_of_not_invertible hm hneg hinv] at h
        cases h
    · exact ⟨_, modpow_of_nonneg x hm hnonneg⟩
  obtain rfl : modulo y m = z := Option.some_inj.mp (hy.symm.trans h)
  exact natAbs_modulo_lt y hm

section OperandBound

variable {s : State} (hinv : s.Inv)

include hinv

/-- An operand that is read fits, by the invariant. -/
theorem computesFitting_withOne {a : RegId} {k : Int → Computed}
    (hk : ∀ x : Int, x.natAbs < B ^ s.cfg.maxw → ComputesFitting s (k x)) :
    ComputesFitting s (withOne s a k) := by
  cases ha : s.rd a with
  | none =>
    rw [withOne_of_none ha]
    nofun
  | some x =>
    rw [withOne_of_some ha]
    exact hk x (hinv.natAbs_lt ha)

theorem computesFitting_withTwo {a b : RegId} {k : Int → Int → Computed}
    (hk : ∀ x y : Int, x.natAbs < B ^ s.cfg.maxw → y.natAbs < B ^ s.cfg.maxw →
      ComputesFitting s (k x y)) : ComputesFitting s (withTwo s a b k) :=
  computesFitting_withOne hinv fun x hx => computesFitting_withOne hinv fun y hy => hk x y hx hy

/-- Of three operands the last, the modulus, is the one that bounds the result. -/
theorem computesFitting_withThree {a b m : RegId} {k : Int → Int → Int → Computed}
    (hk : ∀ x y n : Int, n.natAbs < B ^ s.cfg.maxw → ComputesFitting s (k x y n)) :
    ComputesFitting s (withThree s a b m k) :=
  computesFitting_withOne hinv fun x _ => computesFitting_withOne hinv fun y _ =>
    computesFitting_withOne hinv fun n hn => hk x y n hn

/-- Every command but ADD, SUB and MUL computes results bounded by an operand: NEG, ABS, DIV and the
quotient of DIVREM by the dividend, the remainders by the divisor, and the modular commands by the
modulus. -/
theorem exec_computesFitting (i : Instr) :
    (∃ d a b, i = .add d a b ∨ i = .sub d a b ∨ i = .mul d a b) ∨
      ∃ k, exec i s = command i s k ∧ ComputesFitting s k := by
  cases i with
  | add d a b => exact Or.inl ⟨d, a, b, Or.inl rfl⟩
  | sub d a b => exact Or.inl ⟨d, a, b, Or.inr (Or.inl rfl)⟩
  | mul d a b => exact Or.inl ⟨d, a, b, Or.inr (Or.inr rfl)⟩
  | neg d a =>
    exact Or.inr ⟨_, exec_neg d a s, computesFitting_withOne hinv fun x hx =>
      (Int.natAbs_neg x).trans_lt hx⟩
  | abs d a => exact Or.inr ⟨_, exec_abs d a s, computesFitting_withOne hinv fun x hx => hx⟩
  | cmpm a b =>
    exact Or.inr ⟨_, exec_cmpm a b s, computesFitting_withTwo hinv fun _ _ _ _ => trivial⟩
  | cmp a b =>
    exact Or.inr ⟨_, exec_cmp a b s, computesFitting_withTwo hinv fun _ _ _ _ => trivial⟩
  | divrem d e a b =>
    exact Or.inr ⟨_, exec_divrem d e a b s, computesFitting_withTwo hinv fun x y hx hy =>
      computesFitting_ite_error nofun fun hne =>
        ⟨(natAbs_tdiv_le x y).trans_lt hx, (natAbs_tmod_lt x hne).trans hy⟩⟩
  | div d a b =>
    exact Or.inr ⟨_, exec_div d a b s, computesFitting_withTwo hinv fun x y hx _ =>
      computesFitting_ite_error nofun fun _ => (natAbs_tdiv_le x y).trans_lt hx⟩
  | rem d a b =>
    exact Or.inr ⟨_, exec_rem d a b s, computesFitting_withTwo hinv fun x y _ hy =>
      computesFitting_ite_error nofun fun hne => (natAbs_tmod_lt x hne).trans hy⟩
  | mod d a b =>
    exact Or.inr ⟨_, exec_mod d a b s, computesFitting_withTwo hinv fun x m _ hm =>
      computesFitting_ite_error nofun fun hpos => (natAbs_modulo_lt x (not_le.mp hpos)).trans hm⟩
  | montmul d a b m =>
    exact Or.inr ⟨_, exec_montmul d a b m s, computesFitting_withThree hinv fun x y n hn =>
      computesFitting_withOddModulus fun hpos => computesFitting_ite_error nofun fun _ =>
        (natAbs_modulo_lt _ hpos).trans hn⟩
  | montred d a m =>
    exact Or.inr ⟨_, exec_montred d a m s, computesFitting_withTwo hinv fun t n _ hn =>
      computesFitting_withOddModulus fun hpos => computesFitting_ite_error nofun fun _ =>
        (natAbs_modulo_lt _ hpos).trans hn⟩
  | montin d a m =>
    exact Or.inr ⟨_, exec_montin d a m s, computesFitting_withTwo hinv fun x n _ hn =>
      computesFitting_withOddModulus fun hpos => (natAbs_modulo_lt _ hpos).trans hn⟩
  | modpow d a b m =>
    refine Or.inr ⟨_, exec_modpow d a b m s, computesFitting_withThree hinv fun x e n hn =>
      computesFitting_ite_error nofun fun hpos => ?_⟩
    split
    · nofun
    · exact (natAbs_modpow_lt (not_le.mp hpos) ‹_›).trans hn
  | modinv d a m =>
    refine Or.inr ⟨_, exec_modinv d a m s, computesFitting_withTwo hinv fun x n _ hn =>
      computesFitting_ite_error nofun fun hpos => ?_⟩
    split
    · nofun
    · exact (natAbs_modinv_lt (not_le.mp hpos) ‹_›).trans hn

end OperandBound

/-- Settles O28: every other command computes what fits, and then `Capacity` is not raised. -/
theorem onlyAddSubMulRaiseCapacity : Obligations.OnlyAddSubMulRaiseCapacity := by
  intro i s t hinv hs h hcap
  refine (exec_computesFitting hinv i).resolve_right ?_
  rintro ⟨k, hexec, hk⟩
  exact command_err_ne_capacity hk hs (hexec.symm.trans h) hcap

end Sys2Proof.Machine
end

section
/-!
PROOFS. The reset input (70_reset_and_hazards.md): asserting reset brings the reset state (R250), with
nothing of the state before in it but the configuration and the model's own bookkeeping (R252).
-/

namespace Sys2Proof.Machine

/-- A reset event resets the hardware, in the faulted state or not: unlike a write it does not look at
ERR (R250). -/
theorem step_reset {s : State} {rest : List PortEvent} (h : s.port = .reset :: rest) :
    step s = .next (s.accept rest).resetHardware :=
  step_cons h

/-- What reset leaves of a state whose first event is taken: `MAXW`, the rest of the events and the
draw counter (R252; log 7). -/
theorem State.resetHardware_accept (s : State) (rest : List PortEvent) :
    (s.accept rest).resetHardware =
      { State.resetWith s.cfg with port := rest, draws := s.draws } :=
  rfl

/-- Settles O39: a reset event resets the hardware, and what that leaves is the reset state. -/
theorem resetEventBringsTheResetState : Obligations.ResetEventBringsTheResetState := by
  intro s rest hport
  rw [step_reset hport, State.resetHardware_accept]

end Sys2Proof.Machine
end
